-- ==== Sys2Proof/Word.lean ====
section
/-! DEFINITION. The word types of the totpkit B32/DT block (00_scope.md R10, R11): every value is unsigned,
bit 0 is the least significant bit. -/

namespace Sys2Proof

/-- A character code, a digest byte, a buffer element, an operand `ARG` (R10: 8 bits). -/
abbrev Byte := BitVec 8

/-- A command word (R10: 16 bits). -/
abbrev CmdWord := BitVec 16

/-- Read data and readable registers (R10: 32 bits). -/
abbrev Word32 := BitVec 32

/-- The value of a Base32 symbol, 0 to 31 (40_reference_functions.md R71). -/
abbrev SymVal := BitVec 5

end Sys2Proof
end

