-- ==== Sys2Proof/Config.lean ====
section
/-! DEFINITION. What an implementation fixes (00_scope.md R9): the three size parameters. There is no free value
(93_implementation_defined.md part 1: nothing is treated as `any value`). -/

namespace Sys2Proof

/-- The configuration record of R9. Each parameter is an 8-bit number because the operand and the fields of the
`CFG` register are (R9, R27); the range 1 to 255 is `Cfg.wellFormed`. -/
structure Cfg where
  /-- `KEY_MAX`, capacity of `KB` in bytes -/
  keyMax : BitVec 8
  /-- `DIGEST_MAX`, capacity of `DB` in bytes -/
  digestMax : BitVec 8
  /-- `DIGITS_MAX`, capacity of `CB` in characters -/
  digitsMax : BitVec 8
  deriving DecidableEq, Repr

/-- The reference values of R9: 64, 64, 16. DESIGN CHOICE that reset uses them: log entry 1. -/
def Cfg.reference : Cfg := { keyMax := 64, digestMax := 64, digitsMax := 16 }

end Sys2Proof
end

