-- ==== Sys2Proof/Syntax.lean ====
section
/-! DEFINITION. The nine commands (30_encoding.md R57), the readable registers by name (10_state.md R27) and the
assembler's line (R62). -/

namespace Sys2Proof

/-- One constructor per row of spec/opcode_table.json. An operand is the 8-bit `ARG` exactly as it stands (R54). -/
inductive Instr where
  /-- `B32.START` (R88) -/
  | b32Start
  /-- `B32.PUSH c`, a character code (R89) -/
  | b32Push (c : Byte)
  /-- `B32.END` (R90) -/
  | b32End
  /-- `B32.RDKEY i`, an index into `KB` (R91) -/
  | b32Rdkey (i : Byte)
  /-- `DT.START` (R96) -/
  | dtStart
  /-- `DT.PUSH b`, a digest byte (R97) -/
  | dtPush (b : Byte)
  /-- `DT.RUN d`, the digit count (R98) -/
  | dtRun (d : Byte)
  /-- `DT.RDCODE i`, an index into `CB` (R99) -/
  | dtRdcode (i : Byte)
  /-- `RDREG r`, a register number (R104) -/
  | rdreg (r : Byte)
  deriving DecidableEq, Repr

/-- The seven readable registers (R27). -/
inductive RegName where
  | cfg | b32Status | b32Klen | dtStatus | dtDlen | dtBincode | dtOtp
  deriving DecidableEq, Repr

/-- The mnemonics of R57, without operand. -/
inductive Mnemonic where
  | b32Start | b32Push | b32End | b32Rdkey | dtStart | dtPush | dtRun | dtRdcode | rdreg
  deriving DecidableEq, Repr

/-- An operand as written in assembler text (R62). -/
inductive AsmOperand where
  /-- a decimal or hexadecimal number -/
  | num (n : Nat)
  /-- a single character in single quotes -/
  | chr (c : Char)
  /-- a register name -/
  | reg (r : RegName)
  deriving DecidableEq, Repr

/-- One assembler line: a mnemonic and at most one operand (R62). -/
structure AsmLine where
  op : Mnemonic
  arg : Option AsmOperand
  deriving DecidableEq, Repr

end Sys2Proof
end

