-- ==== Sys2Proof/WellFormed.lean ====
section
/-! DEFINITION. The checks of the spec on what is written down: the ranges of the parameters (00_scope.md R9), the
legal operands of a command (30_encoding.md R54) and the assembly errors (R62). -/

namespace Sys2Proof

/-- R9: each parameter is 1 to 255. -/
def Cfg.wellFormed (c : Cfg) : Bool :=
  c.keyMax ≠ 0 && c.digestMax ≠ 0 && c.digitsMax ≠ 0

/-- R54: a command with an operand takes every value 0 to 255 and a command without one has nothing to check, so
the type of `Instr` (8-bit operands, no operand field on `START` and `END`) leaves no ill-formed term. -/
def Instr.wellFormed : Instr → Bool
  | .b32Start => true
  | .b32Push _ => true
  | .b32End => true
  | .b32Rdkey _ => true
  | .dtStart => true
  | .dtPush _ => true
  | .dtRun _ => true
  | .dtRdcode _ => true
  | .rdreg _ => true

/-- Whether the mnemonic takes an operand (R54, R57). -/
def Mnemonic.takesOperand : Mnemonic → Bool
  | .b32Start | .b32End | .dtStart => false
  | .b32Push | .b32Rdkey | .dtPush | .dtRun | .dtRdcode | .rdreg => true

/-- R62: an operand above 255, an operand on `B32.START`, `B32.END`, `DT.START`, a quoted character on another
command than `B32.PUSH`, or a register name on another command than `RDREG` is an assembly error; so is a missing
operand, which R57 requires. A character's value is its code (R14), which has 8 bits. R14 assigns codes to ASCII
characters only: that a quoted character up to U+00FF is accepted and one above it refused is the model's choice,
DESIGN CHOICE, log entry 13. -/
def AsmLine.wellFormed (l : AsmLine) : Bool :=
  match l.arg with
  | none => !l.op.takesOperand
  | some (.num n) => l.op.takesOperand && n ≤ 255
  | some (.chr c) => l.op = .b32Push && c.toNat ≤ 255
  | some (.reg _) => l.op = .rdreg

end Sys2Proof
end

