-- ==== Sys2Proof/Decode.lean ====
section
/-! DEFINITION. Decoding a command word, total on all 65536 words (30_encoding.md R53, R58, R61), and the encoder
(R57, R61). -/

namespace Sys2Proof

/-- Why a word spells no command: the three cases of R58. All three are answered alike (`ILLEGAL_CMD`). -/
inductive Illegal where
  /-- R58 case 2: `RSV ≠ 0`, whatever `OPC` is (tested first, R61 and R132) -/
  | reservedField
  /-- R58 case 1: `OPC` is 0x0 or 0xA to 0xF -/
  | reservedOpcode
  /-- R58 case 3: `ARG ≠ 0` on `B32.START`, `B32.END` or `DT.START` -/
  | operandNotZero
  deriving DecidableEq, Repr

/-- `OPC`, bits 15:12 (R53). -/
def opcField (w : CmdWord) : BitVec 4 := w.extractLsb' 12 4

/-- `RSV`, bits 11:8 (R53). -/
def rsvField (w : CmdWord) : BitVec 4 := w.extractLsb' 8 4

/-- `ARG`, bits 7:0 (R53, R54: used as it stands). -/
def argField (w : CmdWord) : Byte := w.extractLsb' 0 8

/-- A command without operand: `ARG` must be 0 (R54, R58 case 3). -/
def noOperand (arg : Byte) (i : Instr) : Except Illegal Instr :=
  if arg = 0 then .ok i else .error .operandNotZero

/-- The decoding procedure of R61. -/
def decode (w : CmdWord) : Except Illegal Instr :=
  if rsvField w ≠ 0 then .error .reservedField
  else
    match (opcField w).toNat with
    | 0x1 => noOperand (argField w) .b32Start
    | 0x2 => .ok (.b32Push (argField w))
    | 0x3 => noOperand (argField w) .b32End
    | 0x4 => .ok (.b32Rdkey (argField w))
    | 0x5 => noOperand (argField w) .dtStart
    | 0x6 => .ok (.dtPush (argField w))
    | 0x7 => .ok (.dtRun (argField w))
    | 0x8 => .ok (.dtRdcode (argField w))
    | 0x9 => .ok (.rdreg (argField w))
    | _ => .error .reservedOpcode

/-- `cmd = OPC << 12 | RSV << 8 | ARG` with `RSV = 0` (R53). -/
def packWord (opc : BitVec 4) (arg : Byte) : CmdWord := opc ++ (0 : BitVec 4) ++ arg

/-- The inverse of `decode` on the nine commands (R57, R61). -/
def encode : Instr → CmdWord
  | .b32Start => packWord 0x1 0
  | .b32Push c => packWord 0x2 c
  | .b32End => packWord 0x3 0
  | .b32Rdkey i => packWord 0x4 i
  | .dtStart => packWord 0x5 0
  | .dtPush b => packWord 0x6 b
  | .dtRun d => packWord 0x7 d
  | .dtRdcode i => packWord 0x8 i
  | .rdreg r => packWord 0x9 r

/-- The instruction the decoder reads from an instruction whose bits are `w`, numbered as spec/opcode_table.json
numbers them; the bits from `nbits` on are 0. There is no longer instruction than one word (R60), so a number that
does not fit 16 bits is none. Log entry 14. -/
def decodeTableWord (nbits w : Nat) : Option Instr :=
  if w % 2 ^ nbits < 2 ^ 16 then
    match decode (BitVec.ofNat 16 (w % 2 ^ nbits)) with
    | .ok i => some i
    | .error _ => none
  else none

end Sys2Proof
end

