-- ==== Sys2Proof/Machine/State.lean ====
section
/-! DEFINITION. The state of the block (10_state.md R15), the host's side of its ports (30_encoding.md R64), and the
reasons a step can stop. -/

namespace Sys2Proof.Machine

/-- A byte buffer as plain data: the bytes that are not 0, at strictly rising indices. An index that is not listed
reads as 0, the reset contents of every buffer (10_state.md R33). Log entry 10. -/
abbrev Memory := List Host.Cell

/-- The three address spaces (20_memory.md R38). -/
inductive Buffer where
  | kb | db | cb
  deriving DecidableEq, Repr

/-- `B32.ST` (R18). The 2-bit values are `B32Phase.code`. -/
inductive B32Phase where
  /-- 0, symbols are being accepted -/
  | data
  /-- 1, a pad has been seen, only pads may follow -/
  | pad
  /-- 2, the text has ended without error -/
  | done
  /-- 3, the decode failed -/
  | err
  deriving DecidableEq, Repr

/-- `DT.ST` (R23). The 2-bit values are `DtPhase.code`; the value 1 never occurs and has no constructor (log entry 8). -/
inductive DtPhase where
  /-- 0, digest bytes are being accepted -/
  | load
  /-- 2, the result registers and `CB` hold the result -/
  | done
  /-- 3, the computation failed -/
  | err
  deriving DecidableEq, Repr

/-- The rejections (60_exceptions.md R127): the response tells, no state changes (R126). -/
inductive Rejection where
  /-- 1, the word spells no command -/
  | illegalCmd
  /-- 2, the unit does not take the command in its present state -/
  | badState
  /-- 3, an index out of range -/
  | badIndex
  deriving DecidableEq, Repr

/-- The unit errors (R123). -/
inductive UnitErr where
  /-- 8, unit B32, by `B32.PUSH` -/
  | decodeError
  /-- 9, unit B32, by `B32.PUSH` -/
  | keyOverflow
  /-- 10, unit DT, by `DT.PUSH` -/
  | digestOverflow
  /-- 11, unit DT, by `DT.RUN` -/
  | invalidConfig
  /-- 12, unit DT, by `DT.RUN` -/
  | digestTooShort
  deriving DecidableEq, Repr

/-- The return code of a response, by its class (30_encoding.md R56, R122). The 4-bit values are `RetCode.code`. -/
inductive RetCode where
  | ok
  | rejection (r : Rejection)
  | unitError (e : UnitErr)
  deriving DecidableEq, Repr

/-- The response to a command word (R55): `rc[3:0]`, `rdata[31:0]`. -/
structure Response where
  rc : RetCode
  rdata : Word32
  deriving DecidableEq, Repr

/-- What the host can do to the block (R64): hand it a command word, or raise `rst` (R141). -/
inductive Input where
  | command (w : CmdWord)
  | reset
  deriving DecidableEq, Repr

/-- Unit B32 (R15, R18 to R22). -/
structure B32Unit where
  /-- `B32.ST` -/
  st : B32Phase
  /-- `B32.CAUSE` -/
  cause : BitVec 4
  /-- `B32.ACC`, the bits not yet written out, earliest bit most significant -/
  acc : BitVec 7
  /-- `B32.NB`, how many they are -/
  nb : BitVec 3
  /-- `B32.KLEN` -/
  klen : BitVec 8
  /-- `KB` -/
  kb : Memory
  deriving DecidableEq, Repr

/-- Unit DT (R15, R23 to R26). -/
structure DtUnit where
  /-- `DT.ST` -/
  st : DtPhase
  /-- `DT.CAUSE` -/
  cause : BitVec 4
  /-- `DT.DLEN` -/
  dlen : BitVec 8
  /-- `DB` -/
  db : Memory
  /-- `DT.DIGITS` -/
  digits : BitVec 8
  /-- `DT.OFFSET` -/
  offset : BitVec 4
  /-- `DT.BINCODE` -/
  bincode : Word32
  /-- `DT.OTP` -/
  otp : Word32
  /-- `CB` -/
  cb : Memory
  deriving DecidableEq, Repr

/-- The machine: the block's two units, and beside them what R15 says is not the block's own state but a step
needs: the parameters (log entry 1), what the host has still to send (R16, log entry 3) and the responses so far,
oldest first (R149, log entry 4). -/
structure State where
  cfg : Cfg
  b32 : B32Unit
  dt : DtUnit
  inputs : List Input
  responses : List Response
  deriving DecidableEq, Repr

/-- Why the machine stops with a fault. -/
inductive Fault where
  /-- An index outside buffer `b`. Raised by `B32.PUSH`, `B32.RDKEY`, `DT.PUSH`, `DT.RUN` and `DT.RDCODE`, only in states
  in which a length register exceeds its buffer, which no run reaches (20_memory.md R38). Safe. Log entry 7. -/
  | bufferRange (b : Buffer)
  deriving DecidableEq, Repr

/-- Why a step has no meaning. -/
inductive Refusal where
  /-- The instruction has no meaning yet. Raised by no arm of `exec`. Safe. -/
  | notModelled (mnemonic : String)
  /-- The host has handed nothing: the block has no step of its own (00_scope.md R8). Raised by `step`. Safe. Log entry 5. -/
  | noCommand
  deriving DecidableEq, Repr

/-- Unit B32 after reset (R33). -/
def B32Unit.reset : B32Unit :=
  { st := .data, cause := 0, acc := 0, nb := 0, klen := 0, kb := [] }

/-- Unit DT after reset (R33). -/
def DtUnit.reset : DtUnit :=
  { st := .load, cause := 0, dlen := 0, db := [], digits := 0, offset := 0, bincode := 0, otp := 0, cb := [] }

/-- The state after reset of a block built with the parameters `c` (R33): nothing handed, nothing answered. -/
def State.resetOf (c : Cfg) : State :=
  { cfg := c, b32 := B32Unit.reset, dt := DtUnit.reset, inputs := [], responses := [] }

/-- The state after reset of the reference block (log entry 1). -/
def State.reset : State := State.resetOf Cfg.reference

end Sys2Proof.Machine
end

