-- ==== Sys2Proof/Machine/Flags.lean ====
section
/-! DEFINITION. The status fields and the readable registers (10_state.md R18, R23, R27 to R31). The block has no
condition codes; the pair (`ST`, `CAUSE`) of each unit stands in for fault flags (R36). -/

namespace Sys2Proof.Machine

/-- The 2-bit value of `B32.ST` (R18). -/
def B32Phase.code : B32Phase → BitVec 2
  | .data => 0
  | .pad => 1
  | .done => 2
  | .err => 3

/-- The 2-bit value of `DT.ST` (R23). -/
def DtPhase.code : DtPhase → BitVec 2
  | .load => 0
  | .done => 2
  | .err => 3

/-- `zext_32(v)` (00_scope.md R12). -/
def zext32 {w : Nat} (v : BitVec w) : Word32 := v.setWidth 32

/-- `CFG` (R27). -/
def cfgRegister (c : Cfg) : Word32 :=
  zext32 c.keyMax ||| zext32 c.digestMax <<< 8 ||| zext32 c.digitsMax <<< 16

/-- `B32_STATUS` (R28). -/
def b32StatusRegister (u : B32Unit) : Word32 :=
  zext32 u.st.code ||| zext32 u.cause <<< 4 ||| zext32 u.nb <<< 8 ||| zext32 u.acc <<< 16

/-- `B32_KLEN` (R29). -/
def b32KlenRegister (u : B32Unit) : Word32 := zext32 u.klen

/-- `DT_STATUS` (R30). -/
def dtStatusRegister (u : DtUnit) : Word32 :=
  zext32 u.st.code ||| zext32 u.cause <<< 4 ||| zext32 u.offset <<< 8 ||| zext32 u.digits <<< 16

/-- `DT_DLEN` (R31). -/
def dtDlenRegister (u : DtUnit) : Word32 := zext32 u.dlen

end Sys2Proof.Machine
end

