-- ==== Sys2Proof/Machine/Operands.lean ====
section
/-! DEFINITION. What each operand `ARG` stands for (30_encoding.md R54): a character and its class, an index, a digest
byte, a digit count, a register number. -/

namespace Sys2Proof.Machine

/-- `Fold(c)`: only the codes 0x61 to 0x7A change (40_reference_functions.md R72). -/
def foldCase (c : Byte) : Byte :=
  if 0x61 ≤ c.toNat ∧ c.toNat ≤ 0x7A then c - 0x20 else c

/-- `Val(c)`: the index of a symbol in the alphabet `A–Z2–7` (R71). -/
def symbolValue (c : Byte) : Option SymVal :=
  if 0x41 ≤ c.toNat ∧ c.toNat ≤ 0x5A then some (BitVec.ofNat 5 (c.toNat - 0x41))
  else if 0x32 ≤ c.toNat ∧ c.toNat ≤ 0x37 then some (BitVec.ofNat 5 (c.toNat - 0x32 + 26))
  else none

/-- The pad character `=` (00_scope.md R14). -/
def padChar : Byte := 0x3D

/-- The three classes of a character (41_b32_commands.md R87). -/
inductive CharClass where
  | sym (v : SymVal)
  | pad
  | inv
  deriving DecidableEq, Repr

/-- `Class(c)` (R87). -/
def charClass (c : Byte) : CharClass :=
  match symbolValue (foldCase c) with
  | some v => .sym v
  | none => if c = padChar then .pad else .inv

/-- An index operand: an unsigned number as it stands (R54). -/
def indexOperand (i : Byte) : Nat := i.toNat

/-- The digit count operand of `DT.RUN`: an unsigned number as it stands (R54). -/
def digitCount (d : Byte) : Nat := d.toNat

/-- A register number: 0 to 6 are assigned (10_state.md R27). -/
def regOfNumber (r : Byte) : Option RegName :=
  match r.toNat with
  | 0 => some .cfg
  | 1 => some .b32Status
  | 2 => some .b32Klen
  | 3 => some .dtStatus
  | 4 => some .dtDlen
  | 5 => some .dtBincode
  | 6 => some .dtOtp
  | _ => none

/-- The number of a register name (30_encoding.md R62). -/
def regNumber : RegName → Byte
  | .cfg => 0
  | .b32Status => 1
  | .b32Klen => 2
  | .dtStatus => 3
  | .dtDlen => 4
  | .dtBincode => 5
  | .dtOtp => 6

end Sys2Proof.Machine
end

