-- ==== Sys2Proof/Machine/Ops.lean ====
section
/-! DEFINITION. The named operations over the buffers and the units (00_scope.md R12): reading and writing a byte,
clearing a unit, answering a command, and entering and leaving the error state of a unit. -/

namespace Sys2Proof.Machine

/-! ### Buffers (20_memory.md R38) -/

/-- The byte at index `a`; an index that is not listed reads as 0. -/
def Memory.readByte : Memory → Nat → Byte
  | [], _ => 0
  | (b, v) :: rest, a =>
    if a < b then 0 else if a = b then v else Memory.readByte rest a

/-- Replaces the byte at index `a` and no other, keeping the canonical form: writing 0 removes the entry. -/
def Memory.writeByte : Memory → Nat → Byte → Memory
  | [], a, v => if v = 0 then [] else [(a, v)]
  | (b, w) :: rest, a, v =>
    if a < b then (if v = 0 then (b, w) :: rest else (a, v) :: (b, w) :: rest)
    else if a = b then (if v = 0 then rest else (a, v) :: rest)
    else (b, w) :: Memory.writeByte rest a v

/-- The canonical form: indices strictly rising, no entry equal to what an unlisted index reads as. -/
def Memory.wf : Memory → Bool
  | [] => true
  | (a, v) :: rest => v ≠ 0 && rest.all (fun c => a < c.1) && Memory.wf rest

/-- Every listed index is below `size`. -/
def Memory.within (size : Nat) (m : Memory) : Bool := m.all (fun c => c.1 < size)

/-- The contents of a buffer after `Fill(S, v)` (R12), whatever they were before. -/
def Memory.filled (size : Nat) (v : Byte) : Memory :=
  if v = 0 then [] else (List.range size).map (fun i => (i, v))

/-- `size(S)` (R38). -/
def Buffer.size (c : Cfg) : Buffer → Nat
  | .kb => c.keyMax.toNat
  | .db => c.digestMax.toNat
  | .cb => c.digitsMax.toNat

/-- `MemRead(S, i)` for a buffer of `size` bytes: an index out of range reads nothing. -/
def memRead (size : Nat) (m : Memory) (i : Nat) : Option Byte :=
  if i < size then some (m.readByte i) else none

/-- `MemWrite(S, i, v)` for a buffer of `size` bytes: an index out of range writes nothing. -/
def memWrite (size : Nat) (m : Memory) (i : Nat) (v : Byte) : Option Memory :=
  if i < size then some (m.writeByte i v) else none

/-! ### Clearing a unit (10_state.md R32) -/

/-- `B32Clear(st, cause)`. -/
def B32Unit.clear (c : Cfg) (st : B32Phase) (cause : BitVec 4) : B32Unit :=
  { st := st, cause := cause, acc := 0, nb := 0, klen := 0, kb := Memory.filled (Buffer.size c .kb) 0 }

/-- `DTClear(st, cause)`. -/
def DtUnit.clear (c : Cfg) (st : DtPhase) (cause : BitVec 4) : DtUnit :=
  { st := st, cause := cause, dlen := 0, digits := 0, offset := 0, bincode := 0, otp := 0,
    db := Memory.filled (Buffer.size c .db) 0, cb := Memory.filled (Buffer.size c .cb) 0 }

/-! ### Codes (30_encoding.md R56) -/

/-- The number of a rejection. -/
def Rejection.code : Rejection → BitVec 4
  | .illegalCmd => 1
  | .badState => 2
  | .badIndex => 3

/-- The number of a unit error: its return code and its cause code. -/
def UnitErr.code : UnitErr → BitVec 4
  | .decodeError => 8
  | .keyOverflow => 9
  | .digestOverflow => 10
  | .invalidConfig => 11
  | .digestTooShort => 12

/-- The 4-bit return code `rc[3:0]`. -/
def RetCode.code : RetCode → BitVec 4
  | .ok => 0
  | .rejection r => r.code
  | .unitError e => e.code

/-- The two units (10_state.md R15). -/
inductive UnitId where
  | b32 | dt
  deriving DecidableEq, Repr

/-- The unit a unit error belongs to (R56, 60_exceptions.md R123). -/
def UnitErr.unit : UnitErr → UnitId
  | .decodeError => .b32
  | .keyOverflow => .b32
  | .digestOverflow => .dt
  | .invalidConfig => .dt
  | .digestTooShort => .dt

/-! ### Answering a command (R55, 60_exceptions.md R122) -/

/-- `respond(rc, data)`. -/
def State.respond (rc : RetCode) (data : Word32) (s : State) : State :=
  { s with responses := s.responses ++ [{ rc := rc, rdata := data }] }

/-- `reject(rc)`: the response and nothing else (R126). -/
def State.reject (r : Rejection) (s : State) : State := s.respond (.rejection r) 0

/-- `raise UnitError(U, cause)`: the one entry into an error state (R128). What is saved is the cause code; the unit
named by the code is cleared and set to `ERR`; the other unit is unchanged; there is no handler. -/
def State.raiseUnitError (e : UnitErr) (s : State) : State :=
  match e.unit with
  | .b32 => { s with b32 := B32Unit.clear s.cfg .err e.code }.respond (.unitError e) 0
  | .dt => { s with dt := DtUnit.clear s.cfg .err e.code }.respond (.unitError e) 0

/-- What `B32.START` makes of the unit, the return from a unit error of B32 (R88, R130). -/
def B32Unit.start (c : Cfg) : B32Unit := B32Unit.clear c .data 0

/-- What `DT.START` makes of the unit, the return from a unit error of DT (R96, R130). -/
def DtUnit.start (c : Cfg) : DtUnit := DtUnit.clear c .load 0

/-- The reset event (70_reset_and_hazards.md R141): it needs no response. -/
def State.resetEvent (s : State) : State :=
  { s with b32 := B32Unit.clear s.cfg .data 0, dt := DtUnit.clear s.cfg .load 0 }

/-- How a command of one unit ends (R122). `success` carries the unit after the command and the read data;
`badAccess` is the model's own stop on an index outside a buffer (log entry 7). -/
inductive CmdResult (U : Type) where
  | success (u : U) (data : Word32)
  | rejected (r : Rejection)
  | unitError (e : UnitErr)
  | badAccess (b : Buffer)
  deriving DecidableEq, Repr

/-- Ends a command of unit B32. -/
def State.finishB32 (s : State) : CmdResult B32Unit → Host.Outcome State Fault Refusal
  | .success u data => .next ({ s with b32 := u }.respond .ok data)
  | .rejected r => .next (s.reject r)
  | .unitError e => .next (s.raiseUnitError e)
  | .badAccess b => .fault (.bufferRange b)

/-- Ends a command of unit DT. -/
def State.finishDt (s : State) : CmdResult DtUnit → Host.Outcome State Fault Refusal
  | .success u data => .next ({ s with dt := u }.respond .ok data)
  | .rejected r => .next (s.reject r)
  | .unitError e => .next (s.raiseUnitError e)
  | .badAccess b => .fault (.bufferRange b)

/-- Ends a register read, which belongs to neither unit (43_system_commands.md R104). -/
def State.finishRead (s : State) : Except Rejection Word32 → Host.Outcome State Fault Refusal
  | .ok data => .next (s.respond .ok data)
  | .error r => .next (s.reject r)

/-! ### The host's side of the port (10_state.md R16) -/

/-- The state once the input at the head of the host's list is taken. -/
def State.takeInput (s : State) : State := { s with inputs := s.inputs.tail }

/-- The host hands the block an input now, before what is still to be sent. -/
def State.hand (x : Input) (s : State) : State := { s with inputs := x :: s.inputs }

end Sys2Proof.Machine
end

