-- ==== Sys2Proof/Machine/B32.lean ====
section
/-! DEFINITION. Unit B32: `B32.START`, `B32.PUSH`, `B32.END`, `B32.RDKEY` (41_b32_commands.md). Each command is a function
of the parameters and the unit alone (20_memory.md R49), and its meaning applies that function to the unit of State. -/

namespace Sys2Proof.Machine

/-- R89, case (`DATA`, `Sym(v)`): five more bits on the `NB` held ones; a byte is complete from eight on. -/
def pushSymbol (c : Cfg) (u : B32Unit) (v : SymVal) : CmdResult B32Unit :=
  let t := u.acc.toNat * 32 + v.toNat
  let n := u.nb.toNat + 5
  if n < 8 then
    .success { u with acc := BitVec.ofNat 7 t, nb := BitVec.ofNat 3 n } 0
  else if u.klen = c.keyMax then .unitError .keyOverflow
  else
    match memWrite (Buffer.size c .kb) u.kb u.klen.toNat (BitVec.ofNat 8 (t >>> (n - 8))) with
    | none => .badAccess .kb
    | some kb =>
      .success
        { u with
          kb := kb
          klen := u.klen + 1
          acc := BitVec.ofNat 7 (t % 2 ^ (n - 8))
          nb := BitVec.ofNat 3 (n - 8) } 0

/-- `B32.START` on the unit (R88). -/
def b32Start (c : Cfg) (_u : B32Unit) : CmdResult B32Unit := .success (B32Unit.start c) 0

/-- `B32.PUSH` on the unit (R89). -/
def b32Push (c : Cfg) (u : B32Unit) (ch : Byte) : CmdResult B32Unit :=
  match u.st, charClass ch with
  | .done, _ => .rejected .badState
  | .err, _ => .rejected .badState
  | .data, .sym v => pushSymbol c u v
  | .data, .pad => .success { u with st := .pad } 0
  | .data, .inv => .unitError .decodeError
  | .pad, .pad => .success u 0
  | .pad, .sym _ => .unitError .decodeError
  | .pad, .inv => .unitError .decodeError

/-- The ending of a text from `DATA` or `PAD` (R90): the trailing incomplete group is dropped. -/
def endText (u : B32Unit) : CmdResult B32Unit :=
  .success { u with st := .done, acc := 0, nb := 0 } (zext32 u.klen)

/-- `B32.END` on the unit (R90). -/
def b32End (u : B32Unit) : CmdResult B32Unit :=
  match u.st with
  | .done => .rejected .badState
  | .err => .rejected .badState
  | .data => endText u
  | .pad => endText u

/-- `B32.RDKEY` on the unit (R91). -/
def b32Rdkey (c : Cfg) (u : B32Unit) (i : Byte) : CmdResult B32Unit :=
  if u.st ≠ .done then .rejected .badState
  else if u.klen.toNat ≤ indexOperand i then .rejected .badIndex
  else
    match memRead (Buffer.size c .kb) u.kb (indexOperand i) with
    | none => .badAccess .kb
    | some b => .success u (zext32 b)

/-- `B32.START` (R88). -/
def execB32Start (s : State) : Host.Outcome State Fault Refusal :=
  s.finishB32 (b32Start s.cfg s.b32)

/-- `B32.PUSH c` (R89). -/
def execB32Push (ch : Byte) (s : State) : Host.Outcome State Fault Refusal :=
  s.finishB32 (b32Push s.cfg s.b32 ch)

/-- `B32.END` (R90). -/
def execB32End (s : State) : Host.Outcome State Fault Refusal :=
  s.finishB32 (b32End s.b32)

/-- `B32.RDKEY i` (R91). -/
def execB32Rdkey (i : Byte) (s : State) : Host.Outcome State Fault Refusal :=
  s.finishB32 (b32Rdkey s.cfg s.b32 i)

end Sys2Proof.Machine
end

