-- ==== Sys2Proof/Machine/Dt.lean ====
section
/-! DEFINITION. Unit DT: `DT.START`, `DT.PUSH`, `DT.RUN`, `DT.RDCODE` (42_dt_commands.md). Each command is a function of
the parameters and the unit alone (20_memory.md R49), and its meaning applies that function to the unit of State. -/

namespace Sys2Proof.Machine

/-- `DT.START` on the unit (R96). -/
def dtStart (c : Cfg) (_u : DtUnit) : CmdResult DtUnit := .success (DtUnit.start c) 0

/-- `DT.PUSH` on the unit (R97). -/
def dtPush (c : Cfg) (u : DtUnit) (b : Byte) : CmdResult DtUnit :=
  if u.st ≠ .load then .rejected .badState
  else if u.dlen = c.digestMax then .unitError .digestOverflow
  else
    match memWrite (Buffer.size c .db) u.db u.dlen.toNat b with
    | none => .badAccess .db
    | some db => .success { u with db := db, dlen := u.dlen + 1 } 0

/-- The 31-bit binary code from its four bytes, the first one masked with `0x7F` (40_reference_functions.md R79). -/
def assembleCode (b0 b1 b2 b3 : Byte) : Nat :=
  (b0.toNat &&& 0x7F) <<< 24 ||| b1.toNat <<< 16 ||| b2.toNat <<< 8 ||| b3.toNat

/-- The four bytes at offset `o` of the digest buffer, as the binary code (R98: the third byte is `DB[o+2]`). -/
def readBinCode (size : Nat) (db : Memory) (o : Nat) : Option Nat := do
  let b0 ← memRead size db o
  let b1 ← memRead size db (o + 1)
  let b2 ← memRead size db (o + 2)
  let b3 ← memRead size db (o + 3)
  pure (assembleCode b0 b1 b2 b3)

/-- The offset: the low nibble of the last byte (R79). -/
def offsetOf (last : Byte) : Nat := last.toNat &&& 0x0F

/-- The reduction modulo the exact power of ten (R80, R83). -/
def otpReduce (b d : Nat) : Nat := b % 10 ^ d

/-- Character `i` of the rendering of `v` in `d` digits, most significant first (R81). -/
def digitChar (v d i : Nat) : Byte := BitVec.ofNat 8 (0x30 + v / 10 ^ (d - 1 - i) % 10)

/-- What `DT.RUN` writes at index `i` of `CB` (R98). -/
def codeByte (v d i : Nat) : Byte := if i < d then digitChar v d i else 0

/-- The writing of the whole of `CB`, indices 0 to `size - 1` in order (R98). -/
def renderCode (size : Nat) (cb : Memory) (v d : Nat) : Memory :=
  (List.range size).foldl (fun m i => m.writeByte i (codeByte v d i)) cb

/-- The result registers and `CB` of a successful run (R98). -/
def finishRun (c : Cfg) (u : DtUnit) (d : Byte) (o b : Nat) : DtUnit :=
  { u with
    cb := renderCode (Buffer.size c .cb) u.cb (otpReduce b (digitCount d)) (digitCount d)
    digits := d
    offset := BitVec.ofNat 4 o
    bincode := BitVec.ofNat 32 b
    otp := BitVec.ofNat 32 (otpReduce b (digitCount d))
    st := .done }

/-- `DT.RUN` on the unit (R98), its checks in the order of R132. -/
def dtRun (c : Cfg) (u : DtUnit) (d : Byte) : CmdResult DtUnit :=
  if u.st ≠ .load then .rejected .badState
  else if digitCount d = 0 ∨ Buffer.size c .cb < digitCount d then .unitError .invalidConfig
  else if u.dlen = 0 then .unitError .digestTooShort
  else
    match memRead (Buffer.size c .db) u.db (u.dlen.toNat - 1) with
    | none => .badAccess .db
    | some last =>
      if u.dlen.toNat < offsetOf last + 4 then .unitError .digestTooShort
      else
        match readBinCode (Buffer.size c .db) u.db (offsetOf last) with
        | none => .badAccess .db
        | some b =>
          .success (finishRun c u d (offsetOf last) b) (BitVec.ofNat 32 (otpReduce b (digitCount d)))

/-- `DT.RDCODE` on the unit (R99). -/
def dtRdcode (c : Cfg) (u : DtUnit) (i : Byte) : CmdResult DtUnit :=
  if u.st ≠ .done then .rejected .badState
  else if u.digits.toNat ≤ indexOperand i then .rejected .badIndex
  else
    match memRead (Buffer.size c .cb) u.cb (indexOperand i) with
    | none => .badAccess .cb
    | some b => .success u (zext32 b)

/-- `DT.START` (R96). -/
def execDtStart (s : State) : Host.Outcome State Fault Refusal :=
  s.finishDt (dtStart s.cfg s.dt)

/-- `DT.PUSH b` (R97). -/
def execDtPush (b : Byte) (s : State) : Host.Outcome State Fault Refusal :=
  s.finishDt (dtPush s.cfg s.dt b)

/-- `DT.RUN d` (R98). -/
def execDtRun (d : Byte) (s : State) : Host.Outcome State Fault Refusal :=
  s.finishDt (dtRun s.cfg s.dt d)

/-- `DT.RDCODE i` (R99). -/
def execDtRdcode (i : Byte) (s : State) : Host.Outcome State Fault Refusal :=
  s.finishDt (dtRdcode s.cfg s.dt i)

end Sys2Proof.Machine
end

