-- ==== Sys2Proof/Machine/System.lean ====
section
/-! DEFINITION. `RDREG` and the answer to an illegal word (43_system_commands.md). -/

namespace Sys2Proof.Machine

/-- A result register holds a result, so it is readable only when the run is done (10_state.md R31). -/
def resultRegister (u : DtUnit) (v : Word32) : Except Rejection Word32 :=
  if u.st = .done then .ok v else .error .badState

/-- The contents of a readable register (R104). -/
def readRegister (s : State) : RegName → Except Rejection Word32
  | .cfg => .ok (cfgRegister s.cfg)
  | .b32Status => .ok (b32StatusRegister s.b32)
  | .b32Klen => .ok (b32KlenRegister s.b32)
  | .dtStatus => .ok (dtStatusRegister s.dt)
  | .dtDlen => .ok (dtDlenRegister s.dt)
  | .dtBincode => resultRegister s.dt s.dt.bincode
  | .dtOtp => resultRegister s.dt s.dt.otp

/-- `RDREG r` (R104): an unassigned number is `BAD_INDEX`. -/
def execRdreg (r : Byte) (s : State) : Host.Outcome State Fault Refusal :=
  match regOfNumber r with
  | some name => s.finishRead (readRegister s name)
  | none => s.finishRead (.error .badIndex)

/-- The answer to a word that spells no command (R105): `reject(ILLEGAL_CMD)`. -/
def answerIllegal (s : State) : Host.Outcome State Fault Refusal := .next (s.reject .illegalCmd)

end Sys2Proof.Machine
end

