-- ==== Sys2Proof/Machine/Dispatch.lean ====
section
/-! DEFINITION. One arm per command (30_encoding.md R57). -/

namespace Sys2Proof.Machine

def exec (i : Instr) (s : State) : Host.Outcome State Fault Refusal :=
  match i with
  | .b32Start => Sys2Proof.Machine.execB32Start s
  | .b32Push c => Sys2Proof.Machine.execB32Push c s
  | .b32End => Sys2Proof.Machine.execB32End s
  | .b32Rdkey j => Sys2Proof.Machine.execB32Rdkey j s
  | .dtStart => Sys2Proof.Machine.execDtStart s
  | .dtPush b => Sys2Proof.Machine.execDtPush b s
  | .dtRun d => Sys2Proof.Machine.execDtRun d s
  | .dtRdcode j => Sys2Proof.Machine.execDtRdcode j s
  | .rdreg r => Sys2Proof.Machine.execRdreg r s

end Sys2Proof.Machine
end

