-- ==== Sys2Proof/Machine/Step.lean ====
section
/-! DEFINITION. One step: the next input of the host is taken and carried out (00_scope.md R7, R8; 10_state.md R16). -/

namespace Sys2Proof.Machine

/-- A command word is decoded and executed, or answered `ILLEGAL_CMD` where it spells none (R61, R105). -/
def runWord (w : CmdWord) (s : State) : Host.Outcome State Fault Refusal :=
  match decode w with
  | .ok i => exec i s
  | .error _ => answerIllegal s

/-- One step. With nothing handed there is none (R8, log entry 5). -/
def step (s : State) : Host.Outcome State Fault Refusal :=
  match s.inputs with
  | [] => .refused .noCommand
  | .command w :: _ => runWord w s.takeInput
  | .reset :: _ => .next s.takeInput.resetEvent

/-- `s` with the instruction whose bits are `w` handed to the block as its next command word (log entry 5). -/
def State.withFetchWord (s : State) (nbits w : Nat) : State :=
  s.hand (.command (BitVec.ofNat 16 (w % 2 ^ nbits)))

end Sys2Proof.Machine
end

