-- ==== Sys2Proof/Machine/Reference.lean ====
section
/-! DEFINITION. The source's pure functions, the normative meaning of the block (40_reference_functions.md). They work on
whole texts and digests and use no state. -/

namespace Sys2Proof.Machine

/-! ### Base32 decoding (R71 to R78) -/

/-- `Strip(t)`: the longest initial part whose last character is not `=` (R73). -/
def stripPads (t : List Byte) : List Byte := (t.reverse.dropWhile (fun c => c = padChar)).reverse

/-- `Val(Fold(c))` (R71, R72). -/
def symbolOf (c : Byte) : Option SymVal := symbolValue (foldCase c)

/-- `Valid(t)` (R74). -/
def validText (t : List Byte) : Bool := (stripPads t).all (fun c => (symbolOf c).isSome)

/-- The values of the symbols of a text, in order; of a valid text, one for each character of `Strip(t)`. -/
def symbolsOf (t : List Byte) : List SymVal := (stripPads t).filterMap symbolOf

/-- The five bits of a group, bit 4 first (R75, 20_memory.md R42). -/
def groupBits (v : SymVal) : List Bool :=
  [v.getLsbD 4, v.getLsbD 3, v.getLsbD 2, v.getLsbD 1, v.getLsbD 0]

/-- The bit stream of a list of symbols, in input order (R75). -/
def bitsOf (vs : List SymVal) : List Bool := vs.flatMap groupBits

/-- Byte `i` of a bit stream: its first bit is bit 7 (R75). -/
def byteOfBits (bits : List Bool) (i : Nat) : Byte :=
  BitVec.ofNat 8 (((List.range 8).map (fun k => (bits.getD (8 * i + k) false).toNat * 2 ^ (7 - k))).sum)

/-- The output length `floor(5n / 8)` (R76). -/
def decodedLength (t : List Byte) : Nat := 5 * (stripPads t).length / 8

/-- `B32Decode(t)` (R75); `none` is `DecodeError`. -/
def b32Decode (t : List Byte) : Option (List Byte) :=
  if validText t then
    some ((List.range (decodedLength t)).map (byteOfBits (bitsOf (symbolsOf t))))
  else none

/-! ### Dynamic truncation, reduction, rendering (R79 to R82) -/

/-- `Offset(d)` (R79), for a digest of at least one byte. -/
def digestOffset (d : List Byte) : Nat := offsetOf (d.getD (d.length - 1) 0)

/-- `DynTrunc(d)` (R79), for a digest in which the four bytes at the offset exist. -/
def dynTrunc (d : List Byte) : Nat :=
  assembleCode (d.getD (digestOffset d) 0) (d.getD (digestOffset d + 1) 0)
    (d.getD (digestOffset d + 2) 0) (d.getD (digestOffset d + 3) 0)

/-- `FormatDigits(otp, digits)` (R81). -/
def formatDigits (otp digits : Nat) : List Byte := (List.range digits).map (digitChar otp digits)

/-- What a truncation yields: offset, binary code, value, characters (R82). -/
structure OtpResult where
  offset : Nat
  binCode : Nat
  otp : Nat
  text : List Byte
  deriving DecidableEq, Repr

/-- `OtpCode(d, digits)` (R82); `none` where its requirements fail. -/
def otpCode (d : List Byte) (digits : Nat) : Option OtpResult :=
  if 1 ≤ digits ∧ 1 ≤ d.length ∧ digestOffset d + 4 ≤ d.length then
    some
      { offset := digestOffset d
        binCode := dynTrunc d
        otp := otpReduce (dynTrunc d) digits
        text := formatDigits (otpReduce (dynTrunc d) digits) digits }
  else none

end Sys2Proof.Machine
end

