-- ==== Sys2Proof/Machine/Assembler.lean ====
section
/-! DEFINITION. The assembler's text form and pseudo-commands (30_encoding.md R62, R63), which the spec uses to write its
programs down. -/

namespace Sys2Proof.Machine

/-! ### One line of a core command (R62) -/

/-- The value of a written operand (R62). A quoted character from U+0080 to U+00FF, to which R14 assigns no code, has its
Unicode number: DESIGN CHOICE, log entry 13. -/
def operandValue : AsmOperand → Nat
  | .num n => n
  | .chr c => c.toNat
  | .reg r => (regNumber r).toNat

/-- The command of a mnemonic and its operand value. -/
def instrOf (m : Mnemonic) (v : Byte) : Instr :=
  match m with
  | .b32Start => .b32Start
  | .b32Push => .b32Push v
  | .b32End => .b32End
  | .b32Rdkey => .b32Rdkey v
  | .dtStart => .dtStart
  | .dtPush => .dtPush v
  | .dtRun => .dtRun v
  | .dtRdcode => .dtRdcode v
  | .rdreg => .rdreg v

/-- The command a line spells; `none` is an assembly error (R62). -/
def assemble (l : AsmLine) : Option Instr :=
  if l.wellFormed then
    some (instrOf l.op (BitVec.ofNat 8 (match l.arg with | none => 0 | some a => operandValue a)))
  else none

/-! ### Pseudo-commands (R63) -/

/-- `b32.text "s"`. -/
def b32Text (t : List Byte) : List Instr := t.map Instr.b32Push

/-- `b32.decode "s"`. -/
def b32DecodeCmds (t : List Byte) : List Instr := .b32Start :: (b32Text t ++ [.b32End])

/-- `b32.readkey n`. -/
def b32Readkey (n : Nat) : List Instr := (List.range n).map (fun i => .b32Rdkey (BitVec.ofNat 8 i))

/-- `dt.digest h`. -/
def dtDigest (d : List Byte) : List Instr := d.map Instr.dtPush

/-- `dt.trunc h, d`. -/
def dtTrunc (h : List Byte) (d : Byte) : List Instr := .dtStart :: (dtDigest h ++ [.dtRun d])

/-- `dt.readcode n`. -/
def dtReadcode (n : Nat) : List Instr := (List.range n).map (fun i => .dtRdcode (BitVec.ofNat 8 i))

/-! ### Reading text (R62, R63; the details R62 leaves open are log entry 13) -/

/-- The single quote. -/
def quoteMark : Char := Char.ofNat 39

/-- The double quote. -/
def stringMark : Char := Char.ofNat 34

/-- Where a scan of a line stands: outside quotes, inside a string, before and after a quoted character. -/
inductive ScanMode where
  | code | str | chr | close
  deriving DecidableEq, Repr

/-- The line without its comment: `;` starts one, outside quotes. -/
def stripComment : ScanMode → List Char → List Char
  | _, [] => []
  | .code, c :: rest =>
    if c = ';' then []
    else c :: stripComment (if c = stringMark then .str else if c = quoteMark then .chr else .code) rest
  | .str, c :: rest => c :: stripComment (if c = stringMark then .code else .str) rest
  | .chr, c :: rest => c :: stripComment .close rest
  | .close, c :: rest => c :: stripComment .code rest

/-- A blank between the parts of a line. -/
def isBlank (c : Char) : Bool := c = ' ' || c.toNat = 9

/-- The text without blanks at either end. -/
def trimBlanks (l : List Char) : List Char := ((l.dropWhile isBlank).reverse.dropWhile isBlank).reverse

/-- The value of a hexadecimal digit. -/
def hexDigit (c : Char) : Option Nat :=
  if 0x30 ≤ c.toNat ∧ c.toNat ≤ 0x39 then some (c.toNat - 0x30)
  else if 0x61 ≤ c.toNat ∧ c.toNat ≤ 0x66 then some (c.toNat - 0x61 + 10)
  else if 0x41 ≤ c.toNat ∧ c.toNat ≤ 0x46 then some (c.toNat - 0x41 + 10)
  else none

/-- A number in the base `b` from its digits; `none` where there is no digit or a wrong one. -/
def readDigits (b : Nat) (l : List Char) : Option Nat :=
  if l.isEmpty then none
  else
    l.foldl
      (fun acc c =>
        match acc, hexDigit c with
        | some n, some d => if d < b then some (n * b + d) else none
        | _, _ => none)
      (some 0)

/-- A decimal number, or a hexadecimal one behind `0x`. -/
def readNumber : List Char → Option Nat
  | '0' :: 'x' :: ds => readDigits 16 ds
  | ds => readDigits 10 ds

/-- The register names (10_state.md R27). -/
def readRegName (l : List Char) : Option RegName :=
  if l = "CFG".toList then some .cfg
  else if l = "B32_STATUS".toList then some .b32Status
  else if l = "B32_KLEN".toList then some .b32Klen
  else if l = "DT_STATUS".toList then some .dtStatus
  else if l = "DT_DLEN".toList then some .dtDlen
  else if l = "DT_BINCODE".toList then some .dtBincode
  else if l = "DT_OTP".toList then some .dtOtp
  else none

/-- An operand: a number, a quoted character or a register name. -/
def readOperand (l : List Char) : Option AsmOperand :=
  match l with
  | [a, c, b] =>
    if a = quoteMark ∧ b = quoteMark then some (.chr c)
    else
      match readNumber l with
      | some n => some (.num n)
      | none => (readRegName l).map .reg
  | _ =>
    match readNumber l with
    | some n => some (.num n)
    | none => (readRegName l).map .reg

/-- The word is the name, in lower or in upper case. -/
def isWord (w : List Char) (name : String) : Bool :=
  w = name.toList || w = name.toList.map Char.toUpper

/-- The mnemonics of R57. -/
def readMnemonic (w : List Char) : Option Mnemonic :=
  if isWord w "b32.start" then some .b32Start
  else if isWord w "b32.push" then some .b32Push
  else if isWord w "b32.end" then some .b32End
  else if isWord w "b32.rdkey" then some .b32Rdkey
  else if isWord w "dt.start" then some .dtStart
  else if isWord w "dt.push" then some .dtPush
  else if isWord w "dt.run" then some .dtRun
  else if isWord w "dt.rdcode" then some .dtRdcode
  else if isWord w "rdreg" then some .rdreg
  else none

/-- The codes of the characters between double quotes (00_scope.md R14: 8 bits each). R63 does not say whether the string
can hold a double quote, and R14 assigns codes to ASCII characters only: that a double quote inside is an assembly
error, that a character from U+0080 to U+00FF has its Unicode number and that one above is an assembly error is the
model's choice, DESIGN CHOICE, log entry 13. -/
def readString (l : List Char) : Option (List Byte) :=
  match l, l.getLast? with
  | a :: b :: body, some z =>
    if a = stringMark ∧ z = stringMark ∧
        ((b :: body).dropLast.all (fun c => c ≠ stringMark && c.toNat ≤ 255)) then
      some ((b :: body).dropLast.map (fun c => BitVec.ofNat 8 c.toNat))
    else none
  | _, _ => none

/-- Bytes written as pairs of hexadecimal digits, first byte first. -/
def readHexBytes : List Char → Option (List Byte)
  | [] => some []
  | [_] => none
  | a :: b :: rest =>
    match hexDigit a, hexDigit b, readHexBytes rest with
    | some x, some y, some bs => some (BitVec.ofNat 8 (x * 16 + y) :: bs)
    | _, _, _ => none

/-- A count of reads: indices 0 to 255 exist, so at most 256. -/
def readCount (l : List Char) : Option Nat :=
  match readNumber l with
  | some n => if n ≤ 256 then some n else none
  | none => none

/-- The operands of `dt.trunc`: hexadecimal digits, a comma, a digit count (R63). R63 does not say whether blanks may or
must stand around the comma: that any number of them, or none, may stand on either side is the model's choice, DESIGN
CHOICE, log entry 13. -/
def readTrunc (l : List Char) : Option (List Instr) :=
  match readHexBytes (trimBlanks (l.takeWhile (fun c => c ≠ ','))),
      readNumber (trimBlanks ((l.dropWhile (fun c => c ≠ ',')).drop 1)) with
  | some h, some d => if d ≤ 255 then some (dtTrunc h (BitVec.ofNat 8 d)) else none
  | _, _ => none

/-- The commands of a line `w args` (R62, R63). -/
def readCommand (w args : List Char) : Option (List Instr) :=
  match readMnemonic w with
  | some m =>
    if args.isEmpty then (assemble { op := m, arg := none }).map (fun i => [i])
    else
      match readOperand args with
      | some a => (assemble { op := m, arg := some a }).map (fun i => [i])
      | none => none
  | none =>
    if isWord w "b32.text" then (readString args).map b32Text
    else if isWord w "b32.decode" then (readString args).map b32DecodeCmds
    else if isWord w "b32.readkey" then (readCount args).map b32Readkey
    else if isWord w "dt.digest" then (readHexBytes args).map dtDigest
    else if isWord w "dt.trunc" then readTrunc args
    else if isWord w "dt.readcode" then (readCount args).map dtReadcode
    else none

/-- The commands of one line of text; an empty line has none, and `none` is an assembly error. -/
def assembleText (l : List Char) : Option (List Instr) :=
  let body := trimBlanks (stripComment .code l)
  if body.isEmpty then some []
  else readCommand (body.takeWhile (fun c => !isBlank c)) (trimBlanks (body.dropWhile (fun c => !isBlank c)))

/-- The command words of a program, one line after another. -/
def assembleProgram : List String → Option (List CmdWord)
  | [] => some []
  | l :: ls =>
    match assembleText l.toList, assembleProgram ls with
    | some is, some ws => some (is.map encode ++ ws)
    | _, _ => none

end Sys2Proof.Machine
end

