-- ==== Sys2Proof/Machine/Totp.lean ====
section
/-! DEFINITION. The host's side of the pipeline (44_host_composition.md): counter, counter encoding, the HMAC as an argument,
the refusals, and `generateTotp` as the command sequence of R116 sent to the block. Nothing here is hardware of the
block. Log entry 12. -/

namespace Sys2Proof.Machine

/-- R112: a function of algorithm, key and message of which nothing is assumed; `none` is `UnsupportedAlgorithm` (R113). -/
abbrev Hmac := String → List Byte → List Byte → Option (List Byte)

/-- The options of R109 with their defaults; no timestamp stands for the current time (R119). -/
structure TotpOptions where
  algorithm : String := "sha1"
  digits : Int := 6
  period : Int := 30
  timestamp : Option Int := none
  deriving DecidableEq, Repr

/-- Why a computation produces no code (R114 to R116, R121). -/
inductive TotpFailure where
  /-- the block answered a command with another code than `OK`: `DECODE_ERROR` is the source's `DecodeError`,
  `INVALID_CONFIG` its `InvalidConfiguration`, the others are hardware limits (60_exceptions.md R124) -/
  | block (rc : RetCode)
  /-- the hash library does not know the algorithm (R113) -/
  | unsupportedAlgorithm
  /-- the host refuses a non-positive period or a negative digit count (R114) -/
  | invalidConfiguration
  /-- the host refuses a negative timestamp, a counter of 2^64 or more, or too many digits (R115). R115 names no error
  kind for these: that they have one reason of their own, other than `invalidConfiguration`, is the model's choice,
  DESIGN CHOICE, log entry 12 -/
  | outOfRange
  /-- the model stopped, which happens from no state a run reaches (log entry 7) -/
  | stopped
  deriving DecidableEq, Repr

/-- `Counter(timestamp_ms, period)` (R110). -/
def totpCounter (timestampMs period : Nat) : Nat := timestampMs / (1000 * period)

/-- `EncodeCounter(c)`: eight bytes, most significant first (R111). -/
def encodeCounter (c : Nat) : List Byte :=
  (List.range 8).map (fun i => BitVec.ofNat 8 (c >>> (8 * (7 - i)) &&& 0xFF))

/-- The moment to evaluate: the option, or the current time `now` (R109, R119). -/
def totpMoment (now : Int) (o : TotpOptions) : Int := o.timestamp.getD now

/-- Step 1 of R116: what the host refuses before any command (R114, R115). A digit count of 0 goes to the block,
which rejects it itself (R114). -/
def hostCheck (c : Cfg) (now : Int) (o : TotpOptions) : Except TotpFailure Unit :=
  if o.period ≤ 0 then .error .invalidConfiguration
  else if o.digits < 0 then .error .invalidConfiguration
  else if c.digitsMax.toNat < o.digits.toNat ∨ 255 < o.digits.toNat then .error .outOfRange
  else if totpMoment now o < 0 then .error .outOfRange
  else if 2 ^ 64 ≤ totpCounter (totpMoment now o).toNat o.period.toNat then .error .outOfRange
  else .ok ()

/-- The host sends one command and takes its response; a code other than `OK` ends the computation (R121). -/
def sendOne (i : Instr) (s : State) : Except TotpFailure (State × Word32) :=
  match step (s.hand (.command (encode i))) with
  | .next t =>
    match t.responses.getLast? with
    | some r => if r.rc = .ok then .ok (t, r.rdata) else .error (.block r.rc)
    | none => .error .stopped
  | .fault _ => .error .stopped
  | .refused _ => .error .stopped

/-- The host sends commands in order and collects the read data, up to the first failure. -/
def sendAll : List Instr → State → Except TotpFailure (State × List Word32)
  | [], s => .ok (s, [])
  | i :: is, s =>
    match sendOne i s with
    | .error e => .error e
    | .ok (t, x) =>
      match sendAll is t with
      | .error e => .error e
      | .ok (u, xs) => .ok (u, x :: xs)

/-- The byte in `RDATA[7:0]` (20_memory.md R44). -/
def dataByte (x : Word32) : Byte := x.extractLsb' 0 8

/-- Steps 2 to 5: decode the secret and read the key. -/
def fetchKey (text : List Byte) (s : State) : Except TotpFailure (State × List Byte) :=
  match sendAll (b32DecodeCmds text) s with
  | .error e => .error e
  | .ok (t, xs) =>
    match sendAll (b32Readkey (xs.getLastD 0).toNat) t with
    | .error e => .error e
    | .ok (u, ys) => .ok (u, ys.map dataByte)

/-- Steps 8 to 11: truncate the digest and read the code. -/
def fetchCode (digest : List Byte) (digits : Nat) (s : State) : Except TotpFailure (State × List Byte) :=
  match sendAll (dtTrunc digest (BitVec.ofNat 8 digits)) s with
  | .error e => .error e
  | .ok (t, _) =>
    match sendAll (dtReadcode digits) t with
    | .error e => .error e
    | .ok (u, ys) => .ok (u, ys.map dataByte)

/-- `generateTotp(secret, options)` on the block in state `s` (R116). -/
def generateTotp (hmac : Hmac) (now : Int) (text : List Byte) (o : TotpOptions) (s : State) :
    Except TotpFailure (List Byte) :=
  match hostCheck s.cfg now o with
  | .error e => .error e
  | .ok () =>
    match fetchKey text s with
    | .error e => .error e
    | .ok (t, key) =>
      match hmac o.algorithm key
          (encodeCounter (totpCounter (totpMoment now o).toNat o.period.toNat)) with
      | none => .error .unsupportedAlgorithm
      | some digest =>
        match fetchCode digest o.digits.toNat t with
        | .error e => .error e
        | .ok (_, code) => .ok code

end Sys2Proof.Machine
end

