-- ==== Sys2Proof/Safety.lean ====
section
/-! DEFINITION. The terms the claims use: runs, the last response, the invariants of 10_state.md R34 and R35, the conditions
of 60_exceptions.md R123 and R127, and the opcode table of 30_encoding.md R57. -/

namespace Sys2Proof.Machine

/-! ### Runs (70_reset_and_hazards.md R149) -/

/-- The host hands inputs one after another and each is carried out; the run stops at the first stop. -/
def feed : List Input → State → Host.Outcome State Fault Refusal
  | [], s => .next s
  | x :: xs, s =>
    match step (s.hand x) with
    | .next t => feed xs t
    | .fault f => .fault f
    | .refused r => .refused r

/-- A run of commands. -/
def feedCmds (is : List Instr) (s : State) : Host.Outcome State Fault Refusal :=
  feed (is.map (fun i => Input.command (encode i))) s

/-- The last response given. -/
def State.lastResponse (s : State) : Option Response := s.responses.getLast?

/-- The return code of the last response given. -/
def State.lastCode (s : State) : Option RetCode := s.lastResponse.map Response.rc

/-- The response a step's outcome shows the host, where there is one. -/
def answerOf : Host.Outcome State Fault Refusal → Option Response
  | .next t => t.lastResponse
  | .fault _ => none
  | .refused _ => none

/-- `t` is `s` after the response `r`, with the same parameters and the same inputs still to come; the units are not
mentioned. -/
def Answered (s t : State) (r : Response) : Prop :=
  t.cfg = s.cfg ∧ t.inputs = s.inputs ∧ t.responses = s.responses ++ [r]

/-- The response `respond(OK, data)`. -/
def okResponse (data : Word32) : Response := { rc := .ok, rdata := data }

/-- The response of `reject(r)`. -/
def rejectResponse (r : Rejection) : Response := { rc := .rejection r, rdata := 0 }

/-- The response of `raise UnitError(U, e)`. -/
def errorResponse (e : UnitErr) : Response := { rc := .unitError e, rdata := 0 }

/-- Unit B32 in its error state with cause `k`, everything else cleared (10_state.md R32). -/
def b32InError (k : BitVec 4) : B32Unit :=
  { st := .err, cause := k, acc := 0, nb := 0, klen := 0, kb := [] }

/-- Unit DT in its error state with cause `k`, everything else cleared (R32). -/
def dtInError (k : BitVec 4) : DtUnit :=
  { st := .err, cause := k, dlen := 0, db := [], digits := 0, offset := 0, bincode := 0, otp := 0, cb := [] }

/-! ### Which unit a command belongs to (30_encoding.md R57) -/

/-- The unit of a command; `RDREG` belongs to neither (43_system_commands.md R104). -/
def unitOf : Instr → Option UnitId
  | .b32Start => some .b32
  | .b32Push _ => some .b32
  | .b32End => some .b32
  | .b32Rdkey _ => some .b32
  | .dtStart => some .dt
  | .dtPush _ => some .dt
  | .dtRun _ => some .dt
  | .dtRdcode _ => some .dt
  | .rdreg _ => none

/-- The unit of a command word; an illegal word belongs to neither. -/
def unitOfWord (w : CmdWord) : Option UnitId :=
  match decode w with
  | .ok i => unitOf i
  | .error _ => none

/-- The mnemonic of a command (R57). -/
def mnemonicOf : Instr → Mnemonic
  | .b32Start => .b32Start
  | .b32Push _ => .b32Push
  | .b32End => .b32End
  | .b32Rdkey _ => .b32Rdkey
  | .dtStart => .dtStart
  | .dtPush _ => .dtPush
  | .dtRun _ => .dtRun
  | .dtRdcode _ => .dtRdcode
  | .rdreg _ => .rdreg

/-- A row of the opcode table: which words spell the command. -/
structure OpcodeRow where
  op : Mnemonic
  mask : CmdWord
  pattern : CmdWord
  deriving DecidableEq, Repr

/-- The word has the row's pattern under the row's mask. -/
def OpcodeRow.spells (r : OpcodeRow) (w : CmdWord) : Prop := w &&& r.mask = r.pattern

/-- The nine rows of R57. -/
def opcodeTable : List OpcodeRow :=
  [ { op := .b32Start, mask := 0xFFFF, pattern := 0x1000 },
    { op := .b32Push, mask := 0xFF00, pattern := 0x2000 },
    { op := .b32End, mask := 0xFFFF, pattern := 0x3000 },
    { op := .b32Rdkey, mask := 0xFF00, pattern := 0x4000 },
    { op := .dtStart, mask := 0xFFFF, pattern := 0x5000 },
    { op := .dtPush, mask := 0xFF00, pattern := 0x6000 },
    { op := .dtRun, mask := 0xFF00, pattern := 0x7000 },
    { op := .dtRdcode, mask := 0xFF00, pattern := 0x8000 },
    { op := .rdreg, mask := 0xFF00, pattern := 0x9000 } ]

/-! ### When a command is turned away, and when it raises a unit error (60_exceptions.md R123, R127) -/

/-- The conditions of `BAD_STATE` (R127). -/
def badStateWhen : Instr → State → Prop
  | .b32Start, _ => False
  | .b32Push _, s => s.b32.st = .done ∨ s.b32.st = .err
  | .b32End, s => s.b32.st = .done ∨ s.b32.st = .err
  | .b32Rdkey _, s => s.b32.st ≠ .done
  | .dtStart, _ => False
  | .dtPush _, s => s.dt.st ≠ .load
  | .dtRun _, s => s.dt.st ≠ .load
  | .dtRdcode _, s => s.dt.st ≠ .done
  | .rdreg r, s => (r = 5 ∨ r = 6) ∧ s.dt.st ≠ .done

/-- The conditions of `BAD_INDEX` (R127). -/
def badIndexWhen : Instr → State → Prop
  | .b32Start, _ => False
  | .b32Push _, _ => False
  | .b32End, _ => False
  | .b32Rdkey i, s => s.b32.st = .done ∧ s.b32.klen.toNat ≤ i.toNat
  | .dtStart, _ => False
  | .dtPush _, _ => False
  | .dtRun _, _ => False
  | .dtRdcode i, s => s.dt.st = .done ∧ s.dt.digits.toNat ≤ i.toNat
  | .rdreg r, _ => 7 ≤ r.toNat

/-- The digest's last byte and its length leave no room for four bytes at the offset (R123). -/
def digestTooShortFor (u : DtUnit) : Prop :=
  u.dlen.toNat = 0 ∨ u.dlen.toNat < (u.db.readByte (u.dlen.toNat - 1)).toNat % 16 + 4

/-- The conditions of the five unit errors (R123). -/
def unitErrorWhen : UnitErr → Instr → State → Prop
  | .decodeError, .b32Push c, s =>
    (s.b32.st = .data ∧ charClass c = .inv) ∨ (s.b32.st = .pad ∧ charClass c ≠ .pad)
  | .keyOverflow, .b32Push c, s =>
    s.b32.st = .data ∧ (∃ v, charClass c = .sym v) ∧ 3 ≤ s.b32.nb.toNat ∧ s.b32.klen = s.cfg.keyMax
  | .digestOverflow, .dtPush _, s => s.dt.st = .load ∧ s.dt.dlen = s.cfg.digestMax
  | .invalidConfig, .dtRun d, s =>
    s.dt.st = .load ∧ (d.toNat = 0 ∨ s.cfg.digitsMax.toNat < d.toNat)
  | .digestTooShort, .dtRun d, s =>
    s.dt.st = .load ∧ 1 ≤ d.toNat ∧ d.toNat ≤ s.cfg.digitsMax.toNat ∧ digestTooShortFor s.dt
  | _, _, _ => False

/-! ### The invariants (10_state.md R34, R35) -/

/-- What holds of unit B32 in every reachable state (R34 without the symbols, R15), with the buffer in canonical form
and zero from `KLEN` on (93_implementation_defined.md U22). -/
structure B32Inv (c : Cfg) (u : B32Unit) : Prop where
  klen_le : u.klen.toNat ≤ c.keyMax.toNat
  acc_lt : u.acc.toNat < 2 ^ u.nb.toNat
  kb_wf : u.kb.wf = true
  kb_within : u.kb.within u.klen.toNat = true
  cause_zero : u.st ≠ .err → u.cause = 0
  done_empty : u.st = .done → u.nb = 0 ∧ u.acc = 0
  err_cleared : u.st = .err → u = b32InError 8 ∨ u = b32InError 9

/-- What holds of unit DT in every reachable state (R35), with the buffers in canonical form and zero from `DLEN` and
`DIGITS` on (R26, U22). -/
structure DtInv (c : Cfg) (u : DtUnit) : Prop where
  dlen_le : u.dlen.toNat ≤ c.digestMax.toNat
  db_wf : u.db.wf = true
  db_within : u.db.within u.dlen.toNat = true
  cb_wf : u.cb.wf = true
  cb_within : u.cb.within u.digits.toNat = true
  load_zero : u.st = .load →
    u.cause = 0 ∧ u.digits = 0 ∧ u.offset = 0 ∧ u.bincode = 0 ∧ u.otp = 0 ∧ ∀ i, u.cb.readByte i = 0
  done_result : u.st = .done →
    1 ≤ u.digits.toNat ∧ u.digits.toNat ≤ c.digitsMax.toNat ∧ u.offset.toNat + 4 ≤ u.dlen.toNat ∧
    u.bincode.toNat < 2 ^ 31 ∧ u.otp.toNat = u.bincode.toNat % 10 ^ u.digits.toNat ∧ u.cause = 0 ∧
    ∀ i, i < u.digits.toNat →
      (u.cb.readByte i).toNat = 0x30 + u.otp.toNat / 10 ^ (u.digits.toNat - 1 - i) % 10
  err_cleared : u.st = .err → u = dtInError 10 ∨ u = dtInError 11 ∨ u = dtInError 12

/-- What holds of the machine in every reachable state. -/
structure Inv (s : State) : Prop where
  cfg_ok : s.cfg.wellFormed = true
  b32 : B32Inv s.cfg s.b32
  dt : DtInv s.cfg s.dt

/-- The eight bits of a byte, bit 7 first (20_memory.md R42). -/
def byteBits (b : Byte) : List Bool :=
  [b.getLsbD 7, b.getLsbD 6, b.getLsbD 5, b.getLsbD 4, b.getLsbD 3, b.getLsbD 2, b.getLsbD 1, b.getLsbD 0]

/-- The `NB` bits of `ACC`, the earliest first (R20). -/
def accBits (u : B32Unit) : List Bool :=
  (List.range u.nb.toNat).map (fun k => u.acc.getLsbD (u.nb.toNat - 1 - k))

/-- `KB[0 .. KLEN−1]` followed by the `NB` bits of `ACC` (R34). -/
def streamBits (u : B32Unit) : List Bool :=
  (List.range u.klen.toNat).flatMap (fun i => byteBits (u.kb.readByte i)) ++ accBits u

/-- R34, with the accepted symbols `vs` since the last start in the place of their number `n`. -/
structure DecodeStream (c : Cfg) (u : B32Unit) (vs : List SymVal) : Prop where
  active : u.st = .data ∨ u.st = .pad →
    u.nb.toNat = 5 * vs.length % 8 ∧ u.klen.toNat = 5 * vs.length / 8 ∧ u.acc.toNat < 2 ^ u.nb.toNat ∧
    u.cause = 0 ∧ streamBits u = bitsOf vs
  ended : u.st = .done →
    u.nb = 0 ∧ u.acc = 0 ∧ u.cause = 0 ∧ u.klen.toNat = 5 * vs.length / 8
  failed : u.st = .err →
    u.nb = 0 ∧ u.acc = 0 ∧ u.klen = 0 ∧ (∀ i, u.kb.readByte i = 0) ∧ (u.cause = 8 ∨ u.cause = 9)
  capacity : u.klen.toNat ≤ c.keyMax.toNat

/-- The accepted symbols after the input `x` was carried out and left the state `t`: none after a start or reset, one
more after a `B32.PUSH` that carried a symbol and was answered `OK` (R34). -/
def acceptedAfter (x : Input) (t : State) (vs : List SymVal) : List SymVal :=
  match x with
  | .reset => []
  | .command w =>
    match decode w with
    | .ok .b32Start => []
    | .ok (.b32Push c) =>
      match charClass c with
      | .sym v => if t.lastCode = some .ok then vs ++ [v] else vs
      | .pad => vs
      | .inv => vs
    | .ok _ => vs
    | .error _ => vs

/-! ### Texts and responses of a stream -/

/-- The symbols at the head of a text, before any other character (41_b32_commands.md R92 case 3). -/
def leadingSymbols (t : List Byte) : List Byte := t.takeWhile (fun c => (symbolOf c).isSome)

/-- The responses to the words of unit `u` among the responses `rs` to the words `ws`, in order. -/
def responsesOf (u : UnitId) (ws : List CmdWord) (rs : List Response) : List Response :=
  ((ws.zip rs).filter (fun p => unitOfWord p.1 = some u)).map Prod.snd

/-- A list of bytes as a big-endian number. -/
def bigEndian (bs : List Byte) : Nat := bs.foldl (fun n b => n * 256 + b.toNat) 0

/-- A list of symbols as a number in base 32, the first symbol most significant (40_reference_functions.md R75). -/
def base32Number (vs : List SymVal) : Nat := vs.foldl (fun n v => n * 32 + v.toNat) 0

/-- The number a list of decimal characters shows, most significant first. -/
def decimalNumber (cs : List Byte) : Nat := cs.foldl (fun n c => n * 10 + (c.toNat - 0x30)) 0

end Sys2Proof.Machine
end

