-- ==== Sys2Proof/Certificates/Slice0/Obligations.lean ====
section
/-! DEFINITION. The statements about the block, one for each rule or group of rules of the spec. -/

open Sys2Proof Sys2Proof.Machine

/-! ### Fetching, decoding and the encoding -/

/-- R16, R61: a command word that spells a command is executed, with the host's list moved on by that one word. -/
def Obligations.StepRunsTheDecodedCommand : Prop :=
  ∀ (s : State) (w : CmdWord) (rest : List Input) (i : Instr),
    s.inputs = .command w :: rest → decode w = .ok i → step s = exec i { s with inputs := rest }

/-- R105: an illegal word is answered `ILLEGAL_CMD` with `RDATA = 0`, changes neither unit, puts none into `ERR`, and
the next command is executed as if the word had not been sent; the three words of the rule are illegal. -/
def Obligations.IllegalWordOnlyAnswered : Prop :=
  (∀ (s : State) (w : CmdWord) (rest : List Input) (e : Illegal),
    s.inputs = .command w :: rest → decode w = .error e →
    ∃ t, step s = .next t ∧ t.b32 = s.b32 ∧ t.dt = s.dt ∧ t.cfg = s.cfg ∧ t.inputs = rest ∧
      t.responses = s.responses ++ [rejectResponse .illegalCmd] ∧ (RetCode.rejection .illegalCmd).code = 1 ∧
      ∀ (i : Instr) (u : State), exec i { s with inputs := rest } = .next u →
        ∃ u', exec i t = .next u' ∧ u'.b32 = u.b32 ∧ u'.dt = u.dt ∧ u'.lastResponse = u.lastResponse) ∧
  (∀ w ∈ ([0x0000, 0x2141, 0x3001] : List CmdWord), ∃ e, decode w = .error e)

/-- R61, R53: no bit of an encoding is dropped: decoding an encoded command gives it back, and encoding what a legal
word decodes to gives the word. -/
def Obligations.DecodeInvertsEncode : Prop :=
  (∀ i : Instr, i.wellFormed = true → decode (encode i) = .ok i) ∧
  (∀ (w : CmdWord) (i : Instr), decode w = .ok i → encode i = w)

/-- R58: the illegal words are exactly the three cases of the rule, 63997 in number, the all-zero and the all-ones
word among them; the legal ones are 1539; a word is answered `ILLEGAL_CMD`, with neither unit changed, exactly when it
is illegal. -/
def Obligations.LegalWordsAreExactlyThese : Prop :=
  (∀ w : CmdWord, (∃ e, decode w = .error e) ↔
    (w.toNat / 4096 = 0 ∨ 10 ≤ w.toNat / 4096) ∨ w.toNat / 256 % 16 ≠ 0 ∨
    ((w.toNat / 4096 = 1 ∨ w.toNat / 4096 = 3 ∨ w.toNat / 4096 = 5) ∧ w.toNat % 256 ≠ 0)) ∧
  Nat.card { w : CmdWord // ∃ i, decode w = .ok i } = 1539 ∧
  Nat.card { w : CmdWord // ∃ e, decode w = .error e } = 63997 ∧
  (∃ e, decode 0x0000 = .error e) ∧ (∃ e, decode 0xFFFF = .error e) ∧
  (∀ (s t : State) (w : CmdWord) (rest : List Input),
    s.inputs = .command w :: rest → step s = .next t →
    ((t.lastCode = some (.rejection .illegalCmd) ↔ ∃ e, decode w = .error e) ∧
      (t.lastCode = some (.rejection .illegalCmd) →
        t.b32 = s.b32 ∧ t.dt = s.dt ∧ t.lastResponse = some (rejectResponse .illegalCmd))))

/-- R57: under the mask of its row a word has the row's pattern exactly when it decodes to the row's command, with
`ARG` as the operand; no word has the patterns of two rows. -/
def Obligations.MaskAndPatternSelectTheCommand : Prop :=
  (∀ w : CmdWord,
    ((w &&& 0xFFFF = 0x1000) ↔ decode w = .ok .b32Start) ∧
    ((w &&& 0xFF00 = 0x2000) ↔ decode w = .ok (.b32Push (w.setWidth 8))) ∧
    ((w &&& 0xFFFF = 0x3000) ↔ decode w = .ok .b32End) ∧
    ((w &&& 0xFF00 = 0x4000) ↔ decode w = .ok (.b32Rdkey (w.setWidth 8))) ∧
    ((w &&& 0xFFFF = 0x5000) ↔ decode w = .ok .dtStart) ∧
    ((w &&& 0xFF00 = 0x6000) ↔ decode w = .ok (.dtPush (w.setWidth 8))) ∧
    ((w &&& 0xFF00 = 0x7000) ↔ decode w = .ok (.dtRun (w.setWidth 8))) ∧
    ((w &&& 0xFF00 = 0x8000) ↔ decode w = .ok (.dtRdcode (w.setWidth 8))) ∧
    ((w &&& 0xFF00 = 0x9000) ↔ decode w = .ok (.rdreg (w.setWidth 8)))) ∧
  opcodeTable.Pairwise (fun p q => ∀ w, ¬ (p.spells w ∧ q.spells w))

/-- R57, R62: words written out from the encodings of the spec decode to the commands they stand for (sanity). -/
def Obligations.SpelledWordsDecode : Prop :=
  decode 0b0001000000000000 = .ok .b32Start ∧ decode 0b0010000001001101 = .ok (.b32Push 0x4D) ∧
  decode 0b0011000000000000 = .ok .b32End ∧ decode 0b0100000000000001 = .ok (.b32Rdkey 1) ∧
  decode 0b0101000000000000 = .ok .dtStart ∧ decode 0b0110000000011111 = .ok (.dtPush 0x1F) ∧
  decode 0b0111000000000110 = .ok (.dtRun 6) ∧ decode 0b1000000000000101 = .ok (.dtRdcode 5) ∧
  decode 0b1001000000000110 = .ok (.rdreg 6)

/-! ### Reset and the parameters -/

/-- R141: the reset event clears both units, needs no response, and leaves the units in the state R33 tabulates. -/
def Obligations.ResetEventClearsBothUnits : Prop :=
  ∀ (s : State) (rest : List Input), s.inputs = .reset :: rest →
    ∃ t, step s = .next t ∧ t.b32 = B32Unit.reset ∧ t.dt = DtUnit.reset ∧ t.cfg = s.cfg ∧ t.inputs = rest ∧
      t.responses = s.responses

/-- R142: whatever follows, a run after the reset event and a run after `B32.START; DT.START` end in the same units and
give the same further responses; reset in use leaves the units as they are after power-on. -/
def Obligations.ResetEqualsTheTwoStarts : Prop :=
  ∀ (s t : State) (xs : List Input),
    feed (.reset :: xs) s = .next t →
    (∃ (u : State) (rs : List Response),
      feed (.command (encode .b32Start) :: .command (encode .dtStart) :: xs) s = .next u ∧
      u.cfg = t.cfg ∧ u.b32 = t.b32 ∧ u.dt = t.dt ∧ t.responses = s.responses ++ rs ∧
      u.responses = s.responses ++ [okResponse 0, okResponse 0] ++ rs) ∧
    (∃ v rs, feed xs (State.resetOf s.cfg) = .next v ∧ v.cfg = t.cfg ∧ v.b32 = t.b32 ∧ v.dt = t.dt ∧
      v.responses = rs ∧ t.responses = s.responses ++ rs)

/-- R33: every item of the reset table, for every choice of the parameters. -/
def Obligations.ResetStateIsTabulated : Prop :=
  ∀ c : Cfg,
    (State.resetOf c).b32.st = .data ∧ B32Phase.code .data = 0 ∧ (State.resetOf c).b32.cause = 0 ∧
    (State.resetOf c).b32.acc = 0 ∧ (State.resetOf c).b32.nb = 0 ∧ (State.resetOf c).b32.klen = 0 ∧
    (∀ i, (State.resetOf c).b32.kb.readByte i = 0) ∧
    (State.resetOf c).dt.st = .load ∧ DtPhase.code .load = 0 ∧ (State.resetOf c).dt.cause = 0 ∧
    (State.resetOf c).dt.dlen = 0 ∧ (State.resetOf c).dt.digits = 0 ∧ (State.resetOf c).dt.offset = 0 ∧
    (State.resetOf c).dt.bincode = 0 ∧ (State.resetOf c).dt.otp = 0 ∧
    (∀ i, (State.resetOf c).dt.db.readByte i = 0) ∧ (∀ i, (State.resetOf c).dt.cb.readByte i = 0) ∧
    (∃ v : Word32, readRegister (State.resetOf c) .cfg = .ok v ∧
      v.toNat = c.keyMax.toNat + c.digestMax.toNat * 2 ^ 8 + c.digitsMax.toNat * 2 ^ 16) ∧
    readRegister (State.resetOf c) .b32Status = .ok 0 ∧ readRegister (State.resetOf c) .b32Klen = .ok 0 ∧
    readRegister (State.resetOf c) .dtStatus = .ok 0 ∧ readRegister (State.resetOf c) .dtDlen = .ok 0 ∧
    readRegister (State.resetOf c) .dtBincode = .error .badState ∧
    readRegister (State.resetOf c) .dtOtp = .error .badState

/-- R143: no step, reset included, changes a parameter, and `CFG` reads the same before and after. -/
def Obligations.ParametersNeverChange : Prop :=
  ∀ s t : State, step s = .next t → t.cfg = s.cfg ∧ readRegister t .cfg = readRegister s .cfg

/-! ### Outcomes -/

/-- R55, R44: from a state that meets the invariant every command word, legal or not, gets exactly one response;
`RDATA` is 0 whenever `RC` is not `OK`, and for every command but the five that return data. -/
def Obligations.OneResponsePerCommandWord : Prop :=
  ∀ (s : State) (w : CmdWord) (rest : List Input), Inv s → s.inputs = .command w :: rest →
    ∃ t r, step s = .next t ∧ t.responses = s.responses ++ [r] ∧ t.inputs = rest ∧
      (r.rc ≠ .ok → r.rdata = 0) ∧
      (r.rdata ≠ 0 →
        decode w = .ok .b32End ∨ (∃ i, decode w = .ok (.b32Rdkey i)) ∨ (∃ d, decode w = .ok (.dtRun d)) ∨
        (∃ i, decode w = .ok (.dtRdcode i)) ∨ ∃ r', decode w = .ok (.rdreg r'))

/-- R122, R126, R128: a command that ends does so in one of three ways, told apart by its return code: success; a
rejection, which changes no state of either unit; a unit error, which clears the unit named by the code, sets it to
`ERR` with the code as its cause, and changes neither the other unit nor the parameters. Bit 3 of the code is the
class. -/
def Obligations.ThreeWaysACommandEnds : Prop :=
  ∀ (i : Instr) (s t : State), exec i s = .next t →
    ∃ r : Response, t.lastResponse = some r ∧ Answered s t r ∧
      ((r.rc.code = 0 ∧ r.rc = .ok) ∨
       ((r.rc.code = 1 ∨ r.rc.code = 2 ∨ r.rc.code = 3) ∧ r.rdata = 0 ∧ t.b32 = s.b32 ∧ t.dt = s.dt) ∨
       ((r.rc.code = 8 ∨ r.rc.code = 9) ∧ r.rdata = 0 ∧ t.b32 = b32InError r.rc.code ∧ t.dt = s.dt) ∨
       ((r.rc.code = 10 ∨ r.rc.code = 11 ∨ r.rc.code = 12) ∧ r.rdata = 0 ∧ t.dt = dtInError r.rc.code ∧
          t.b32 = s.b32)) ∧
      (r.rc.code.getLsbD 3 = true ↔ ∃ e, r.rc = .unitError e)

/-- R127: each rejection is answered exactly under its conditions. -/
def Obligations.RejectionsHappenExactlyWhen : Prop :=
  (∀ (i : Instr) (s t : State), exec i s = .next t →
    (t.lastCode = some (.rejection .badState) ↔ badStateWhen i s) ∧
    (t.lastCode = some (.rejection .badIndex) ↔ badIndexWhen i s)) ∧
  (∀ (s t : State) (w : CmdWord) (rest : List Input),
    s.inputs = .command w :: rest → step s = .next t →
    (t.lastCode = some (.rejection .illegalCmd) ↔ ∃ e, decode w = .error e))

/-- R123: each unit error is raised exactly under its condition, by no other command and by no illegal word; what is
recorded is the cause code. -/
def Obligations.UnitErrorsHappenExactlyWhen : Prop :=
  (∀ (e : UnitErr) (i : Instr) (s t : State), exec i s = .next t →
    (t.lastCode = some (.unitError e) ↔ unitErrorWhen e i s) ∧
    (t.lastCode = some (.unitError e) →
      (e.unit = .b32 → t.b32 = b32InError e.code) ∧ (e.unit = .dt → t.dt = dtInError e.code))) ∧
  (∀ (e : UnitErr) (s t : State) (w : CmdWord) (rest : List Input) (x : Illegal),
    s.inputs = .command w :: rest → decode w = .error x → step s = .next t →
    t.lastCode ≠ some (.unitError e))

/-- R129: in `ERR` the unit's data commands are rejected with `BAD_STATE`, nothing but the unit's `START` or reset
changes the unit, and the status register shows the cause. -/
def Obligations.ErrorIsStickyUntilStart : Prop :=
  (∀ (s : State) (i : Instr), s.b32.st = .err → unitOf i = some .b32 → i ≠ .b32Start →
    exec i s = .next { s with responses := s.responses ++ [rejectResponse .badState] }) ∧
  (∀ (s : State) (i : Instr), s.dt.st = .err → unitOf i = some .dt → i ≠ .dtStart →
    exec i s = .next { s with responses := s.responses ++ [rejectResponse .badState] }) ∧
  (∀ (s t : State) (x : Input) (rest : List Input),
    s.inputs = x :: rest → step s = .next t → x ≠ .reset →
    (s.b32.st = .err → x ≠ .command 0x1000 → t.b32 = s.b32) ∧
    (s.dt.st = .err → x ≠ .command 0x5000 → t.dt = s.dt)) ∧
  (∀ s : State, Inv s →
    (s.b32.st = .err → readRegister s .b32Status = .ok 0x83 ∧ s.b32.cause = UnitErr.decodeError.code ∨
      readRegister s .b32Status = .ok 0x93 ∧ s.b32.cause = UnitErr.keyOverflow.code) ∧
    (s.dt.st = .err → readRegister s .dtStatus = .ok 0xA3 ∧ s.dt.cause = UnitErr.digestOverflow.code ∨
      readRegister s .dtStatus = .ok 0xB3 ∧ s.dt.cause = UnitErr.invalidConfig.code ∨
      readRegister s .dtStatus = .ok 0xC3 ∧ s.dt.cause = UnitErr.digestTooShort.code))

/-- R130: the unit's `START` and reset are the only ways out of `ERR`, both to the start state, in which nothing of the
failed computation remains; a unit in `ERR` raises no further unit error; both units can be in `ERR` at once, each
with its own cause. -/
def Obligations.StartReturnsFromError : Prop :=
  (∀ s : State, s.b32.st = .err →
    ∃ t, exec .b32Start s = .next t ∧ t.b32 = B32Unit.reset ∧ t.dt = s.dt) ∧
  (∀ s : State, s.dt.st = .err →
    ∃ t, exec .dtStart s = .next t ∧ t.dt = DtUnit.reset ∧ t.b32 = s.b32) ∧
  (∀ (s t : State) (x : Input) (rest : List Input), s.inputs = x :: rest → step s = .next t →
    (x = .reset → t.b32 = B32Unit.reset ∧ t.dt = DtUnit.reset) ∧
    (s.b32.st = .err → t.b32.st ≠ .err → x = .reset ∨ x = .command (encode .b32Start)) ∧
    (s.dt.st = .err → t.dt.st ≠ .err → x = .reset ∨ x = .command (encode .dtStart))) ∧
  (∀ (s t : State) (i : Instr) (e : UnitErr), exec i s = .next t → t.lastCode = some (.unitError e) →
    (e.unit = .b32 → s.b32.st ≠ .err) ∧ (e.unit = .dt → s.dt.st ≠ .err)) ∧
  (∃ t, feedCmds [.b32Push 0x31, .dtRun 0] State.reset = .next t ∧
    t.b32 = b32InError 8 ∧ t.dt = dtInError 11)

/-! ### Unit B32 -/

/-- R88: `B32.START` clears the unit in every state of it and never fails; the status registers then read 0. -/
def Obligations.B32StartBeginsADecode : Prop :=
  ∀ s : State, ∃ t,
    exec .b32Start s = .next t ∧ Answered s t (okResponse 0) ∧ t.b32 = B32Unit.reset ∧ t.dt = s.dt ∧
    readRegister t .b32Status = .ok 0 ∧ readRegister t .b32Klen = .ok 0

/-- R89: every case of `B32.PUSH`. The premises `ACC < 2^NB`, `KLEN ≤ KEY_MAX` and the canonical form of `KB` hold in
every reachable state (R34); in the case of a completed byte the byte is stored at index `KLEN` and nowhere else. -/
def Obligations.B32PushTakesTheNextCharacter : Prop :=
  (∀ (s : State) (c : Byte) (v : SymVal),
    s.b32.st = .data → charClass c = .sym v → s.b32.acc.toNat < 2 ^ s.b32.nb.toNat → s.b32.nb.toNat < 3 →
    ∃ t, exec (.b32Push c) s = .next t ∧ Answered s t (okResponse 0) ∧ t.dt = s.dt ∧
      t.b32.acc.toNat = s.b32.acc.toNat * 32 + v.toNat ∧ t.b32.nb.toNat = s.b32.nb.toNat + 5 ∧
      t.b32.st = .data ∧ t.b32.cause = s.b32.cause ∧ t.b32.klen = s.b32.klen ∧ t.b32.kb = s.b32.kb) ∧
  (∀ (s : State) (c : Byte) (v : SymVal),
    s.b32.st = .data → charClass c = .sym v → s.b32.acc.toNat < 2 ^ s.b32.nb.toNat → 3 ≤ s.b32.nb.toNat →
    s.b32.klen.toNat < s.cfg.keyMax.toNat → s.b32.kb.wf = true →
    ∃ t, exec (.b32Push c) s = .next t ∧ Answered s t (okResponse 0) ∧ t.dt = s.dt ∧
      (∀ a, (t.b32.kb.readByte a).toNat =
        if a = s.b32.klen.toNat then (s.b32.acc.toNat * 32 + v.toNat) / 2 ^ (s.b32.nb.toNat - 3)
        else (s.b32.kb.readByte a).toNat) ∧
      t.b32.klen.toNat = s.b32.klen.toNat + 1 ∧
      t.b32.acc.toNat = (s.b32.acc.toNat * 32 + v.toNat) % 2 ^ (s.b32.nb.toNat - 3) ∧
      t.b32.nb.toNat = s.b32.nb.toNat - 3 ∧ t.b32.st = .data ∧ t.b32.cause = s.b32.cause) ∧
  (∀ (s : State) (c : Byte) (v : SymVal),
    s.b32.st = .data → charClass c = .sym v → 3 ≤ s.b32.nb.toNat → s.b32.klen = s.cfg.keyMax →
    ∃ t, exec (.b32Push c) s = .next t ∧ Answered s t (errorResponse .keyOverflow) ∧ t.dt = s.dt ∧
      t.b32 = b32InError 9) ∧
  (∀ (s : State) (c : Byte), s.b32.st = .data ∨ s.b32.st = .pad → charClass c = .pad →
    ∃ t, exec (.b32Push c) s = .next t ∧ Answered s t (okResponse 0) ∧ t.dt = s.dt ∧
      t.b32 = { s.b32 with st := .pad }) ∧
  (∀ (s : State) (c : Byte),
    (s.b32.st = .data ∧ charClass c = .inv) ∨ (s.b32.st = .pad ∧ charClass c ≠ .pad) →
    ∃ t, exec (.b32Push c) s = .next t ∧ Answered s t (errorResponse .decodeError) ∧ t.dt = s.dt ∧
      t.b32 = b32InError 8) ∧
  (∀ (s : State) (c : Byte), s.b32.st = .done ∨ s.b32.st = .err →
    ∃ t, exec (.b32Push c) s = .next t ∧ Answered s t (rejectResponse .badState) ∧ t.dt = s.dt ∧
      t.b32 = s.b32)

/-- R90: `B32.END` ends the text from `DATA` and `PAD` alike, drops the held bits whatever they are, and returns the
length; it is rejected in `DONE` and `ERR`. -/
def Obligations.B32EndEndsTheText : Prop :=
  (∀ s : State, s.b32.st = .data ∨ s.b32.st = .pad →
    ∃ t x, exec .b32End s = .next t ∧ Answered s t (okResponse x) ∧ x.toNat = s.b32.klen.toNat ∧ t.dt = s.dt ∧
      t.b32.st = .done ∧ t.b32.acc = 0 ∧ t.b32.nb = 0 ∧ t.b32.cause = s.b32.cause ∧
      t.b32.klen = s.b32.klen ∧ t.b32.kb = s.b32.kb) ∧
  (∀ s : State, s.b32.st = .done ∨ s.b32.st = .err →
    ∃ t, exec .b32End s = .next t ∧ Answered s t (rejectResponse .badState) ∧ t.b32 = s.b32 ∧ t.dt = s.dt)

/-- R91: `B32.RDKEY` returns the key byte when the decode is done and the index is below the decoded length (which is
within the buffer in every reachable state, R34), is rejected otherwise, and changes no state in any case. -/
def Obligations.B32RdkeyReadsTheKey : Prop :=
  (∀ (s : State) (i : Byte),
    s.b32.st = .done → i.toNat < s.b32.klen.toNat → s.b32.klen.toNat ≤ s.cfg.keyMax.toNat →
    ∃ t x, exec (.b32Rdkey i) s = .next t ∧ Answered s t (okResponse x) ∧ t.b32 = s.b32 ∧ t.dt = s.dt ∧
      x.toNat = (s.b32.kb.readByte i.toNat).toNat) ∧
  (∀ (s : State) (i : Byte), s.b32.st ≠ .done →
    ∃ t, exec (.b32Rdkey i) s = .next t ∧ Answered s t (rejectResponse .badState) ∧ t.b32 = s.b32 ∧
      t.dt = s.dt) ∧
  (∀ (s : State) (i : Byte), s.b32.st = .done → s.b32.klen.toNat ≤ i.toNat →
    ∃ t, exec (.b32Rdkey i) s = .next t ∧ Answered s t (rejectResponse .badIndex) ∧ t.b32 = s.b32 ∧
      t.dt = s.dt)

/-! ### Unit DT -/

/-- R96: `DT.START` clears the unit in every state of it and never fails; the status registers then read 0. -/
def Obligations.DtStartBeginsATruncation : Prop :=
  ∀ s : State, ∃ t,
    exec .dtStart s = .next t ∧ Answered s t (okResponse 0) ∧ t.dt = DtUnit.reset ∧ t.b32 = s.b32 ∧
    readRegister t .dtStatus = .ok 0 ∧ readRegister t .dtDlen = .ok 0

/-- R97: `DT.PUSH` stores its byte at index `DLEN` and nowhere else and counts it; a full buffer is a unit error; outside
`LOAD` it is rejected. The premises `DLEN ≤ DIGEST_MAX` and the canonical form hold in every reachable state (R35). -/
def Obligations.DtPushAppendsOneByte : Prop :=
  (∀ (s : State) (b : Byte),
    s.dt.st = .load → s.dt.dlen.toNat < s.cfg.digestMax.toNat → s.dt.db.wf = true →
    ∃ t, exec (.dtPush b) s = .next t ∧ Answered s t (okResponse 0) ∧ t.b32 = s.b32 ∧
      (∀ a, t.dt.db.readByte a = if a = s.dt.dlen.toNat then b else s.dt.db.readByte a) ∧
      t.dt.dlen.toNat = s.dt.dlen.toNat + 1 ∧ t.dt = { s.dt with db := t.dt.db, dlen := t.dt.dlen }) ∧
  (∀ (s : State) (b : Byte), s.dt.st = .load → s.dt.dlen = s.cfg.digestMax →
    ∃ t, exec (.dtPush b) s = .next t ∧ Answered s t (errorResponse .digestOverflow) ∧ t.b32 = s.b32 ∧
      t.dt = dtInError 10) ∧
  (∀ (s : State) (b : Byte), s.dt.st ≠ .load →
    ∃ t, exec (.dtPush b) s = .next t ∧ Answered s t (rejectResponse .badState) ∧ t.b32 = s.b32 ∧ t.dt = s.dt)

/-- R98: `DT.RUN` selects the four bytes at the offset in the low nibble of the last byte, builds the 31-bit code, reduces
it modulo the exact power of ten and writes exactly `d` characters and zeros after them; its errors are raised in the
order of the rule. The premises `DLEN ≤ DIGEST_MAX` and the canonical form of `CB` hold in every reachable state (R35). -/
def Obligations.DtRunTruncatesAndRenders : Prop :=
  (∀ (s : State) (d : Byte) (o b v : Nat),
    s.dt.st = .load → 1 ≤ d.toNat → d.toNat ≤ s.cfg.digitsMax.toNat → 1 ≤ s.dt.dlen.toNat →
    s.dt.dlen.toNat ≤ s.cfg.digestMax.toNat → s.dt.cb.wf = true →
    o = (s.dt.db.readByte (s.dt.dlen.toNat - 1)).toNat % 16 → o + 4 ≤ s.dt.dlen.toNat →
    b = (s.dt.db.readByte o).toNat % 128 * 2 ^ 24 + (s.dt.db.readByte (o + 1)).toNat * 2 ^ 16 +
      (s.dt.db.readByte (o + 2)).toNat * 2 ^ 8 + (s.dt.db.readByte (o + 3)).toNat →
    v = b % 10 ^ d.toNat →
    ∃ t x, exec (.dtRun d) s = .next t ∧ Answered s t (okResponse x) ∧ x.toNat = v ∧ t.b32 = s.b32 ∧
      t.dt.st = .done ∧ t.dt.digits = d ∧ t.dt.offset.toNat = o ∧ t.dt.bincode.toNat = b ∧ t.dt.otp.toNat = v ∧
      t.dt.cause = s.dt.cause ∧ t.dt.dlen = s.dt.dlen ∧ t.dt.db = s.dt.db ∧
      ∀ i, (t.dt.cb.readByte i).toNat =
        if i < d.toNat then 0x30 + v / 10 ^ (d.toNat - 1 - i) % 10
        else if i < s.cfg.digitsMax.toNat then 0 else (s.dt.cb.readByte i).toNat) ∧
  (∀ (s : State) (d : Byte), s.dt.st = .load → d.toNat = 0 ∨ s.cfg.digitsMax.toNat < d.toNat →
    ∃ t, exec (.dtRun d) s = .next t ∧ Answered s t (errorResponse .invalidConfig) ∧ t.b32 = s.b32 ∧
      t.dt = dtInError 11) ∧
  (∀ (s : State) (d : Byte),
    s.dt.st = .load → 1 ≤ d.toNat → d.toNat ≤ s.cfg.digitsMax.toNat →
    s.dt.dlen.toNat ≤ s.cfg.digestMax.toNat → digestTooShortFor s.dt →
    ∃ t, exec (.dtRun d) s = .next t ∧ Answered s t (errorResponse .digestTooShort) ∧ t.b32 = s.b32 ∧
      t.dt = dtInError 12) ∧
  (∀ (s : State) (d : Byte), s.dt.st ≠ .load →
    ∃ t, exec (.dtRun d) s = .next t ∧ Answered s t (rejectResponse .badState) ∧ t.b32 = s.b32 ∧ t.dt = s.dt)

/-- R99: `DT.RDCODE` returns a character of the code when a run has completed and the index is below its digit count,
the value always being 0x30 to 0x39; it is rejected otherwise, and changes no state in any case. -/
def Obligations.DtRdcodeReadsTheCode : Prop :=
  (∀ (s : State) (i : Byte),
    s.dt.st = .done → i.toNat < s.dt.digits.toNat → s.dt.digits.toNat ≤ s.cfg.digitsMax.toNat →
    ∃ t x, exec (.dtRdcode i) s = .next t ∧ Answered s t (okResponse x) ∧ t.b32 = s.b32 ∧ t.dt = s.dt ∧
      x.toNat = (s.dt.cb.readByte i.toNat).toNat ∧ (Inv s → 0x30 ≤ x.toNat ∧ x.toNat ≤ 0x39)) ∧
  (∀ (s : State) (i : Byte), s.dt.st ≠ .done →
    ∃ t, exec (.dtRdcode i) s = .next t ∧ Answered s t (rejectResponse .badState) ∧ t.b32 = s.b32 ∧
      t.dt = s.dt) ∧
  (∀ (s : State) (i : Byte), s.dt.st = .done → s.dt.digits.toNat ≤ i.toNat →
    ∃ t, exec (.dtRdcode i) s = .next t ∧ Answered s t (rejectResponse .badIndex) ∧ t.b32 = s.b32 ∧
      t.dt = s.dt)

/-- R102: after a successful `DT.RUN` the unit is in `DONE`, where `DT.PUSH` and `DT.RUN` are rejected. -/
def Obligations.OneRunPerStart : Prop :=
  ∀ (s t : State) (d : Byte), exec (.dtRun d) s = .next t → t.lastCode = some .ok →
    t.dt.st = .done ∧
    (∀ b, exec (.dtPush b) t = .next { t with responses := t.responses ++ [rejectResponse .badState] }) ∧
    (∀ d', exec (.dtRun d') t = .next { t with responses := t.responses ++ [rejectResponse .badState] })

/-- R100: a digest of 19 bytes or more never raises `DIGEST_TOO_SHORT`; one of 4 to 18 bytes passes exactly when the low
nibble of its last byte is at most its length less 4 (for 4 bytes: is 0); one of 1 to 3 bytes never passes; a block
with `DIGEST_MAX` below 20 holds no digest of 20 bytes. -/
def Obligations.ShortDigestsDependOnTheNibble : Prop :=
  (∀ (s : State) (d : Byte),
    s.dt.st = .load → 1 ≤ d.toNat → d.toNat ≤ s.cfg.digitsMax.toNat → 1 ≤ s.dt.dlen.toNat →
    s.dt.dlen.toNat ≤ s.cfg.digestMax.toNat →
    ∃ t, exec (.dtRun d) s = .next t ∧
      (19 ≤ s.dt.dlen.toNat → t.lastCode = some .ok) ∧
      (s.dt.dlen.toNat = 4 →
        (t.lastCode = some .ok ↔ (s.dt.db.readByte 3).toNat % 16 = 0)) ∧
      (4 ≤ s.dt.dlen.toNat → s.dt.dlen.toNat ≤ 18 →
        (t.lastCode = some .ok ↔
          (s.dt.db.readByte (s.dt.dlen.toNat - 1)).toNat % 16 ≤ s.dt.dlen.toNat - 4)) ∧
      (s.dt.dlen.toNat ≤ 3 → t.lastCode = some (.unitError .digestTooShort))) ∧
  (∀ s : State, Inv s → s.cfg.digestMax.toNat < 20 → s.dt.dlen.toNat < 20)

/-- R103: the result depends on the digest only through the last byte's low nibble and the four bytes at the offset,
without bit 7 of the first of the four. The premise that `CB` is clear holds in `LOAD` in every reachable state (R35). -/
def Obligations.OnlyFiveBytesMatter : Prop :=
  ∀ (s s' t t' : State) (d : Byte) (o : Nat),
    s.dt.st = .load → s'.dt.st = .load → s'.cfg = s.cfg → s'.dt.dlen = s.dt.dlen →
    s.dt.cb = [] → s'.dt.cb = [] →
    o = (s.dt.db.readByte (s.dt.dlen.toNat - 1)).toNat % 16 →
    (s'.dt.db.readByte (s.dt.dlen.toNat - 1)).toNat % 16 = o →
    (s'.dt.db.readByte o).toNat % 128 = (s.dt.db.readByte o).toNat % 128 →
    (∀ k, 1 ≤ k → k ≤ 3 → s'.dt.db.readByte (o + k) = s.dt.db.readByte (o + k)) →
    exec (.dtRun d) s = .next t → exec (.dtRun d) s' = .next t' →
    t'.lastResponse = t.lastResponse ∧ t'.dt.st = t.dt.st ∧ t'.dt.offset = t.dt.offset ∧
    t'.dt.bincode = t.dt.bincode ∧ t'.dt.otp = t.dt.otp ∧ t'.dt.digits = t.dt.digits ∧ t'.dt.cb = t.dt.cb

/-! ### RDREG -/

/-- R104, R27 to R31: the contents of every readable register, field by field, in every state; the result registers
only in `DONE`; `BAD_INDEX` for an unassigned number; no state changed in any case. -/
def Obligations.RdregReadsTheRegisters : Prop :=
  ∀ s : State,
    (∃ t x, exec (.rdreg 0) s = .next t ∧ Answered s t (okResponse x) ∧ t.b32 = s.b32 ∧ t.dt = s.dt ∧
      x.toNat = s.cfg.keyMax.toNat + s.cfg.digestMax.toNat * 2 ^ 8 + s.cfg.digitsMax.toNat * 2 ^ 16) ∧
    (∃ t x, exec (.rdreg 1) s = .next t ∧ Answered s t (okResponse x) ∧ t.b32 = s.b32 ∧ t.dt = s.dt ∧
      x.toNat = s.b32.st.code.toNat + s.b32.cause.toNat * 2 ^ 4 + s.b32.nb.toNat * 2 ^ 8 +
        s.b32.acc.toNat * 2 ^ 16) ∧
    (∃ t x, exec (.rdreg 2) s = .next t ∧ Answered s t (okResponse x) ∧ t.b32 = s.b32 ∧ t.dt = s.dt ∧
      x.toNat = s.b32.klen.toNat) ∧
    (∃ t x, exec (.rdreg 3) s = .next t ∧ Answered s t (okResponse x) ∧ t.b32 = s.b32 ∧ t.dt = s.dt ∧
      x.toNat = s.dt.st.code.toNat + s.dt.cause.toNat * 2 ^ 4 + s.dt.offset.toNat * 2 ^ 8 +
        s.dt.digits.toNat * 2 ^ 16) ∧
    (∃ t x, exec (.rdreg 4) s = .next t ∧ Answered s t (okResponse x) ∧ t.b32 = s.b32 ∧ t.dt = s.dt ∧
      x.toNat = s.dt.dlen.toNat) ∧
    (s.dt.st = .done → ∃ t, exec (.rdreg 5) s = .next t ∧ Answered s t (okResponse s.dt.bincode) ∧
      t.b32 = s.b32 ∧ t.dt = s.dt) ∧
    (s.dt.st = .done → ∃ t, exec (.rdreg 6) s = .next t ∧ Answered s t (okResponse s.dt.otp) ∧
      t.b32 = s.b32 ∧ t.dt = s.dt) ∧
    (s.dt.st ≠ .done → ∀ r : Byte, r = 5 ∨ r = 6 →
      ∃ t, exec (.rdreg r) s = .next t ∧ Answered s t (rejectResponse .badState) ∧ t.b32 = s.b32 ∧
        t.dt = s.dt) ∧
    (∀ r : Byte, 7 ≤ r.toNat →
      ∃ t, exec (.rdreg r) s = .next t ∧ Answered s t (rejectResponse .badIndex) ∧ t.b32 = s.b32 ∧
        t.dt = s.dt)

/-! ### Frames -/

/-- R15, R49: a command leaves the parameters, the inputs to come and the earlier responses as they are and adds one
response; a command of one unit leaves every register and every byte of the other unit; `RDREG` leaves both. -/
def Obligations.CommandsTouchOnlyTheirOwnUnit : Prop :=
  ∀ (i : Instr) (s t : State), exec i s = .next t →
    (∃ r, Answered s t r) ∧ (unitOf i ≠ some .b32 → t.b32 = s.b32) ∧ (unitOf i ≠ some .dt → t.dt = s.dt)

/-- R46: the reads `B32.RDKEY`, `DT.RDCODE` and `RDREG` have no effect on either unit, and issuing one twice gives the
same response twice. -/
def Obligations.ReadsHaveNoSideEffect : Prop :=
  ∀ (i : Instr) (s t : State),
    ((∃ j, i = .b32Rdkey j) ∨ (∃ j, i = .dtRdcode j) ∨ ∃ r, i = .rdreg r) → exec i s = .next t →
    t.b32 = s.b32 ∧ t.dt = s.dt ∧
    ∃ u, exec i t = .next u ∧ u.lastResponse = t.lastResponse ∧ u.b32 = s.b32 ∧ u.dt = s.dt

/-- R89, R90, R97, R98: the frames of the commands that change a unit, when they succeed: `B32.PUSH` stores to `KB[KLEN]`
exactly when a symbol completes a byte (`NB` of 3 or more) and changes no other byte; `B32.END` changes no byte;
`DT.PUSH` changes `DB[DLEN]` only and no register but `DLEN`; `DT.RUN` changes no byte of `DB` and nothing of `CB` from
`DIGITS_MAX` on. -/
def Obligations.StoringCommandsChangeOnlyTheirBytes : Prop :=
  (∀ (s t : State) (c : Byte), s.b32.kb.wf = true → exec (.b32Push c) s = .next t → t.lastCode = some .ok →
    t.b32.cause = s.b32.cause ∧
    (((∃ v, charClass c = .sym v) ∧ 3 ≤ s.b32.nb.toNat →
        t.b32.st = s.b32.st ∧ ∀ a, a ≠ s.b32.klen.toNat → t.b32.kb.readByte a = s.b32.kb.readByte a) ∧
     (¬ ((∃ v, charClass c = .sym v) ∧ 3 ≤ s.b32.nb.toNat) →
        t.b32.klen = s.b32.klen ∧ ∀ a, t.b32.kb.readByte a = s.b32.kb.readByte a) ∧
     (charClass c = .pad → t.b32.acc = s.b32.acc ∧ t.b32.nb = s.b32.nb))) ∧
  (∀ s t : State, exec .b32End s = .next t → t.lastCode = some .ok →
    t.b32.cause = s.b32.cause ∧ t.b32.klen = s.b32.klen ∧
    ∀ a, t.b32.kb.readByte a = s.b32.kb.readByte a) ∧
  (∀ (s t : State) (b : Byte), s.dt.db.wf = true → exec (.dtPush b) s = .next t → t.lastCode = some .ok →
    t.dt.st = s.dt.st ∧ t.dt.cause = s.dt.cause ∧ t.dt.digits = s.dt.digits ∧ t.dt.offset = s.dt.offset ∧
    t.dt.bincode = s.dt.bincode ∧ t.dt.otp = s.dt.otp ∧
    (∀ a, a ≠ s.dt.dlen.toNat → t.dt.db.readByte a = s.dt.db.readByte a) ∧
    ∀ a, t.dt.cb.readByte a = s.dt.cb.readByte a) ∧
  (∀ (s t : State) (d : Byte), s.dt.cb.wf = true → exec (.dtRun d) s = .next t → t.lastCode = some .ok →
    t.dt.cause = s.dt.cause ∧ t.dt.dlen = s.dt.dlen ∧
    (∀ a, t.dt.db.readByte a = s.dt.db.readByte a) ∧
    ∀ a, s.cfg.digitsMax.toNat ≤ a → t.dt.cb.readByte a = s.dt.cb.readByte a)

/-- R22, R25: the contents of `KB` show in no response unless the decode is done and the index is below `KLEN`, and the
contents of `DB` show in no response of any command but `DT.RUN`. -/
def Obligations.UnreadableBytesDoNotShow : Prop :=
  (∀ (i : Instr) (s : State) (m : Memory),
    (s.b32.st = .done → ∀ a, a < s.b32.klen.toNat → m.readByte a = s.b32.kb.readByte a) →
    answerOf (exec i { s with b32 := { s.b32 with kb := m } }) = answerOf (exec i s)) ∧
  (∀ (i : Instr) (s : State) (m : Memory), (∀ d, i ≠ .dtRun d) →
    answerOf (exec i { s with dt := { s.dt with db := m } }) = answerOf (exec i s))

/-! ### Buffers -/

/-- R38: a byte read is the byte last written at its index, and a write replaces that byte and no other. The rest is the
model's choice and not R38's, which says only that no index is ever out of range: that such an index is neither read nor
written (log entry 7, DESIGN CHOICE), and that a write keeps the canonical form and equal contents are equal data (log
entry 10, the form in which the model holds a buffer). -/
def Obligations.BuffersReadBackWhatWasWritten : Prop :=
  (∀ (size : Nat) (m : Memory) (i : Nat) (v : Byte),
    m.wf = true → m.within size = true → i < size →
    ∃ m', memWrite size m i v = some m' ∧ m'.wf = true ∧ m'.within size = true ∧
      ∀ j, j < size → memRead size m' j = if j = i then some v else memRead size m j) ∧
  (∀ (size : Nat) (m : Memory) (i : Nat) (v : Byte), size ≤ i →
    memRead size m i = none ∧ memWrite size m i v = none) ∧
  (∀ m m' : Memory, m.wf = true → m'.wf = true → (∀ a, m.readByte a = m'.readByte a) → m = m')

/-! ### Invariants -/

/-- R33 to R35: the invariant holds after reset, for every legal choice of the parameters. -/
def Obligations.InvariantHoldsAtReset : Prop :=
  (∀ c : Cfg, c.wellFormed = true → Inv (State.resetOf c)) ∧ Inv State.reset

/-- R34, R35, R15: every step keeps the invariant: the ranges of all registers, the relations between them in each
phase, the cleared error states, the canonical form of the three buffers and their zeros beyond the valid length. -/
def Obligations.EveryStepKeepsTheInvariant : Prop :=
  ∀ s t : State, Inv s → step s = .next t → Inv t

/-- R152 with R127: from a state that meets the invariant every input is carried out, so nothing waits and nothing hangs;
both `START` commands are answered `OK` in every state; in `DATA` and `PAD` no `B32.PUSH` and no `B32.END`, and in `LOAD`
no `DT.PUSH` and no `DT.RUN`, is turned away. R152 speaks there of every data command; the table of R127 rejects the
reads `B32.RDKEY` and `DT.RDCODE` in those states, so the reads are not meant. -/
def Obligations.EveryCommandWordIsAnswered : Prop :=
  (∀ s : State, Inv s → s.inputs ≠ [] → ∃ t, step s = .next t) ∧
  (∀ s : State, (∃ t, exec .b32Start s = .next t ∧ t.lastCode = some .ok) ∧
    ∃ t, exec .dtStart s = .next t ∧ t.lastCode = some .ok) ∧
  (∀ (s t : State) (i : Instr), (s.b32.st = .data ∨ s.b32.st = .pad) → ((∃ c, i = .b32Push c) ∨ i = .b32End) →
    exec i s = .next t → ∀ r, t.lastCode ≠ some (.rejection r)) ∧
  (∀ (s t : State) (i : Instr), s.dt.st = .load → ((∃ b, i = .dtPush b) ∨ ∃ d, i = .dtRun d) →
    exec i s = .next t → ∀ r, t.lastCode ≠ some (.rejection r))

/-- R34: with `vs` the symbols accepted since the last start or reset, the relation between them and `NB`, `KLEN`, `ACC`,
`CAUSE` and `KB` holds after reset and is kept by every step. -/
def Obligations.AcceptedSymbolsAreInTheStream : Prop :=
  (∀ c : Cfg, DecodeStream c (State.resetOf c).b32 []) ∧
  (∀ (s t : State) (vs : List SymVal) (x : Input) (rest : List Input),
    B32Inv s.cfg s.b32 → DecodeStream s.cfg s.b32 vs → s.inputs = x :: rest → step s = .next t →
    DecodeStream t.cfg t.b32 (acceptedAfter x t vs))

/-- R94: with `n` symbols accepted in `DATA`, the next symbol raises `KEY_OVERFLOW` exactly when it would complete byte
`KEY_MAX + 1`; so a run of symbols is accepted whole exactly when it completes at most `KEY_MAX` bytes, and the longest
such run has `(8·KEY_MAX + 7) / 5` symbols. -/
def Obligations.KeyOverflowExactlyAtCapacity : Prop :=
  (∀ (s : State) (vs : List SymVal) (c : Byte) (v : SymVal),
    B32Inv s.cfg s.b32 → DecodeStream s.cfg s.b32 vs → s.b32.st = .data → charClass c = .sym v →
    ∃ t, exec (.b32Push c) s = .next t ∧
      (t.lastCode = some (.unitError .keyOverflow) ↔ s.cfg.keyMax.toNat < 5 * (vs.length + 1) / 8)) ∧
  (∀ (s : State) (t : List Byte), t.all (fun c => (symbolOf c).isSome) = true →
    ((∃ u, feedCmds (.b32Start :: b32Text t) s = .next u ∧
        u.responses = s.responses ++ List.replicate (t.length + 1) (okResponse 0)) ↔
      5 * t.length / 8 ≤ s.cfg.keyMax.toNat)) ∧
  (∀ n keyMax : Nat, 5 * n / 8 ≤ keyMax ↔ n ≤ (8 * keyMax + 7) / 5)

/-! ### Streams of commands -/

/-- R49 (b): a B32 command and a DT command that are adjacent in the stream, in either order, may be swapped without
changing either response or the final units. -/
def Obligations.CommandsOfDifferentUnitsCommute : Prop :=
  ∀ (i j : Instr) (s t u : State),
    (unitOf i = some .b32 ∧ unitOf j = some .dt) ∨ (unitOf i = some .dt ∧ unitOf j = some .b32) →
    exec i s = .next t → exec j t = .next u →
    ∃ t' u', exec j s = .next t' ∧ exec i t' = .next u' ∧
      t'.lastResponse = u.lastResponse ∧ u'.lastResponse = t.lastResponse ∧ u'.b32 = u.b32 ∧ u'.dt = u.dt

/-- R148: in any interleaving, with register reads and illegal words anywhere, each unit ends, and answers, as if the
other unit's words were absent. -/
def Obligations.InterleavedStreamsAreIndependent : Prop :=
  ∀ (s t : State) (ws : List CmdWord) (k : UnitId),
    feed (ws.map Input.command) s = .next t →
    ∃ (rs rs' : List Response) (t' : State),
      t.responses = s.responses ++ rs ∧
      feed ((ws.filter (fun w => unitOfWord w = some k)).map Input.command) s = .next t' ∧
      t'.responses = s.responses ++ rs' ∧ rs' = responsesOf k ws rs ∧
      (k = .b32 → t'.b32 = t.b32) ∧ (k = .dt → t'.dt = t.dt)

/-- R92: `B32.START`, the pushes of a text and `B32.END`, from any state, compute the reference function: on a valid text
that fits every response is `OK`, the length is returned and the key is `B32Decode`; on an invalid one whose leading
symbols fit some push answers `DECODE_ERROR` and nothing can be read; where the leading symbols overflow, the push
that would write byte `KEY_MAX + 1` answers `KEY_OVERFLOW`. -/
def Obligations.DecodeCommandsComputeTheReference : Prop :=
  ∀ (s : State) (t : List Byte),
    (validText t = true → decodedLength t ≤ s.cfg.keyMax.toNat →
      ∃ (u : State) (key : List Byte), feedCmds (b32DecodeCmds t) s = .next u ∧
        u.responses = s.responses ++ List.replicate (t.length + 1) (okResponse 0) ++
          [okResponse (BitVec.ofNat 32 (decodedLength t))] ∧
        b32Decode t = some key ∧ key.length = decodedLength t ∧
        u.b32.st = .done ∧ u.b32.klen.toNat = decodedLength t ∧
        (∀ i, i < decodedLength t → u.b32.kb.readByte i = key.getD i 0) ∧ u.dt = s.dt) ∧
    (validText t = false → 5 * (leadingSymbols t).length / 8 ≤ s.cfg.keyMax.toNat →
      ∃ (j : Nat) (u : State), j < t.length ∧
        feedCmds (.b32Start :: b32Text (t.take (j + 1))) s = .next u ∧
        u.responses = s.responses ++ List.replicate (j + 1) (okResponse 0) ++ [errorResponse .decodeError] ∧
        u.b32.st = .err ∧ u.b32.cause = 8 ∧ u.dt = s.dt ∧
        ∀ i, ∃ u', exec (.b32Rdkey i) u = .next u' ∧ u'.lastCode = some (.rejection .badState)) ∧
    (s.cfg.keyMax.toNat < 5 * (leadingSymbols t).length / 8 →
      ∃ (j : Nat) (u : State), j < (leadingSymbols t).length ∧
        5 * j / 8 = s.cfg.keyMax.toNat ∧ 5 * (j + 1) / 8 = s.cfg.keyMax.toNat + 1 ∧
        feedCmds (.b32Start :: b32Text (t.take (j + 1))) s = .next u ∧
        u.responses = s.responses ++ List.replicate (j + 1) (okResponse 0) ++ [errorResponse .keyOverflow] ∧
        u.b32.st = .err ∧ u.b32.cause = 9 ∧ u.dt = s.dt)

/-- R101: `DT.START`, the pushes of a digest and `DT.RUN`, from any state, compute the reference function; a bad digit
count is reported whatever the digest, a digest too short for its offset next, and the push after `DIGEST_MAX` bytes
answers `DIGEST_OVERFLOW`. -/
def Obligations.TruncateCommandsComputeTheReference : Prop :=
  ∀ (s : State) (d : List Byte) (g : Byte),
    (d.length ≤ s.cfg.digestMax.toNat →
      (∀ r, g.toNat ≤ s.cfg.digitsMax.toNat → otpCode d g.toNat = some r →
        ∃ u : State, feedCmds (dtTrunc d g) s = .next u ∧
          u.responses = s.responses ++ List.replicate (d.length + 1) (okResponse 0) ++
            [okResponse (BitVec.ofNat 32 r.otp)] ∧
          u.dt.st = .done ∧ u.dt.offset.toNat = r.offset ∧ u.dt.bincode.toNat = r.binCode ∧
          u.dt.otp.toNat = r.otp ∧ u.dt.digits = g ∧ r.text.length = g.toNat ∧
          (∀ i, i < g.toNat → u.dt.cb.readByte i = r.text.getD i 0) ∧ u.b32 = s.b32) ∧
      (g.toNat = 0 ∨ s.cfg.digitsMax.toNat < g.toNat →
        ∃ u : State, feedCmds (dtTrunc d g) s = .next u ∧
          u.responses = s.responses ++ List.replicate (d.length + 1) (okResponse 0) ++
            [errorResponse .invalidConfig] ∧ u.b32 = s.b32) ∧
      (1 ≤ g.toNat → g.toNat ≤ s.cfg.digitsMax.toNat →
        d.length = 0 ∨ d.length < digestOffset d + 4 →
        ∃ u : State, feedCmds (dtTrunc d g) s = .next u ∧
          u.responses = s.responses ++ List.replicate (d.length + 1) (okResponse 0) ++
            [errorResponse .digestTooShort] ∧ u.b32 = s.b32)) ∧
    (s.cfg.digestMax.toNat < d.length →
      ∃ u : State, feedCmds (.dtStart :: dtDigest (d.take (s.cfg.digestMax.toNat + 1))) s = .next u ∧
        u.responses = s.responses ++ List.replicate (s.cfg.digestMax.toNat + 1) (okResponse 0) ++
          [errorResponse .digestOverflow] ∧ u.b32 = s.b32)

/-! ### The reference functions -/

/-- R87, R71: the classes of all 256 character codes, by code ranges and in number, and the value of every symbol: its
index in the alphabet `A–Z2–7`, lower case as upper case; `Val` itself has no value for a lower-case code. -/
def Obligations.CharacterClassesByRange : Prop :=
  (∀ c : Byte,
    ((∃ v, charClass c = .sym v) ↔
      (0x32 ≤ c.toNat ∧ c.toNat ≤ 0x37) ∨ (0x41 ≤ c.toNat ∧ c.toNat ≤ 0x5A) ∨
        (0x61 ≤ c.toNat ∧ c.toNat ≤ 0x7A)) ∧
    (charClass c = .pad ↔ c = 0x3D) ∧
    (charClass c = .inv ↔
      c.toNat ≤ 0x31 ∨ (0x38 ≤ c.toNat ∧ c.toNat ≤ 0x3C) ∨ (0x3E ≤ c.toNat ∧ c.toNat ≤ 0x40) ∨
        (0x5B ≤ c.toNat ∧ c.toNat ≤ 0x60) ∨ 0x7B ≤ c.toNat) ∧
    (∀ v, charClass c = .sym v ↔ symbolValue (foldCase c) = some v)) ∧
  (∀ (c : Byte) (v : SymVal), charClass c = .sym v →
    (0x41 ≤ c.toNat → c.toNat ≤ 0x5A → v.toNat = c.toNat - 0x41) ∧
    (0x61 ≤ c.toNat → c.toNat ≤ 0x7A → v.toNat = c.toNat - 0x61) ∧
    (0x32 ≤ c.toNat → c.toNat ≤ 0x37 → v.toNat = c.toNat - 0x32 + 26)) ∧
  (∀ c : Byte, (symbolValue c).map BitVec.toNat =
    if 0x41 ≤ c.toNat ∧ c.toNat ≤ 0x5A then some (c.toNat - 0x41)
    else if 0x32 ≤ c.toNat ∧ c.toNat ≤ 0x37 then some (c.toNat - 0x32 + 26) else none) ∧
  Nat.card { c : Byte // ∃ v, charClass c = .sym v } = 58 ∧
  Nat.card { c : Byte // charClass c = .inv } = 197

/-- R73: `Strip(t)` is the longest initial part of the text that does not end in `=`, and the text is it followed by pads;
so a trailing pad run of any length contributes nothing to the decode. -/
def Obligations.PadRunContributesNothing : Prop :=
  (∀ t : List Byte, ∃ k, t = stripPads t ++ List.replicate k padChar) ∧
  (∀ t : List Byte, (stripPads t).getLast? ≠ some padChar) ∧
  (∀ (t : List Byte) (n : Nat), (t.take n).getLast? ≠ some padChar →
    (t.take n).length ≤ (stripPads t).length) ∧
  (∀ (t : List Byte) (k : Nat), b32Decode (t ++ List.replicate k padChar) = b32Decode t)

/-- R74, C2: a `=` with a character other than `=` anywhere after it makes the text invalid. -/
def Obligations.InteriorPadIsAnError : Prop :=
  ∀ (p q : List Byte) (c : Byte), c ∈ q → c ≠ padChar → b32Decode (p ++ padChar :: q) = none

/-- R77, R78: the empty text, a text of pads alone and a single symbol decode to no bytes, and nothing but the characters
is checked: every list of symbols decodes, whatever its number, its dropped bits and its pad run; `MZ` and `MY` decode
to the same byte. -/
def Obligations.NothingButTheCharactersIsChecked : Prop :=
  (∀ k : Nat, b32Decode (List.replicate k padChar) = some []) ∧
  (∀ c : Byte, (symbolOf c).isSome = true → b32Decode [c] = some []) ∧
  (∀ (t : List Byte) (k : Nat), t.all (fun c => (symbolOf c).isSome) = true →
    ∃ out, b32Decode (t ++ List.replicate k padChar) = some out ∧ out.length = 5 * t.length / 8) ∧
  b32Decode [0x4D, 0x5A] = some [0x66] ∧ b32Decode [0x4D, 0x59] = some [0x66]

/-- R85: the source's testable properties over the reference functions. -/
def Obligations.SourcePropertiesOfTheFunctions : Prop :=
  (∀ (t out : List Byte), b32Decode t = some out → (∀ c ∈ t, c ≠ padChar) → out.length = 5 * t.length / 8) ∧
  b32Decode [] = some [] ∧
  (∀ t : List Byte, b32Decode t = b32Decode (t.map foldCase)) ∧
  (∀ (t : List Byte) (c : Byte), c ∈ t →
    ¬ ((0x41 ≤ c.toNat ∧ c.toNat ≤ 0x5A) ∨ (0x61 ≤ c.toNat ∧ c.toNat ≤ 0x7A) ∨
      (0x32 ≤ c.toNat ∧ c.toNat ≤ 0x37) ∨ c.toNat = 0x3D) → b32Decode t = none) ∧
  (∀ v d : Nat, (formatDigits v d).length = d)

/-- R75: the decoded bytes are the big-endian representation of the symbols, read as one base-32 number, less the
`5n mod 8` dropped bits. -/
def Obligations.DecodedBytesAreTheSymbolNumber : Prop :=
  ∀ (t out : List Byte), b32Decode t = some out →
    (symbolsOf t).length = (stripPads t).length ∧ out.length = decodedLength t ∧
    bigEndian out = base32Number (symbolsOf t) / 2 ^ (5 * (stripPads t).length % 8)

/-- R79, R80: the code of a digest is the big-endian number of the four bytes at the offset in the low nibble of its last
byte, without the top bit, so it is below 2^31; its reduction is below `10^digits` and no greater than the code, and is
the code itself for 10 digits or more. -/
def Obligations.TruncationAndReduction : Prop :=
  (∀ (d : List Byte) (o : Nat),
    o = (d.getD (d.length - 1) 0).toNat % 16 → 1 ≤ d.length → o + 4 ≤ d.length →
    digestOffset d = o ∧ dynTrunc d < 2 ^ 31 ∧
    dynTrunc d = (d.getD o 0).toNat % 128 * 2 ^ 24 + (d.getD (o + 1) 0).toNat * 2 ^ 16 +
      (d.getD (o + 2) 0).toNat * 2 ^ 8 + (d.getD (o + 3) 0).toNat) ∧
  (∀ b digits : Nat,
    otpReduce b digits = b % 10 ^ digits ∧ otpReduce b digits < 10 ^ digits ∧ otpReduce b digits ≤ b) ∧
  (∀ b digits : Nat, b < 2 ^ 31 → 10 ≤ digits → otpReduce b digits = b)

/-- R81: the rendering has exactly `digits` characters, each 0x30 to 0x39, and as a decimal numeral it is the value: no
digit is lost and leading zeros are kept; 42 in six digits is `000042`. -/
def Obligations.RenderingIsTheDecimalNumeral : Prop :=
  (∀ v digits : Nat, v < 10 ^ digits →
    (formatDigits v digits).length = digits ∧
    (∀ c ∈ formatDigits v digits, 0x30 ≤ c.toNat ∧ c.toNat ≤ 0x39) ∧
    decimalNumber (formatDigits v digits) = v ∧
    ∀ i, i < digits →
      ((formatDigits v digits).getD i 0).toNat = 0x30 + v / 10 ^ (digits - 1 - i) % 10) ∧
  formatDigits 42 6 = [0x30, 0x30, 0x30, 0x30, 0x34, 0x32]

/-! ### The host's pipeline -/

/-- R110: the two forms of the counter agree, it does not decrease as time advances, and it is the same for all
timestamps of one period window. -/
def Obligations.CounterForms : Prop :=
  (∀ ms period : Nat, 1 ≤ period → totpCounter ms period = ms / 1000 / period) ∧
  (∀ ms ms' period : Nat, 1 ≤ period → ms ≤ ms' → totpCounter ms period ≤ totpCounter ms' period) ∧
  (∀ ms k period : Nat, 1 ≤ period → k * (1000 * period) ≤ ms → ms < (k + 1) * (1000 * period) →
    totpCounter ms period = k)

/-- R111: the encoding of a counter below 2^64 is eight bytes, most significant first, and represents it. -/
def Obligations.CounterEncodingIsBigEndian : Prop :=
  (∀ c : Nat, c < 2 ^ 64 → (encodeCounter c).length = 8 ∧ bigEndian (encodeCounter c) = c ∧
    ∀ i, i < 8 → ((encodeCounter c).getD i 0).toNat = c / 2 ^ (8 * (7 - i)) % 256) ∧
  encodeCounter 1 = [0, 0, 0, 0, 0, 0, 0, 1] ∧
  encodeCounter 37037036 = [0, 0, 0, 0, 0x02, 0x35, 0x23, 0xEC]

/-- R117: for a fixed secret and period the result is the same at all timestamps of one period window. -/
def Obligations.CodeIsConstantInAWindow : Prop :=
  ∀ (hmac : Hmac) (now : Int) (text : List Byte) (o : TotpOptions) (s : State) (t1 t2 : Nat),
    0 < o.period → t1 / 1000 / o.period.toNat = t2 / 1000 / o.period.toNat →
    generateTotp hmac now text { o with timestamp := some (t1 : Int) } s =
      generateTotp hmac now text { o with timestamp := some (t2 : Int) } s

/-- R116: from any state of the block the command sequence of the pipeline yields the rendered code of the HMAC of the
decoded secret and the encoded counter; an invalid secret fails with `DECODE_ERROR` and an unknown algorithm with
`UnsupportedAlgorithm` (R113), and neither produces a code. That a digit count of 0 passes the host's check and fails
with the block's `INVALID_CONFIG` is the model's choice (log entry 12, DESIGN CHOICE): R114 says that the block rejects 0
itself and leaves open whether the host refuses it before. -/
def Obligations.PipelineComputesTheCode : Prop :=
  ∀ (hmac : Hmac) (now : Int) (text : List Byte) (o : TotpOptions) (s : State),
    hostCheck s.cfg now o = .ok () →
    (∀ (key digest : List Byte) (r : OtpResult),
      b32Decode text = some key → key.length ≤ s.cfg.keyMax.toNat →
      hmac o.algorithm key (encodeCounter (totpCounter (totpMoment now o).toNat o.period.toNat)) = some digest →
      digest.length ≤ s.cfg.digestMax.toNat → otpCode digest o.digits.toNat = some r →
      generateTotp hmac now text o s = .ok r.text ∧ r.text.length = o.digits.toNat) ∧
    (b32Decode text = none → 5 * (leadingSymbols text).length / 8 ≤ s.cfg.keyMax.toNat →
      generateTotp hmac now text o s = .error (.block (.unitError .decodeError))) ∧
    (∀ key : List Byte, b32Decode text = some key → key.length ≤ s.cfg.keyMax.toNat →
      hmac o.algorithm key (encodeCounter (totpCounter (totpMoment now o).toNat o.period.toNat)) = none →
      generateTotp hmac now text o s = .error .unsupportedAlgorithm) ∧
    (∀ key digest : List Byte, b32Decode text = some key → key.length ≤ s.cfg.keyMax.toNat →
      hmac o.algorithm key (encodeCounter (totpCounter (totpMoment now o).toNat o.period.toNat)) = some digest →
      digest.length ≤ s.cfg.digestMax.toNat → o.digits = 0 →
      generateTotp hmac now text o s = .error (.block (.unitError .invalidConfig)))

/-! ### The assembler -/

/-- R62: an operand above 255, and an operand on `B32.START`, `B32.END` or `DT.START`, is an assembly error; any other
number is the operand, as it stands, of the command the mnemonic names; the three examples of the rule (sanity). -/
def Obligations.AssemblerRefusesBadOperands : Prop :=
  (∀ (m : Mnemonic) (n : Nat), 255 < n → assemble { op := m, arg := some (.num n) } = none) ∧
  (∀ (m : Mnemonic) (a : AsmOperand), m = .b32Start ∨ m = .b32End ∨ m = .dtStart →
    assemble { op := m, arg := some a } = none) ∧
  (∀ (m : Mnemonic) (n : Nat), n ≤ 255 → m ≠ .b32Start → m ≠ .b32End → m ≠ .dtStart →
    ∃ i, assemble { op := m, arg := some (.num n) } = some i ∧ mnemonicOf i = m ∧ (encode i).toNat % 4096 = n) ∧
  assembleProgram ["b32.push 'M'", "dt.run 6", "rdreg DT_OTP"] = some [0x204D, 0x7006, 0x9006]
end

