-- ==== Sys2Proof/Laws/Memory.lean ====
section
/-! SUPPORT. What the buffer operations do: a write is read back, leaves every other index, and keeps the canonical form
(20_memory.md R38). -/

namespace Sys2Proof.Machine

@[simp] theorem Memory.readByte_nil (a : Nat) : Memory.readByte [] a = 0 := rfl

@[simp] theorem Memory.wf_nil : Memory.wf [] = true := rfl

@[simp] theorem Memory.within_nil (n : Nat) : Memory.within n [] = true := rfl

@[simp] theorem Memory.filled_zero (n : Nat) : Memory.filled n 0 = [] := rfl

theorem Memory.wf_cons {a : Nat} {v : Byte} {m : Memory} :
    Memory.wf ((a, v) :: m) = true ↔ v ≠ 0 ∧ (∀ c ∈ m, a < c.1) ∧ m.wf = true := by
  simp [Memory.wf, and_assoc]

theorem Memory.within_cons {n a : Nat} {v : Byte} {m : Memory} :
    Memory.within n ((a, v) :: m) = true ↔ a < n ∧ m.within n = true := by
  simp [Memory.within]

theorem Memory.within_iff {n : Nat} {m : Memory} : m.within n = true ↔ ∀ c ∈ m, c.1 < n := by
  simp [Memory.within]

theorem Memory.within_mono {n k : Nat} {m : Memory} (h : m.within n = true) (hk : n ≤ k) :
    m.within k = true := by
  rw [Memory.within_iff] at *
  exact fun c hc => lt_of_lt_of_le (h c hc) hk

/-- An index below every listed one reads as 0. -/
theorem Memory.readByte_below {m : Memory} {a : Nat} (h : ∀ c ∈ m, a < c.1) : m.readByte a = 0 := by
  cases m with
  | nil => rfl
  | cons c m => simp [Memory.readByte, h c List.mem_cons_self]

/-- An index at or beyond the bound reads as 0. -/
theorem Memory.readByte_beyond {n : Nat} {m : Memory} (h : m.within n = true) {a : Nat} (ha : n ≤ a) :
    m.readByte a = 0 := by
  induction m with
  | nil => rfl
  | cons c m ih =>
    obtain ⟨b, v⟩ := c
    obtain ⟨hb, hm⟩ := Memory.within_cons.mp h
    simp only [Memory.readByte]
    rw [if_neg (by omega), if_neg (by omega)]
    exact ih hm

theorem Memory.mem_writeByte {m : Memory} {a : Nat} {v : Byte} {c : Host.Cell} (h : c ∈ m.writeByte a v) :
    c = (a, v) ∧ v ≠ 0 ∨ c ∈ m := by
  induction m with
  | nil =>
    simp only [Memory.writeByte] at h
    split at h <;> simp_all
  | cons d m ih =>
    obtain ⟨b, w⟩ := d
    simp only [Memory.writeByte] at h
    split_ifs at h with h1 h2 h3 h4
    · exact .inr h
    · rcases List.mem_cons.mp h with rfl | h
      · exact .inl ⟨rfl, h2⟩
      · exact .inr h
    · exact .inr (List.mem_cons_of_mem _ h)
    · rcases List.mem_cons.mp h with rfl | h
      · exact .inl ⟨rfl, h4⟩
      · exact .inr (List.mem_cons_of_mem _ h)
    · rcases List.mem_cons.mp h with rfl | h
      · exact .inr List.mem_cons_self
      · exact (ih h).imp_right (List.mem_cons_of_mem _)

/-- A write keeps the canonical form. -/
theorem Memory.writeByte_wf {m : Memory} (h : m.wf = true) (a : Nat) (v : Byte) :
    (m.writeByte a v).wf = true := by
  induction m with
  | nil =>
    simp only [Memory.writeByte]
    split
    · rfl
    · simpa [Memory.wf] using ‹_›
  | cons d m ih =>
    obtain ⟨b, w⟩ := d
    obtain ⟨hw, hlt, hm⟩ := Memory.wf_cons.mp h
    simp only [Memory.writeByte]
    split_ifs with h1 h2 h3 h4
    · exact h
    · refine Memory.wf_cons.mpr ⟨h2, ?_, h⟩
      intro c hc
      rcases List.mem_cons.mp hc with rfl | hc
      · exact h1
      · exact h1.trans (hlt c hc)
    · exact hm
    · subst h3
      exact Memory.wf_cons.mpr ⟨h4, hlt, hm⟩
    · refine Memory.wf_cons.mpr ⟨hw, ?_, ih hm⟩
      intro c hc
      rcases Memory.mem_writeByte hc with ⟨rfl, -⟩ | hc
      · simp only; omega
      · exact hlt c hc

/-- A write below the bound keeps every listed index below it. -/
theorem Memory.writeByte_within {n : Nat} {m : Memory} (h : m.within n = true) {a : Nat} (ha : a < n) (v : Byte) :
    (m.writeByte a v).within n = true := by
  rw [Memory.within_iff] at *
  intro c hc
  rcases Memory.mem_writeByte hc with ⟨rfl, -⟩ | hc
  · exact ha
  · exact h c hc

/-- A write of 0 keeps every listed index below the bound, wherever it goes. -/
theorem Memory.writeByte_zero_within {n : Nat} {m : Memory} (h : m.within n = true) (a : Nat) :
    (m.writeByte a 0).within n = true := by
  rw [Memory.within_iff] at *
  intro c hc
  rcases Memory.mem_writeByte hc with ⟨-, h0⟩ | hc
  · exact absurd rfl h0
  · exact h c hc

/-- A byte read is the byte last written at its index. -/
theorem Memory.readByte_writeByte {m : Memory} (h : m.wf = true) (a b : Nat) (v : Byte) :
    (m.writeByte a v).readByte b = if b = a then v else m.readByte b := by
  induction m with
  | nil =>
    by_cases hv : v = 0
    · simp [Memory.writeByte, hv]
    · simp only [Memory.writeByte, if_neg hv, Memory.readByte]
      split_ifs <;> first | rfl | omega
  | cons d m ih =>
    obtain ⟨e, w⟩ := d
    obtain ⟨hw, hlt, hm⟩ := Memory.wf_cons.mp h
    have hbelow : ∀ b, b ≤ e → Memory.readByte m b = 0 := fun b hb =>
      Memory.readByte_below (fun c hc => lt_of_le_of_lt hb (hlt c hc))
    simp only [Memory.writeByte]
    split_ifs with h1 h2 h3 h4 <;> try simp only [Memory.readByte]
    all_goals try split_ifs
    all_goals
      first
        | rfl
        | omega
        | (subst_vars; first | rfl | omega | exact hbelow _ (by omega) | (rw [hbelow _ (by omega)]) | (rw [ih hm]; simp [*]))

/-- Equal contents are equal data. -/
theorem Memory.ext_readByte {m m' : Memory} (h : m.wf = true) (h' : m'.wf = true)
    (heq : ∀ a, m.readByte a = m'.readByte a) : m = m' := by
  induction m generalizing m' with
  | nil =>
    cases m' with
    | nil => rfl
    | cons d m' =>
      obtain ⟨b, w⟩ := d
      have := heq b
      simp [Memory.readByte] at this
      exact absurd this.symm (Memory.wf_cons.mp h').1
  | cons c m ih =>
    obtain ⟨a, v⟩ := c
    obtain ⟨hv, hlt, hm⟩ := Memory.wf_cons.mp h
    cases m' with
    | nil =>
      have := heq a
      simp [Memory.readByte] at this
      exact absurd this hv
    | cons d m' =>
      obtain ⟨b, w⟩ := d
      obtain ⟨hw, hlt', hm'⟩ := Memory.wf_cons.mp h'
      have hab : a = b := by
        rcases lt_trichotomy a b with hlt | rfl | hlt
        · have := heq a
          simp [Memory.readByte, hlt] at this
          exact absurd this hv
        · rfl
        · have := heq b
          simp [Memory.readByte, hlt] at this
          exact absurd this.symm hw
      subst hab
      have hvw : v = w := by simpa [Memory.readByte] using heq a
      subst hvw
      congr 1
      refine ih hm hm' (fun x => ?_)
      by_cases hx : x ≤ a
      · rw [Memory.readByte_below (fun c hc => lt_of_le_of_lt hx (hlt c hc)),
          Memory.readByte_below (fun c hc => lt_of_le_of_lt hx (hlt' c hc))]
      · have := heq x
        simpa [Memory.readByte, show ¬ x < a by omega, show ¬ x = a by omega] using this

/-! ### Bounded access -/

theorem memRead_of_lt {size i : Nat} (m : Memory) (h : i < size) : memRead size m i = some (m.readByte i) := by
  simp [memRead, h]

theorem memRead_of_le {size i : Nat} (m : Memory) (h : size ≤ i) : memRead size m i = none := by
  simp [memRead, h]

theorem memWrite_of_lt {size i : Nat} (m : Memory) (v : Byte) (h : i < size) :
    memWrite size m i v = some (m.writeByte i v) := by
  simp [memWrite, h]

theorem memWrite_of_le {size i : Nat} (m : Memory) (v : Byte) (h : size ≤ i) : memWrite size m i v = none := by
  simp [memWrite, h]

theorem memRead_eq_some {size i : Nat} {m : Memory} {b : Byte} :
    memRead size m i = some b ↔ i < size ∧ b = m.readByte i := by
  simp only [memRead]
  split <;> simp_all [eq_comm]

theorem memWrite_eq_some {size i : Nat} {m m' : Memory} {v : Byte} :
    memWrite size m i v = some m' ↔ i < size ∧ m' = m.writeByte i v := by
  simp only [memWrite]
  split <;> simp_all [eq_comm]

/-! ### The writing of `CB` (42_dt_commands.md R98) -/

theorem renderCode_succ (n : Nat) (cb : Memory) (v d : Nat) :
    renderCode (n + 1) cb v d = (renderCode n cb v d).writeByte n (codeByte v d n) := by
  simp [renderCode, List.range_succ]

/-- The writing of `CB` keeps the canonical form. -/
theorem renderCode_wf {cb : Memory} (h : cb.wf = true) (n v d : Nat) : (renderCode n cb v d).wf = true := by
  induction n with
  | zero => simpa [renderCode] using h
  | succ n ih => rw [renderCode_succ]; exact Memory.writeByte_wf ih _ _

/-- Below the buffer's size the characters stand, elsewhere nothing changes. -/
theorem renderCode_readByte {cb : Memory} (h : cb.wf = true) (n v d i : Nat) :
    (renderCode n cb v d).readByte i = if i < n then codeByte v d i else cb.readByte i := by
  induction n with
  | zero => simp [renderCode]
  | succ n ih =>
    rw [renderCode_succ, Memory.readByte_writeByte (renderCode_wf h n v d), ih]
    split_ifs <;> first | rfl | omega | simp_all

/-- From an empty buffer, nothing is listed from the digit count on. -/
theorem renderCode_within (n v d : Nat) : (renderCode n [] v d).within d = true := by
  induction n with
  | zero => rfl
  | succ n ih =>
    rw [renderCode_succ]
    by_cases hn : n < d
    · exact Memory.writeByte_within ih hn _
    · rw [codeByte, if_neg hn]
      exact Memory.writeByte_zero_within ih n

end Sys2Proof.Machine
end

