-- ==== Sys2Proof/Laws/State.lean ====
section
/-! SUPPORT. One lemma per field per update of State, and what clearing makes of a unit. -/

namespace Sys2Proof.Machine

section Respond
variable (rc : RetCode) (data : Word32) (s : State)

@[simp] theorem State.respond_cfg : (s.respond rc data).cfg = s.cfg := rfl
@[simp] theorem State.respond_b32 : (s.respond rc data).b32 = s.b32 := rfl
@[simp] theorem State.respond_dt : (s.respond rc data).dt = s.dt := rfl
@[simp] theorem State.respond_inputs : (s.respond rc data).inputs = s.inputs := rfl
@[simp] theorem State.respond_responses :
    (s.respond rc data).responses = s.responses ++ [{ rc := rc, rdata := data }] := rfl

end Respond

section Reject
variable (r : Rejection) (s : State)

@[simp] theorem State.reject_cfg : (s.reject r).cfg = s.cfg := rfl
@[simp] theorem State.reject_b32 : (s.reject r).b32 = s.b32 := rfl
@[simp] theorem State.reject_dt : (s.reject r).dt = s.dt := rfl
@[simp] theorem State.reject_inputs : (s.reject r).inputs = s.inputs := rfl
@[simp] theorem State.reject_responses :
    (s.reject r).responses = s.responses ++ [{ rc := .rejection r, rdata := 0 }] := rfl

end Reject

section Input
variable (s : State) (x : Input)

@[simp] theorem State.takeInput_cfg : s.takeInput.cfg = s.cfg := rfl
@[simp] theorem State.takeInput_b32 : s.takeInput.b32 = s.b32 := rfl
@[simp] theorem State.takeInput_dt : s.takeInput.dt = s.dt := rfl
@[simp] theorem State.takeInput_inputs : s.takeInput.inputs = s.inputs.tail := rfl
@[simp] theorem State.takeInput_responses : s.takeInput.responses = s.responses := rfl

@[simp] theorem State.hand_cfg : (s.hand x).cfg = s.cfg := rfl
@[simp] theorem State.hand_b32 : (s.hand x).b32 = s.b32 := rfl
@[simp] theorem State.hand_dt : (s.hand x).dt = s.dt := rfl
@[simp] theorem State.hand_inputs : (s.hand x).inputs = x :: s.inputs := rfl
@[simp] theorem State.hand_responses : (s.hand x).responses = s.responses := rfl

/-- Handing an input and taking it gives the state back. -/
@[simp] theorem State.takeInput_hand : (s.hand x).takeInput = s := rfl

end Input

/-! ### Clearing (10_state.md R32) -/

/-- What `B32Clear` makes of the unit, whatever the parameters. -/
theorem B32Unit.clear_eq (c : Cfg) (st : B32Phase) (k : BitVec 4) :
    B32Unit.clear c st k = { st := st, cause := k, acc := 0, nb := 0, klen := 0, kb := [] } := rfl

/-- What `DTClear` makes of the unit, whatever the parameters. -/
theorem DtUnit.clear_eq (c : Cfg) (st : DtPhase) (k : BitVec 4) :
    DtUnit.clear c st k =
      { st := st, cause := k, dlen := 0, db := [], digits := 0, offset := 0, bincode := 0, otp := 0, cb := [] } := rfl

/-- `B32.START` makes the reset state of the unit. -/
@[simp] theorem B32Unit.start_eq (c : Cfg) : B32Unit.start c = B32Unit.reset := rfl

/-- `DT.START` makes the reset state of the unit. -/
@[simp] theorem DtUnit.start_eq (c : Cfg) : DtUnit.start c = DtUnit.reset := rfl

section ResetEvent
variable (s : State)

@[simp] theorem State.resetEvent_cfg : s.resetEvent.cfg = s.cfg := rfl
@[simp] theorem State.resetEvent_b32 : s.resetEvent.b32 = B32Unit.reset := rfl
@[simp] theorem State.resetEvent_dt : s.resetEvent.dt = DtUnit.reset := rfl
@[simp] theorem State.resetEvent_inputs : s.resetEvent.inputs = s.inputs := rfl
@[simp] theorem State.resetEvent_responses : s.resetEvent.responses = s.responses := rfl

end ResetEvent

/-! ### The entry into an error state (60_exceptions.md R128) -/

section Raise
variable (e : UnitErr) (s : State)

@[simp] theorem State.raiseUnitError_cfg : (s.raiseUnitError e).cfg = s.cfg := by cases e <;> rfl
@[simp] theorem State.raiseUnitError_inputs : (s.raiseUnitError e).inputs = s.inputs := by cases e <;> rfl
@[simp] theorem State.raiseUnitError_responses :
    (s.raiseUnitError e).responses = s.responses ++ [{ rc := .unitError e, rdata := 0 }] := by cases e <;> rfl

theorem State.raiseUnitError_b32 (h : e.unit = .b32) :
    (s.raiseUnitError e).b32 = B32Unit.clear s.cfg .err e.code ∧ (s.raiseUnitError e).dt = s.dt := by
  simp [State.raiseUnitError, h]

theorem State.raiseUnitError_dt (h : e.unit = .dt) :
    (s.raiseUnitError e).dt = DtUnit.clear s.cfg .err e.code ∧ (s.raiseUnitError e).b32 = s.b32 := by
  simp [State.raiseUnitError, h]

end Raise

end Sys2Proof.Machine
end

