-- ==== Sys2Proof/Laws/Ops.lean ====
section
/-! SUPPORT. What a command can do: one inversion lemma for each way a command ends, and one for each command of a unit,
which later proofs cite instead of unfolding the commands. -/

namespace Sys2Proof.Machine

/-! ### Ending a command (60_exceptions.md R122) -/

/-- A B32 command that answers: success, rejection or unit error, and the state it then leaves. -/
theorem finishB32_next {s t : State} {r : CmdResult B32Unit} (h : s.finishB32 r = .next t) :
    (∃ u data, r = .success u data ∧ t = { s with b32 := u }.respond .ok data) ∨
    (∃ j, r = .rejected j ∧ t = s.reject j) ∨ (∃ e, r = .unitError e ∧ t = s.raiseUnitError e) := by
  cases r with
  | success u data => exact .inl ⟨u, data, rfl, by simpa [State.finishB32] using h.symm⟩
  | rejected j => exact .inr (.inl ⟨j, rfl, by simpa [State.finishB32] using h.symm⟩)
  | unitError e => exact .inr (.inr ⟨e, rfl, by simpa [State.finishB32] using h.symm⟩)
  | badAccess b => simp [State.finishB32] at h

/-- A DT command that answers: success, rejection or unit error, and the state it then leaves. -/
theorem finishDt_next {s t : State} {r : CmdResult DtUnit} (h : s.finishDt r = .next t) :
    (∃ u data, r = .success u data ∧ t = { s with dt := u }.respond .ok data) ∨
    (∃ j, r = .rejected j ∧ t = s.reject j) ∨ (∃ e, r = .unitError e ∧ t = s.raiseUnitError e) := by
  cases r with
  | success u data => exact .inl ⟨u, data, rfl, by simpa [State.finishDt] using h.symm⟩
  | rejected j => exact .inr (.inl ⟨j, rfl, by simpa [State.finishDt] using h.symm⟩)
  | unitError e => exact .inr (.inr ⟨e, rfl, by simpa [State.finishDt] using h.symm⟩)
  | badAccess b => simp [State.finishDt] at h

/-- A register read always answers, and changes nothing but the responses. -/
theorem finishRead_next {s t : State} {r : Except Rejection Word32} (h : s.finishRead r = .next t) :
    (∃ data, r = .ok data ∧ t = s.respond .ok data) ∨ (∃ j, r = .error j ∧ t = s.reject j) := by
  cases r with
  | ok data => exact .inl ⟨data, rfl, by simpa [State.finishRead] using h.symm⟩
  | error j => exact .inr ⟨j, rfl, by simpa [State.finishRead] using h.symm⟩

/-! ### Unit B32 (41_b32_commands.md) -/

/-- R89: a symbol that completes no byte. -/
theorem pushSymbol_short {c : Cfg} {u : B32Unit} {v : SymVal} (h : u.nb.toNat < 3) :
    pushSymbol c u v =
      .success { u with acc := BitVec.ofNat 7 (u.acc.toNat * 32 + v.toNat), nb := BitVec.ofNat 3 (u.nb.toNat + 5) } 0 := by
  simp [pushSymbol, show u.nb.toNat + 5 < 8 by omega]

/-- R89: a symbol that would complete a byte while the buffer is full. -/
theorem pushSymbol_full {c : Cfg} {u : B32Unit} {v : SymVal} (h : 3 ≤ u.nb.toNat) (hk : u.klen = c.keyMax) :
    pushSymbol c u v = .unitError .keyOverflow := by
  simp [pushSymbol, show ¬ u.nb.toNat + 5 < 8 by omega, hk]

/-- R89: a symbol that completes a byte and finds room for it. -/
theorem pushSymbol_byte {c : Cfg} {u : B32Unit} {v : SymVal} (h : 3 ≤ u.nb.toNat)
    (hk : u.klen.toNat < c.keyMax.toNat) :
    pushSymbol c u v =
      .success
        { u with
          kb := u.kb.writeByte u.klen.toNat
            (BitVec.ofNat 8 ((u.acc.toNat * 32 + v.toNat) / 2 ^ (u.nb.toNat - 3)))
          klen := u.klen + 1
          acc := BitVec.ofNat 7 ((u.acc.toNat * 32 + v.toNat) % 2 ^ (u.nb.toNat - 3))
          nb := BitVec.ofNat 3 (u.nb.toNat - 3) } 0 := by
  have hne : u.klen ≠ c.keyMax := fun h => by simp [h] at hk
  have hn : u.nb.toNat + 5 - 8 = u.nb.toNat - 3 := by omega
  simp [pushSymbol, show ¬ u.nb.toNat + 5 < 8 by omega, hne, hn, Buffer.size, memWrite_of_lt, hk,
    Nat.shiftRight_eq_div_pow]

/-- Everything `B32.PUSH` of a symbol in `DATA` can do when it does not stop. -/
theorem pushSymbol_cases (c : Cfg) (u : B32Unit) (v : SymVal) :
    (u.nb.toNat < 3 ∧ pushSymbol c u v =
      .success { u with acc := BitVec.ofNat 7 (u.acc.toNat * 32 + v.toNat), nb := BitVec.ofNat 3 (u.nb.toNat + 5) } 0) ∨
    (3 ≤ u.nb.toNat ∧ u.klen = c.keyMax ∧ pushSymbol c u v = .unitError .keyOverflow) ∨
    (3 ≤ u.nb.toNat ∧ u.klen.toNat < c.keyMax.toNat ∧ pushSymbol c u v =
      .success
        { u with
          kb := u.kb.writeByte u.klen.toNat
            (BitVec.ofNat 8 ((u.acc.toNat * 32 + v.toNat) / 2 ^ (u.nb.toNat - 3)))
          klen := u.klen + 1
          acc := BitVec.ofNat 7 ((u.acc.toNat * 32 + v.toNat) % 2 ^ (u.nb.toNat - 3))
          nb := BitVec.ofNat 3 (u.nb.toNat - 3) } 0) ∨
    (3 ≤ u.nb.toNat ∧ c.keyMax.toNat < u.klen.toNat ∧ pushSymbol c u v = .badAccess .kb) := by
  by_cases h : u.nb.toNat < 3
  · exact .inl ⟨h, pushSymbol_short h⟩
  · have h3 : 3 ≤ u.nb.toNat := by omega
    rcases lt_trichotomy u.klen.toNat c.keyMax.toNat with hk | hk | hk
    · exact .inr (.inr (.inl ⟨h3, hk, pushSymbol_byte h3 hk⟩))
    · have hk' : u.klen = c.keyMax := BitVec.eq_of_toNat_eq hk
      exact .inr (.inl ⟨h3, hk', pushSymbol_full h3 hk'⟩)
    · refine .inr (.inr (.inr ⟨h3, hk, ?_⟩))
      have hne : u.klen ≠ c.keyMax := fun h => by simp [h] at hk
      have hle : ¬ u.klen.toNat < c.keyMax.toNat := by omega
      simp [pushSymbol, show ¬ u.nb.toNat + 5 < 8 by omega, hne, Buffer.size, memWrite, hle]

/-- R91: everything `B32.RDKEY` can do when it does not stop; the unit never changes. -/
theorem b32Rdkey_cases (c : Cfg) (u : B32Unit) (i : Byte) :
    (u.st ≠ .done ∧ b32Rdkey c u i = .rejected .badState) ∨
    (u.st = .done ∧ u.klen.toNat ≤ i.toNat ∧ b32Rdkey c u i = .rejected .badIndex) ∨
    (u.st = .done ∧ i.toNat < u.klen.toNat ∧ i.toNat < c.keyMax.toNat ∧
      b32Rdkey c u i = .success u (zext32 (u.kb.readByte i.toNat))) ∨
    (u.st = .done ∧ i.toNat < u.klen.toNat ∧ c.keyMax.toNat ≤ i.toNat ∧ b32Rdkey c u i = .badAccess .kb) := by
  by_cases hd : u.st = .done
  · by_cases hk : u.klen.toNat ≤ i.toNat
    · exact .inr (.inl ⟨hd, hk, by simp [b32Rdkey, hd, indexOperand, hk]⟩)
    · have hk' : i.toNat < u.klen.toNat := by omega
      by_cases hc : i.toNat < c.keyMax.toNat
      · refine .inr (.inr (.inl ⟨hd, hk', hc, ?_⟩))
        simp [b32Rdkey, hd, indexOperand, hk', Buffer.size, memRead_of_lt _ hc]
      · refine .inr (.inr (.inr ⟨hd, hk', by omega, ?_⟩))
        simp [b32Rdkey, hd, indexOperand, hk', Buffer.size, memRead_of_le _ (Nat.le_of_not_lt hc)]
  · exact .inl ⟨hd, by simp [b32Rdkey, hd]⟩

/-! ### Unit DT (42_dt_commands.md) -/

/-- R97: everything `DT.PUSH` can do. -/
theorem dtPush_cases (c : Cfg) (u : DtUnit) (b : Byte) :
    (u.st ≠ .load ∧ dtPush c u b = .rejected .badState) ∨
    (u.st = .load ∧ u.dlen = c.digestMax ∧ dtPush c u b = .unitError .digestOverflow) ∨
    (u.st = .load ∧ u.dlen.toNat < c.digestMax.toNat ∧
      dtPush c u b = .success { u with db := u.db.writeByte u.dlen.toNat b, dlen := u.dlen + 1 } 0) ∨
    (u.st = .load ∧ c.digestMax.toNat < u.dlen.toNat ∧ dtPush c u b = .badAccess .db) := by
  by_cases hl : u.st = .load
  · rcases lt_trichotomy u.dlen.toNat c.digestMax.toNat with hk | hk | hk
    · have hne : u.dlen ≠ c.digestMax := fun h => by simp [h] at hk
      exact .inr (.inr (.inl ⟨hl, hk, by simp [dtPush, hl, hne, Buffer.size, memWrite_of_lt, hk]⟩))
    · have hk' : u.dlen = c.digestMax := BitVec.eq_of_toNat_eq hk
      exact .inr (.inl ⟨hl, hk', by simp [dtPush, hl, hk']⟩)
    · have hne : u.dlen ≠ c.digestMax := fun h => by simp [h] at hk
      have hle : ¬ u.dlen.toNat < c.digestMax.toNat := by omega
      exact .inr (.inr (.inr ⟨hl, hk, by simp [dtPush, hl, hne, Buffer.size, memWrite, hle]⟩))
  · exact .inl ⟨hl, by simp [dtPush, hl]⟩

/-- R99: everything `DT.RDCODE` can do; the unit never changes. -/
theorem dtRdcode_cases (c : Cfg) (u : DtUnit) (i : Byte) :
    (u.st ≠ .done ∧ dtRdcode c u i = .rejected .badState) ∨
    (u.st = .done ∧ u.digits.toNat ≤ i.toNat ∧ dtRdcode c u i = .rejected .badIndex) ∨
    (u.st = .done ∧ i.toNat < u.digits.toNat ∧ i.toNat < c.digitsMax.toNat ∧
      dtRdcode c u i = .success u (zext32 (u.cb.readByte i.toNat))) ∨
    (u.st = .done ∧ i.toNat < u.digits.toNat ∧ c.digitsMax.toNat ≤ i.toNat ∧
      dtRdcode c u i = .badAccess .cb) := by
  by_cases hd : u.st = .done
  · by_cases hk : u.digits.toNat ≤ i.toNat
    · exact .inr (.inl ⟨hd, hk, by simp [dtRdcode, hd, indexOperand, hk]⟩)
    · have hk' : i.toNat < u.digits.toNat := by omega
      by_cases hc : i.toNat < c.digitsMax.toNat
      · refine .inr (.inr (.inl ⟨hd, hk', hc, ?_⟩))
        simp [dtRdcode, hd, indexOperand, hk', Buffer.size, memRead_of_lt _ hc]
      · refine .inr (.inr (.inr ⟨hd, hk', by omega, ?_⟩))
        simp [dtRdcode, hd, indexOperand, hk', Buffer.size, memRead_of_le _ (Nat.le_of_not_lt hc)]
  · exact .inl ⟨hd, by simp [dtRdcode, hd]⟩

/-- The offset is a residue modulo 16 (40_reference_functions.md R79, R83). -/
theorem offsetOf_eq (b : Byte) : offsetOf b = b.toNat % 16 := by
  simpa [offsetOf] using Nat.and_two_pow_sub_one_eq_mod b.toNat 4

/-- The binary code as a sum of disjoint fields (R79). -/
theorem assembleCode_eq (b0 b1 b2 b3 : Byte) :
    assembleCode b0 b1 b2 b3 = b0.toNat % 128 * 2 ^ 24 + b1.toNat * 2 ^ 16 + b2.toNat * 2 ^ 8 + b3.toNat := by
  have h1 := b1.isLt
  have h2 := b2.isLt
  have h3 := b3.isLt
  have hm : b0.toNat &&& 0x7F = b0.toNat % 128 := by
    simpa using Nat.and_two_pow_sub_one_eq_mod b0.toNat 7
  have e1 : (b0.toNat % 128) <<< 24 ||| b1.toNat <<< 16 = (b0.toNat % 128 * 256 + b1.toNat) <<< 16 := by
    rw [show (24 : Nat) = 8 + 16 from rfl, Nat.shiftLeft_add, ← Nat.shiftLeft_or_distrib,
      Nat.shiftLeft_add_eq_or_of_lt h1 (b0.toNat % 128) |>.symm, Nat.shiftLeft_eq (b0.toNat % 128)]
  have e2 : (b0.toNat % 128 * 256 + b1.toNat) <<< 16 ||| b2.toNat <<< 8 =
      ((b0.toNat % 128 * 256 + b1.toNat) * 256 + b2.toNat) <<< 8 := by
    rw [show (16 : Nat) = 8 + 8 from rfl, Nat.shiftLeft_add, ← Nat.shiftLeft_or_distrib,
      Nat.shiftLeft_add_eq_or_of_lt h2 _ |>.symm, Nat.shiftLeft_eq (b0.toNat % 128 * 256 + b1.toNat)]
  rw [assembleCode, hm, e1, e2, ← Nat.shiftLeft_add_eq_or_of_lt h3, Nat.shiftLeft_eq]
  omega

/-- R43, R79: the binary code is below 2^31. -/
theorem assembleCode_lt (b0 b1 b2 b3 : Byte) : assembleCode b0 b1 b2 b3 < 2 ^ 31 := by
  have h1 := b1.isLt
  have h2 := b2.isLt
  have h3 := b3.isLt
  rw [assembleCode_eq]
  omega

/-- The four bytes are read when all of them lie in the buffer. -/
theorem readBinCode_of_le {size o : Nat} (db : Memory) (h : o + 4 ≤ size) :
    readBinCode size db o =
      some (assembleCode (db.readByte o) (db.readByte (o + 1)) (db.readByte (o + 2)) (db.readByte (o + 3))) := by
  simp [readBinCode, memRead_of_lt _ (show o < size by omega), memRead_of_lt _ (show o + 1 < size by omega),
    memRead_of_lt _ (show o + 2 < size by omega), memRead_of_lt _ (show o + 3 < size by omega)]

/-! ### The fields of a packed word (30_encoding.md R53) -/

theorem packWord_toNat (o : BitVec 4) (a : Byte) : (packWord o a).toNat = o.toNat * 4096 + a.toNat := by
  have ha := a.isLt
  have h := BitVec.toNat_append (o ++ (0 : BitVec 4)) a
  rw [BitVec.toNat_append o (0 : BitVec 4)] at h
  have h0 : o.toNat <<< 4 ||| (0 : BitVec 4).toNat = o.toNat * 16 := by simp [Nat.shiftLeft_eq]
  rw [h0, ← Nat.shiftLeft_add_eq_or_of_lt ha, Nat.shiftLeft_eq] at h
  calc (packWord o a).toNat = (o ++ (0 : BitVec 4) ++ a).toNat := rfl
    _ = o.toNat * 4096 + a.toNat := by rw [h]; ring

@[simp] theorem opcField_packWord (o : BitVec 4) (a : Byte) : opcField (packWord o a) = o := by
  apply BitVec.eq_of_toNat_eq
  have ha := a.isLt
  have ho := o.isLt
  simp only [opcField, BitVec.extractLsb'_toNat, packWord_toNat, Nat.shiftRight_eq_div_pow]
  omega

@[simp] theorem rsvField_packWord (o : BitVec 4) (a : Byte) : rsvField (packWord o a) = 0 := by
  apply BitVec.eq_of_toNat_eq
  have ha := a.isLt
  have ho := o.isLt
  simp only [rsvField, BitVec.extractLsb'_toNat, packWord_toNat, Nat.shiftRight_eq_div_pow]
  show _ = 0
  omega

@[simp] theorem argField_packWord (o : BitVec 4) (a : Byte) : argField (packWord o a) = a := by
  apply BitVec.eq_of_toNat_eq
  have ha := a.isLt
  simp only [argField, BitVec.extractLsb'_toNat, packWord_toNat, Nat.shiftRight_eq_div_pow]
  omega

end Sys2Proof.Machine
end

