-- ==== Sys2Proof/Laws/Exec.lean ====
section
/-! SUPPORT. What `B32.PUSH`, `B32.END` and `DT.RUN` can do, and that a command of one unit is a function of the parameters
and that unit alone (20_memory.md R49). -/

namespace Sys2Proof.Machine

/-! ### The commands with several cases -/

/-- R89: what `B32.PUSH` does, by the phase and the class of the character. -/
theorem b32Push_cases (c : Cfg) (u : B32Unit) (ch : Byte) :
    ((u.st = .done ∨ u.st = .err) ∧ b32Push c u ch = .rejected .badState) ∨
    (∃ v, u.st = .data ∧ charClass ch = .sym v ∧ b32Push c u ch = pushSymbol c u v) ∨
    ((u.st = .data ∨ u.st = .pad) ∧ charClass ch = .pad ∧ b32Push c u ch = .success { u with st := .pad } 0) ∨
    ((u.st = .data ∧ charClass ch = .inv ∨ u.st = .pad ∧ charClass ch ≠ .pad) ∧
      b32Push c u ch = .unitError .decodeError) := by
  obtain ⟨st, cause, acc, nb, klen, kb⟩ := u
  cases st <;> cases hc : charClass ch <;> simp [b32Push, hc]

/-- R90: what `B32.END` does, by the phase. -/
theorem b32End_cases (u : B32Unit) :
    ((u.st = .done ∨ u.st = .err) ∧ b32End u = .rejected .badState) ∨
    ((u.st = .data ∨ u.st = .pad) ∧
      b32End u = .success { u with st := .done, acc := 0, nb := 0 } (zext32 u.klen)) := by
  obtain ⟨st, cause, acc, nb, klen, kb⟩ := u
  cases st <;> simp [b32End, endText]

/-- R98: what `DT.RUN` does when the digest lies in its buffer, as it does in every reachable state (R35). -/
theorem dtRun_cases {c : Cfg} {u : DtUnit} (d : Byte) (hl : u.dlen.toNat ≤ c.digestMax.toNat) :
    (u.st ≠ .load ∧ dtRun c u d = .rejected .badState) ∨
    (u.st = .load ∧ (d.toNat = 0 ∨ c.digitsMax.toNat < d.toNat) ∧ dtRun c u d = .unitError .invalidConfig) ∨
    (u.st = .load ∧ 1 ≤ d.toNat ∧ d.toNat ≤ c.digitsMax.toNat ∧ digestTooShortFor u ∧
      dtRun c u d = .unitError .digestTooShort) ∨
    (∃ o b, u.st = .load ∧ 1 ≤ d.toNat ∧ d.toNat ≤ c.digitsMax.toNat ∧ 1 ≤ u.dlen.toNat ∧
      o = (u.db.readByte (u.dlen.toNat - 1)).toNat % 16 ∧ o + 4 ≤ u.dlen.toNat ∧
      b = assembleCode (u.db.readByte o) (u.db.readByte (o + 1)) (u.db.readByte (o + 2)) (u.db.readByte (o + 3)) ∧
      dtRun c u d = .success (finishRun c u d o b) (BitVec.ofNat 32 (otpReduce b d.toNat))) := by
  by_cases hs : u.st = .load
  · by_cases hd : d.toNat = 0 ∨ c.digitsMax.toNat < d.toNat
    · exact .inr (.inl ⟨hs, hd, by simp [dtRun, hs, digitCount, Buffer.size, hd]⟩)
    · obtain ⟨h1, h2⟩ : 1 ≤ d.toNat ∧ d.toNat ≤ c.digitsMax.toNat := by omega
      by_cases hz : u.dlen.toNat = 0
      · have hz' : u.dlen = 0 := BitVec.eq_of_toNat_eq (by simpa using hz)
        refine .inr (.inr (.inl ⟨hs, h1, h2, .inl hz, ?_⟩))
        simp [dtRun, hs, digitCount, Buffer.size, hd, hz']
      · have hz' : u.dlen ≠ 0 := fun h => hz (by simp [h])
        have hlast := memRead_of_lt u.db (show u.dlen.toNat - 1 < c.digestMax.toNat by omega)
        by_cases ho : u.dlen.toNat < (u.db.readByte (u.dlen.toNat - 1)).toNat % 16 + 4
        · refine .inr (.inr (.inl ⟨hs, h1, h2, .inr ho, ?_⟩))
          simp [dtRun, hs, digitCount, Buffer.size, hd, hlast, offsetOf_eq, ho]
        · refine .inr (.inr (.inr ⟨_, _, hs, h1, h2, by omega, rfl, by omega, rfl, ?_⟩))
          have hcode := readBinCode_of_le u.db
            (show (u.db.readByte (u.dlen.toNat - 1)).toNat % 16 + 4 ≤ c.digestMax.toNat by omega)
          simp [dtRun, hs, digitCount, Buffer.size, hd, hlast, offsetOf_eq, ho, hcode]
          exact hz'
  · exact .inl ⟨hs, by simp [dtRun, hs]⟩

/-! ### A command is a function of its own unit -/

/-- The unit errors of `DT.RUN` belong to unit DT, whatever the state (60_exceptions.md R123). -/
theorem dtRun_unit {c : Cfg} {u : DtUnit} {d : Byte} {e : UnitErr} (h : dtRun c u d = .unitError e) :
    e.unit = .dt := by
  unfold dtRun at h
  split_ifs at h
  · cases h; rfl
  · cases h; rfl
  · split at h
    · cases h
    · split_ifs at h
      · cases h; rfl
      · split at h <;> cases h

/-- A B32 command applies a function of the parameters and unit B32, whose unit errors are those of B32. -/
theorem exec_of_b32 {i : Instr} (h : unitOf i = some .b32) :
    ∃ f : Cfg → B32Unit → CmdResult B32Unit, (∀ s, exec i s = s.finishB32 (f s.cfg s.b32)) ∧
      ∀ c u e, f c u = .unitError e → e.unit = .b32 := by
  cases i <;> simp only [unitOf, Option.some.injEq, reduceCtorEq] at h
  · exact ⟨b32Start, fun _ => rfl, fun c u e he => by simp [b32Start] at he⟩
  · rename_i ch
    refine ⟨fun c u => b32Push c u ch, fun _ => rfl, fun c u e he => ?_⟩
    rcases b32Push_cases c u ch with ⟨_, h'⟩ | ⟨v, _, _, h'⟩ | ⟨_, _, h'⟩ | ⟨_, h'⟩ <;>
      simp only [h', reduceCtorEq] at he
    · rcases pushSymbol_cases c u v with ⟨_, h'⟩ | ⟨_, _, h'⟩ | ⟨_, _, h'⟩ | ⟨_, _, h'⟩ <;>
        rw [h'] at he <;> cases he
      rfl
    · cases he; rfl
  · refine ⟨fun _ u => b32End u, fun _ => rfl, fun c u e he => ?_⟩
    rcases b32End_cases u with ⟨_, h'⟩ | ⟨_, h'⟩ <;> simp [h'] at he
  · rename_i j
    refine ⟨fun c u => b32Rdkey c u j, fun _ => rfl, fun c u e he => ?_⟩
    rcases b32Rdkey_cases c u j with ⟨_, h'⟩ | ⟨_, _, h'⟩ | ⟨_, _, _, h'⟩ | ⟨_, _, _, h'⟩ <;> simp [h'] at he

/-- A DT command applies a function of the parameters and unit DT, whose unit errors are those of DT. -/
theorem exec_of_dt {i : Instr} (h : unitOf i = some .dt) :
    ∃ f : Cfg → DtUnit → CmdResult DtUnit, (∀ s, exec i s = s.finishDt (f s.cfg s.dt)) ∧
      ∀ c u e, f c u = .unitError e → e.unit = .dt := by
  cases i <;> simp only [unitOf, Option.some.injEq, reduceCtorEq] at h
  · exact ⟨dtStart, fun _ => rfl, fun c u e he => by simp [dtStart] at he⟩
  · rename_i b
    refine ⟨fun c u => dtPush c u b, fun _ => rfl, fun c u e he => ?_⟩
    replace he : dtPush c u b = .unitError e := he
    rcases dtPush_cases c u b with ⟨_, h'⟩ | ⟨_, _, h'⟩ | ⟨_, _, h'⟩ | ⟨_, _, h'⟩ <;> rw [h'] at he <;> cases he
    rfl
  · rename_i d
    exact ⟨fun c u => dtRun c u d, fun _ => rfl, fun c u e he => dtRun_unit he⟩
  · rename_i j
    refine ⟨fun c u => dtRdcode c u j, fun _ => rfl, fun c u e he => ?_⟩
    rcases dtRdcode_cases c u j with ⟨_, h'⟩ | ⟨_, _, h'⟩ | ⟨_, _, _, h'⟩ | ⟨_, _, _, h'⟩ <;> simp [h'] at he

/-- `RDREG` reads: it answers in every state. -/
theorem exec_rdreg (r : Byte) :
    ∃ f : State → Except Rejection Word32, ∀ s, exec (.rdreg r) s = s.finishRead (f s) := by
  cases h : regOfNumber r with
  | some name => exact ⟨fun s => readRegister s name, fun s => by simp [exec, execRdreg, h]⟩
  | none => exact ⟨fun _ => .error .badIndex, fun s => by simp [exec, execRdreg, h]⟩

end Sys2Proof.Machine
end

