-- ==== Sys2Proof/Laws/PerInstr.lean ====
section
/-! SUPPORT. Per command: its encoding has the pattern of its row of the opcode table under the row's mask, and its
reserved field is 0 (30_encoding.md R53, R57). -/

namespace Sys2Proof.Laws.Encoding

open Sys2Proof.Machine

/-- The encoding of a command is spelled by the row of its mnemonic. -/
def Statement (i : Instr) : Prop :=
  i.wellFormed = true ∧ rsvField (encode i) = 0 ∧
    ∃ row ∈ opcodeTable, row.op = mnemonicOf i ∧ row.spells (encode i)

theorem b32Start : Statement .b32Start :=
  ⟨rfl, by decide, ⟨.b32Start, 0xFFFF, 0x1000⟩, by decide, rfl, by unfold OpcodeRow.spells; decide⟩

theorem b32Push (c : Byte) : Statement (.b32Push c) :=
  ⟨rfl, rsvField_packWord _ _, ⟨.b32Push, 0xFF00, 0x2000⟩, by decide, rfl, by
    unfold OpcodeRow.spells; revert c; decide⟩

theorem b32End : Statement .b32End :=
  ⟨rfl, by decide, ⟨.b32End, 0xFFFF, 0x3000⟩, by decide, rfl, by unfold OpcodeRow.spells; decide⟩

theorem b32Rdkey (i : Byte) : Statement (.b32Rdkey i) :=
  ⟨rfl, rsvField_packWord _ _, ⟨.b32Rdkey, 0xFF00, 0x4000⟩, by decide, rfl, by
    unfold OpcodeRow.spells; revert i; decide⟩

theorem dtStart : Statement .dtStart :=
  ⟨rfl, by decide, ⟨.dtStart, 0xFFFF, 0x5000⟩, by decide, rfl, by unfold OpcodeRow.spells; decide⟩

theorem dtPush (b : Byte) : Statement (.dtPush b) :=
  ⟨rfl, rsvField_packWord _ _, ⟨.dtPush, 0xFF00, 0x6000⟩, by decide, rfl, by
    unfold OpcodeRow.spells; revert b; decide⟩

theorem dtRun (d : Byte) : Statement (.dtRun d) :=
  ⟨rfl, rsvField_packWord _ _, ⟨.dtRun, 0xFF00, 0x7000⟩, by decide, rfl, by
    unfold OpcodeRow.spells; revert d; decide⟩

theorem dtRdcode (i : Byte) : Statement (.dtRdcode i) :=
  ⟨rfl, rsvField_packWord _ _, ⟨.dtRdcode, 0xFF00, 0x8000⟩, by decide, rfl, by
    unfold OpcodeRow.spells; revert i; decide⟩

theorem rdreg (r : Byte) : Statement (.rdreg r) :=
  ⟨rfl, rsvField_packWord _ _, ⟨.rdreg, 0xFF00, 0x9000⟩, by decide, rfl, by
    unfold OpcodeRow.spells; revert r; decide⟩

end Sys2Proof.Laws.Encoding
end

