-- ==== Sys2Proof/Tests/Slice0.lean ====
section
/-! SUPPORT. Tests: what is refused as ill-formed, words decoded from the spec's encodings, single steps against the values
of 95_test_vectors.md, and a witness for the hypotheses of every obligation that has some. -/

namespace Sys2Proof.Tests

open Sys2Proof Sys2Proof.Machine

/-! ### Ill-formed terms (00_scope.md R9, 30_encoding.md R62) -/

theorem test_cfg_reference_wellFormed : Cfg.reference.wellFormed = true := by decide

theorem test_cfg_zero_key_refused : (Cfg.mk 0 64 16).wellFormed = false := by decide

theorem test_cfg_zero_digest_refused : (Cfg.mk 64 0 16).wellFormed = false := by decide

theorem test_cfg_zero_digits_refused : (Cfg.mk 64 64 0).wellFormed = false := by decide

theorem test_line_operand_above_255_refused : (AsmLine.mk .dtPush (some (.num 256))).wellFormed = false := by decide

theorem test_line_operand_on_start_refused :
    (AsmLine.mk .b32Start (some (.num 0))).wellFormed = false ∧
    (AsmLine.mk .b32End (some (.num 0))).wellFormed = false ∧
    (AsmLine.mk .dtStart (some (.num 0))).wellFormed = false := by decide

theorem test_line_missing_operand_refused : (AsmLine.mk .dtRun none).wellFormed = false := by decide

theorem test_line_character_elsewhere_refused :
    (AsmLine.mk .dtPush (some (.chr 'A'))).wellFormed = false := by decide

theorem test_line_wide_character_refused :
    (AsmLine.mk .b32Push (some (.chr (Char.ofNat 256)))).wellFormed = false := by decide

theorem test_line_register_elsewhere_refused :
    (AsmLine.mk .dtRdcode (some (.reg .dtOtp))).wellFormed = false := by decide

theorem test_line_operand_255_accepted : (AsmLine.mk .dtPush (some (.num 255))).wellFormed = true := by decide

/-! ### Words written out from the encodings of R53 and R57 -/

theorem test_decode_b32Start : decode 0b0001000000000000 = .ok .b32Start := by decide

theorem test_decode_b32Push : decode 0b0010000001001101 = .ok (.b32Push 0x4D) := by decide

theorem test_decode_b32End : decode 0b0011000000000000 = .ok .b32End := by decide

theorem test_decode_b32Rdkey : decode 0b0100000011111111 = .ok (.b32Rdkey 255) := by decide

theorem test_decode_dtStart : decode 0b0101000000000000 = .ok .dtStart := by decide

theorem test_decode_dtPush : decode 0b0110000010000001 = .ok (.dtPush 0x81) := by decide

theorem test_decode_dtRun : decode 0b0111000000000110 = .ok (.dtRun 6) := by decide

theorem test_decode_dtRdcode : decode 0b1000000000000101 = .ok (.dtRdcode 5) := by decide

theorem test_decode_rdreg : decode 0b1001000000000110 = .ok (.rdreg 6) := by decide

/-- T-SYS-1, 2, 5: the reserved opcodes at both ends. -/
theorem test_decode_reserved_opcodes :
    decode 0x0000 = .error .reservedOpcode ∧ decode 0xA000 = .error .reservedOpcode ∧
    decode 0xF000 = .error .reservedOpcode := by decide

/-- T-SYS-3, 7: each single bit of `RSV` makes a word illegal. -/
theorem test_decode_reserved_field :
    decode 0x2141 = .error .reservedField ∧ decode 0x9100 = .error .reservedField ∧
    decode 0x6800 = .error .reservedField ∧ decode 0x1200 = .error .reservedField ∧
    decode 0x7406 = .error .reservedField := by decide

/-- T-SYS-4, 6: an operand on a command that has none, at the lowest and the highest bit. -/
theorem test_decode_operand_not_zero :
    decode 0x3001 = .error .operandNotZero ∧ decode 0x1001 = .error .operandNotZero ∧
    decode 0x5080 = .error .operandNotZero := by decide

theorem test_decodeTableWord : decodeTableWord 16 0x7006 = some (.dtRun 6) ∧ decodeTableWord 16 0xB000 = none := by
  decide

/-! ### States to test on -/

/-- The reset state with another unit B32. -/
def withB32 (u : B32Unit) : State := { State.reset with b32 := u }

/-- The reset state with another unit DT. -/
def withDt (u : DtUnit) : State := { State.reset with dt := u }

/-- The reset state with one word handed. -/
def handed (w : CmdWord) : State := State.reset.hand (.command w)

/-- A digest as the contents of `DB`. -/
def loaded (bs : List Byte) : Memory :=
  (List.range bs.length).foldl (fun m i => m.writeByte i (bs.getD i 0)) []

/-- Unit DT with a digest loaded. -/
def dtLoaded (bs : List Byte) : DtUnit :=
  { DtUnit.reset with dlen := BitVec.ofNat 8 bs.length, db := loaded bs }

/-- The digest of vectors T-DT-1 to T-DT-8. -/
def rfcDigest : List Byte :=
  [0x1F, 0x86, 0x98, 0x69, 0x0E, 0x02, 0xCA, 0x16, 0x61, 0x85,
   0x50, 0xEF, 0x7F, 0x19, 0xDA, 0x8E, 0x94, 0x5B, 0x55, 0x5A]

/-- Unit B32 after `b32.push 'M'` from the start (R89's example). -/
def b32AfterM : B32Unit := { B32Unit.reset with acc := 0x0C, nb := 5 }

/-- Unit B32 after the text `MY` has ended (R90's example). -/
def b32KeyF : B32Unit := { B32Unit.reset with st := .done, klen := 1, kb := [(0, 0x66)] }

/-- Unit DT at the end of program P5. -/
def dtCode : DtUnit :=
  { st := .done, cause := 0, dlen := 4, db := [(0, 0x12), (1, 0x34), (2, 0x56), (3, 0x70)], digits := 8, offset := 0,
    bincode := 305419888, otp := 5419888,
    cb := [(0, 0x30), (1, 0x35), (2, 0x34), (3, 0x31), (4, 0x39), (5, 0x38), (6, 0x38), (7, 0x38)] }

/-- The end of program P5: both units done. -/
def bothDone : State := { State.reset with b32 := b32KeyF, dt := dtCode }

/-- Both units in `ERR` at once (60_exceptions.md R130). -/
def bothErr : State := { State.reset with b32 := b32InError 9, dt := dtInError 12 }

/-- In the middle of both computations: a pad seen, 19 bytes loaded into a buffer of 19 that are all zero. -/
def bothBusy : State :=
  { State.reset with
    cfg := { keyMax := 1, digestMax := 19, digitsMax := 1 }
    b32 := { B32Unit.reset with st := .pad, acc := 1, nb := 7, klen := 1, kb := [(0, 0x66)] }
    dt := { DtUnit.reset with dlen := 19 } }

/-- The state that a step leaves. -/
def stateAfter : Host.Outcome State Fault Refusal → Option State
  | .next t => some t
  | .fault _ => none
  | .refused _ => none

/-- The unit B32 that a step leaves. -/
def b32After (o : Host.Outcome State Fault Refusal) : Option B32Unit := (stateAfter o).map State.b32

/-- The unit DT that a step leaves. -/
def dtAfter (o : Host.Outcome State Fault Refusal) : Option DtUnit := (stateAfter o).map State.dt

/-! ### One step each, against 95_test_vectors.md and the examples of the command rules -/

/-- R88: from `ERR`, the start state. -/
theorem test_b32Start_from_error : b32After (exec .b32Start bothErr) = some B32Unit.reset := by decide

/-- R89's example, first push: no byte yet. -/
theorem test_b32Push_short : b32After (step (handed 0x204D)) = some b32AfterM := by decide

/-- R89's example, second push: one byte, two bits left. -/
theorem test_b32Push_byte :
    b32After (exec (.b32Push 0x59) (withB32 b32AfterM)) =
      some { B32Unit.reset with nb := 2, klen := 1, kb := [(0, 0x66)] } := by decide

/-- R90: bits still held are dropped, the length is returned. -/
theorem test_b32End_drops_bits :
    stateAfter (exec .b32End (withB32 { B32Unit.reset with acc := 0x7F, nb := 7, klen := 1, kb := [(0, 0x66)] })) =
      some { withB32 b32KeyF with responses := [okResponse 1] } := by decide

/-- R91's example. -/
theorem test_b32Rdkey : answerOf (exec (.b32Rdkey 0) (withB32 b32KeyF)) = some (okResponse 0x66) := by decide

/-- R91's example, at the decoded length. -/
theorem test_b32Rdkey_at_length :
    answerOf (exec (.b32Rdkey 1) (withB32 b32KeyF)) = some (rejectResponse .badIndex) := by decide

/-- R96: a result is discarded. -/
theorem test_dtStart_discards : dtAfter (exec .dtStart bothDone) = some DtUnit.reset := by decide

/-- R97: the byte goes to index `DLEN`. -/
theorem test_dtPush_appends :
    dtAfter (exec (.dtPush 0x34) (withDt (dtLoaded [0x12]))) = some (dtLoaded [0x12, 0x34]) := by decide

/-- P5, step 10: four bytes, a leading zero; the last byte is both offset and code. -/
theorem test_dtRun_leading_zero :
    stateAfter (exec (.dtRun 8) (withDt (dtLoaded [0x12, 0x34, 0x56, 0x70]))) =
      some { withDt dtCode with responses := [okResponse 0x0052B370] } := by decide

/-- T-DT-1: offset 10. -/
theorem test_dtRun_rfc :
    answerOf (exec (.dtRun 6) (withDt (dtLoaded rfcDigest))) = some (okResponse 0x000D51D9) := by decide

/-- P5, step 14. -/
theorem test_dtRdcode : answerOf (exec (.dtRdcode 1) bothDone) = some (okResponse 0x35) := by decide

/-- P5 ends with eight characters: index 8 is out of range. -/
theorem test_dtRdcode_at_length :
    answerOf (exec (.dtRdcode 8) bothDone) = some (rejectResponse .badIndex) := by decide

/-- T-SYS-8. -/
theorem test_rdreg_cfg : answerOf (step (handed 0x9000)) = some (okResponse 0x00104040) := by decide

/-- R104's example and P5, step 10: the two status words. -/
theorem test_rdreg_status :
    answerOf (exec (.rdreg 1) (withB32 b32AfterM)) = some (okResponse 0x000C0500) ∧
    answerOf (exec (.rdreg 3) bothDone) = some (okResponse 0x00080002) := by decide

/-- T-SYS-3: an illegal word. -/
theorem test_illegal_word :
    stateAfter (step (handed 0x2141)) = some { State.reset with responses := [rejectResponse .illegalCmd] } := by decide

/-- The reset event from both error states. -/
theorem test_reset_event :
    stateAfter (step (bothErr.hand .reset)) = some { State.reset with cfg := bothErr.cfg } := by decide

/-! ### The error conditions at their boundaries -/

/-- T-B32-50, 51: with `KEY_MAX` = 1, two held bits complete no byte, four held bits overflow. -/
theorem test_keyOverflow_boundary :
    answerOf (exec (.b32Push 0x41)
      { bothBusy with b32 := { B32Unit.reset with nb := 2, klen := 1 } }) = some (okResponse 0) ∧
    answerOf (exec (.b32Push 0x41)
      { bothBusy with b32 := { B32Unit.reset with nb := 7, klen := 1 } }) =
        some (errorResponse .keyOverflow) := by decide

/-- T-B32-14: after a pad, a symbol is an error. -/
theorem test_interior_pad :
    b32After (exec (.b32Push 0x41) bothBusy) = some (b32InError 8) := by decide

/-- T-DT-30: the push after `DIGEST_MAX` bytes. -/
theorem test_digestOverflow : dtAfter (exec (.dtPush 0) bothBusy) = some (dtInError 10) := by decide

/-- T-DT-21, 22: 18 bytes reach offset 14 and not offset 15. -/
theorem test_digestTooShort_boundary :
    answerOf (exec (.dtRun 8) (withDt { DtUnit.reset with dlen := 18, db := [(17, 0x0F)] })) =
      some (errorResponse .digestTooShort) ∧
    answerOf (exec (.dtRun 8) (withDt { DtUnit.reset with dlen := 18, db := [(17, 0x0E)] })) =
      some (okResponse 14) := by decide

/-- T-DT-28: with an empty digest and no digits, the digit count is what is reported. -/
theorem test_invalidConfig_first : dtAfter (exec (.dtRun 0) State.reset) = some (dtInError 11) := by decide

/-! ### The reference functions, the host and the assembler -/

/-- T-B32-10. -/
theorem test_b32Decode :
    b32Decode [0x4D, 0x5A, 0x58, 0x57, 0x36, 0x59, 0x51, 0x3D] = some [0x66, 0x6F, 0x6F, 0x62] := by decide

/-- T-B32-16: a pad between symbols. -/
theorem test_b32Decode_interior_pad : b32Decode [0x4D, 0x3D, 0x59, 0x3D] = none := by decide

/-- T-DT-12 tells the third byte from the fourth (90_conflicts.md C1). -/
theorem test_dynTrunc_third_byte :
    dynTrunc [0, 1, 2, 3, 4, 5, 6, 7, 8, 9, 10, 11, 12, 13, 14, 15, 16, 17, 18, 0x13] = 50595078 := by decide

/-- S10: the counter of the source's second known answer. -/
theorem test_totpCounter : totpCounter 1111111109000 30 = 37037036 := by decide

/-- P1's source text, first line. -/
theorem test_assemble_pseudo :
    assembleProgram ["B32.DECODE \"M=\" ; a comment", "b32.readkey 2", "dt.trunc 1fA0, 6"] =
      some [0x1000, 0x204D, 0x203D, 0x3000, 0x4000, 0x4001, 0x5000, 0x601F, 0x60A0, 0x7006] := by decide

/-- R62: no operand above 255. -/
theorem test_assemble_error : assembleProgram ["dt.push 0x100"] = none := by decide

/-! ### States that meet the invariant -/

theorem bothDone_inv : Inv bothDone where
  cfg_ok := by decide
  b32 := ⟨by decide, by decide, by decide, by decide, by decide, by decide, by decide⟩
  dt := ⟨by decide, by decide, by decide, by decide, by decide, nofun, by decide, nofun⟩

theorem bothErr_inv : Inv bothErr where
  cfg_ok := by decide
  b32 := ⟨by decide, by decide, by decide, by decide, by decide, by decide, by decide⟩
  dt := ⟨by decide, by decide, by decide, by decide, by decide, nofun, nofun, by decide⟩

theorem bothBusy_inv : Inv bothBusy where
  cfg_ok := by decide
  b32 := ⟨by decide, by decide, by decide, by decide, by decide, by decide, by decide⟩
  dt := ⟨by decide, by decide, by decide, by decide, by decide,
    fun _ => ⟨rfl, rfl, rfl, rfl, rfl, fun _ => rfl⟩, nofun, nofun⟩

/-- Handing an input is no matter of the invariant. -/
theorem inv_hand {s : State} (h : Inv s) (x : Input) : Inv (s.hand x) := ⟨h.cfg_ok, h.b32, h.dt⟩

/-! ### Witnesses: the hypotheses of the obligations can be met -/

theorem witness_StepRunsTheDecodedCommand :
    (handed 0x7006).inputs = .command 0x7006 :: [] ∧ decode 0x7006 = .ok (.dtRun 6) := by decide

theorem witness_IllegalWordOnlyAnswered :
    (handed 0x2141).inputs = .command 0x2141 :: [] ∧ decode 0x2141 = .error .reservedField ∧
    ∃ u, exec .b32End { handed 0x2141 with inputs := [] } = .next u := ⟨rfl, by decide, _, rfl⟩

theorem witness_DecodeInvertsEncode :
    (Instr.rdreg 255).wellFormed = true ∧ decode 0x90FF = .ok (.rdreg 255) := by decide

theorem witness_LegalWordsAreExactlyThese :
    ((handed 0xB000).inputs = .command 0xB000 :: [] ∧ ∃ t, step (handed 0xB000) = .next t) ∧
    ((handed 0x3000).inputs = .command 0x3000 :: [] ∧ ∃ t, step (handed 0x3000) = .next t) :=
  ⟨⟨rfl, _, rfl⟩, rfl, _, rfl⟩

theorem witness_ResetEventClearsBothUnits : (bothErr.hand .reset).inputs = .reset :: [] := rfl

theorem witness_ResetEqualsTheTwoStarts : ∃ t, feed [.reset, .command 0x204D, .command 0x7000] bothDone = .next t :=
  ⟨_, rfl⟩

theorem witness_ParametersNeverChange : ∃ t, step (bothBusy.hand .reset) = .next t := ⟨_, rfl⟩

theorem witness_OneResponsePerCommandWord :
    Inv (bothDone.hand (.command 0x8000)) ∧
    (bothDone.hand (.command 0x8000)).inputs = .command 0x8000 :: [] := ⟨inv_hand bothDone_inv _, rfl⟩

/-- One command for each of the four endings. -/
theorem witness_ThreeWaysACommandEnds :
    (∃ t, exec .b32Start bothErr = .next t) ∧ (∃ t, exec (.b32Rdkey 0) bothErr = .next t) ∧
    (∃ t, exec (.b32Push 0x31) State.reset = .next t) ∧ ∃ t, exec (.dtRun 0) State.reset = .next t :=
  ⟨⟨_, rfl⟩, ⟨_, rfl⟩, ⟨_, rfl⟩, _, rfl⟩

/-- The conditions hold just at their boundary and not just before it. -/
theorem witness_RejectionsHappenExactlyWhen :
    (∃ t, exec (.rdreg 6) State.reset = .next t) ∧ badStateWhen (.rdreg 6) State.reset ∧
    ¬ badStateWhen (.rdreg 4) State.reset ∧
    (∃ t, exec (.b32Rdkey 1) bothDone = .next t) ∧ badIndexWhen (.b32Rdkey 1) bothDone ∧
    ¬ badIndexWhen (.b32Rdkey 0) bothDone ∧ badIndexWhen (.dtRdcode 8) bothDone ∧
    ¬ badIndexWhen (.dtRdcode 7) bothDone ∧ badIndexWhen (.rdreg 7) bothDone ∧
    ¬ badIndexWhen (.rdreg 6) bothDone ∧
    (handed 0xFFFF).inputs = .command 0xFFFF :: [] ∧ ∃ t, step (handed 0xFFFF) = .next t := by
  refine ⟨⟨_, rfl⟩, ?_, ?_, ⟨_, rfl⟩, ?_, ?_, ?_, ?_, ?_, ?_, rfl, _, rfl⟩ <;>
    simp only [badStateWhen, badIndexWhen] <;> decide

/-- Each unit error has a state and a command that raise it. -/
theorem witness_UnitErrorsHappenExactlyWhen :
    unitErrorWhen .decodeError (.b32Push 0x31) State.reset ∧
    unitErrorWhen .decodeError (.b32Push 0x41) bothBusy ∧
    unitErrorWhen .keyOverflow (.b32Push 0x41) (withB32 { B32Unit.reset with nb := 3, klen := 64 }) ∧
    unitErrorWhen .digestOverflow (.dtPush 0) bothBusy ∧
    unitErrorWhen .invalidConfig (.dtRun 0) State.reset ∧ unitErrorWhen .invalidConfig (.dtRun 17) State.reset ∧
    unitErrorWhen .digestTooShort (.dtRun 16) State.reset ∧
    (∃ t, exec (.b32Push 0x31) State.reset = .next t) ∧
    (handed 0x1001).inputs = .command 0x1001 :: [] ∧ decode 0x1001 = .error .operandNotZero ∧
    ∃ t, step (handed 0x1001) = .next t := by
  refine ⟨.inl (by decide), .inr (by decide), ⟨rfl, ⟨0, by decide⟩, by decide, rfl⟩, ⟨rfl, rfl⟩, ⟨rfl, .inl rfl⟩,
    ⟨rfl, .inr (by decide)⟩, ⟨rfl, by decide, by decide, .inl rfl⟩, ⟨_, rfl⟩, rfl, by decide, _, rfl⟩

theorem witness_ErrorIsStickyUntilStart :
    (bothErr.b32.st = .err ∧ unitOf .b32End = some .b32 ∧ Instr.b32End ≠ .b32Start) ∧
    (bothErr.dt.st = .err ∧ unitOf (.dtRdcode 0) = some .dt ∧ Instr.dtRdcode 0 ≠ .dtStart) ∧
    ((bothErr.hand (.command 0x2041)).inputs = .command 0x2041 :: [] ∧
      (∃ t, step (bothErr.hand (.command 0x2041)) = .next t) ∧ Input.command 0x2041 ≠ .reset ∧
      Input.command 0x2041 ≠ .command 0x1000 ∧ Input.command 0x2041 ≠ .command 0x5000) ∧
    Inv bothErr :=
  ⟨by decide, by decide, ⟨rfl, ⟨_, rfl⟩, by decide, by decide, by decide⟩, bothErr_inv⟩

theorem witness_StartReturnsFromError :
    (bothErr.b32.st = .err ∧ bothErr.dt.st = .err) ∧
    ((bothErr.hand .reset).inputs = .reset :: [] ∧ ∃ t, step (bothErr.hand .reset) = .next t ∧ t.b32.st ≠ .err) ∧
    ((bothErr.hand (.command 0x5000)).inputs = .command 0x5000 :: [] ∧
      ∃ t, step (bothErr.hand (.command 0x5000)) = .next t ∧ t.dt.st ≠ .err) ∧
    ∃ t, exec (.dtPush 0) bothBusy = .next t ∧ t.lastCode = some (.unitError .digestOverflow) :=
  ⟨by decide, ⟨rfl, _, rfl, by decide⟩, ⟨rfl, _, rfl, by decide⟩, _, rfl, rfl⟩

/-- `NB` of 2 for the first clause, 3 for the next two, `KLEN` one below and at `KEY_MAX`. -/
theorem witness_B32PushTakesTheNextCharacter :
    (let s := withB32 { B32Unit.reset with nb := 2, acc := 3 }
     s.b32.st = .data ∧ charClass 0x7A = .sym 25 ∧ s.b32.acc.toNat < 2 ^ s.b32.nb.toNat ∧ s.b32.nb.toNat < 3) ∧
    (let s := withB32 { B32Unit.reset with nb := 3, acc := 7, klen := 63 }
     s.b32.st = .data ∧ charClass 0x37 = .sym 31 ∧ s.b32.acc.toNat < 2 ^ s.b32.nb.toNat ∧ 3 ≤ s.b32.nb.toNat ∧
       s.b32.klen.toNat < s.cfg.keyMax.toNat ∧ s.b32.kb.wf = true) ∧
    (let s := withB32 { B32Unit.reset with nb := 3, klen := 64 }
     s.b32.st = .data ∧ charClass 0x41 = .sym 0 ∧ 3 ≤ s.b32.nb.toNat ∧ s.b32.klen = s.cfg.keyMax) ∧
    ((State.reset.b32.st = .data ∨ State.reset.b32.st = .pad) ∧ charClass 0x3D = .pad) ∧
    ((State.reset.b32.st = .data ∧ charClass 0x40 = .inv) ∧ bothBusy.b32.st = .pad ∧ charClass 0x41 ≠ .pad) ∧
    (bothDone.b32.st = .done ∧ bothErr.b32.st = .err) := by decide

theorem witness_B32EndEndsTheText :
    (State.reset.b32.st = .data ∧ bothBusy.b32.st = .pad) ∧ bothDone.b32.st = .done ∧ bothErr.b32.st = .err := by
  decide

theorem witness_B32RdkeyReadsTheKey :
    (bothDone.b32.st = .done ∧ (0 : Byte).toNat < bothDone.b32.klen.toNat ∧
      bothDone.b32.klen.toNat ≤ bothDone.cfg.keyMax.toNat) ∧
    bothErr.b32.st ≠ .done ∧ bothDone.b32.klen.toNat ≤ (1 : Byte).toNat := by decide

theorem witness_DtPushAppendsOneByte :
    (let s := withDt { DtUnit.reset with dlen := 63 }
     s.dt.st = .load ∧ s.dt.dlen.toNat < s.cfg.digestMax.toNat ∧ s.dt.db.wf = true) ∧
    (bothBusy.dt.st = .load ∧ bothBusy.dt.dlen = bothBusy.cfg.digestMax) ∧ bothDone.dt.st ≠ .load := by decide

/-- The largest and the smallest digit count; the four bytes end at the end of the digest. -/
theorem witness_DtRunTruncatesAndRenders :
    (let s := withDt { DtUnit.reset with dlen := 18, db := [(17, 0xFE)] }
     s.dt.st = .load ∧ 1 ≤ (16 : Byte).toNat ∧ (16 : Byte).toNat ≤ s.cfg.digitsMax.toNat ∧ 1 ≤ s.dt.dlen.toNat ∧
       s.dt.dlen.toNat ≤ s.cfg.digestMax.toNat ∧ s.dt.cb.wf = true ∧
       14 = (s.dt.db.readByte (s.dt.dlen.toNat - 1)).toNat % 16 ∧ 14 + 4 ≤ s.dt.dlen.toNat ∧
       254 = (s.dt.db.readByte 14).toNat % 128 * 2 ^ 24 + (s.dt.db.readByte (14 + 1)).toNat * 2 ^ 16 +
         (s.dt.db.readByte (14 + 2)).toNat * 2 ^ 8 + (s.dt.db.readByte (14 + 3)).toNat ∧
       254 = 254 % 10 ^ (16 : Byte).toNat) ∧
    (let s := withDt { DtUnit.reset with dlen := 4 }
     s.dt.st = .load ∧ (1 : Byte).toNat ≤ s.cfg.digitsMax.toNat ∧ s.dt.dlen.toNat ≤ s.cfg.digestMax.toNat ∧
       0 = (s.dt.db.readByte (s.dt.dlen.toNat - 1)).toNat % 16 ∧ 0 + 4 ≤ s.dt.dlen.toNat) ∧
    (State.reset.dt.st = .load ∧ (0 : Byte).toNat = 0 ∧ State.reset.cfg.digitsMax.toNat < (17 : Byte).toNat) ∧
    (State.reset.dt.st = .load ∧ State.reset.dt.dlen.toNat ≤ State.reset.cfg.digestMax.toNat ∧
      State.reset.dt.dlen.toNat = 0) ∧
    (let s := withDt { DtUnit.reset with dlen := 18, db := [(17, 0x0F)] }
     s.dt.st = .load ∧ s.dt.dlen.toNat ≤ s.cfg.digestMax.toNat ∧
       s.dt.dlen.toNat < (s.dt.db.readByte (s.dt.dlen.toNat - 1)).toNat % 16 + 4) ∧
    bothDone.dt.st ≠ .load := by decide

theorem witness_DtRdcodeReadsTheCode :
    (bothDone.dt.st = .done ∧ (7 : Byte).toNat < bothDone.dt.digits.toNat ∧
      bothDone.dt.digits.toNat ≤ bothDone.cfg.digitsMax.toNat ∧ Inv bothDone) ∧
    bothErr.dt.st ≠ .done ∧ bothDone.dt.digits.toNat ≤ (8 : Byte).toNat :=
  ⟨⟨by decide, by decide, by decide, bothDone_inv⟩, by decide, by decide⟩

theorem witness_OneRunPerStart :
    ∃ t, exec (.dtRun 1) (withDt { DtUnit.reset with dlen := 4 }) = .next t ∧ t.lastCode = some .ok := ⟨_, rfl, rfl⟩

/-- Lengths 3, 4, 18 and 19, the bounds of the four cases. -/
theorem witness_ShortDigestsDependOnTheNibble :
    (∀ n ∈ ([3, 4, 18, 19] : List (BitVec 8)),
      let s := withDt { DtUnit.reset with dlen := n }
      s.dt.st = .load ∧ 1 ≤ (16 : Byte).toNat ∧ (16 : Byte).toNat ≤ s.cfg.digitsMax.toNat ∧ 1 ≤ s.dt.dlen.toNat ∧
        s.dt.dlen.toNat ≤ s.cfg.digestMax.toNat) ∧
    Inv bothBusy ∧ bothBusy.cfg.digestMax.toNat < 20 := ⟨by decide, bothBusy_inv, by decide⟩

/-- Two digests that differ in bit 7 of the first byte and in the bits 7:4 of the last. -/
theorem witness_OnlyFiveBytesMatter :
    (let s := withDt { DtUnit.reset with dlen := 5, db := [(0, 0x81), (4, 0x10)] }
     let s' := withDt { DtUnit.reset with dlen := 5, db := [(0, 0x01), (4, 0xF0)] }
     s.dt.st = .load ∧ s'.dt.st = .load ∧ s'.cfg = s.cfg ∧ s'.dt.dlen = s.dt.dlen ∧ s.dt.cb = [] ∧ s'.dt.cb = [] ∧
       0 = (s.dt.db.readByte (s.dt.dlen.toNat - 1)).toNat % 16 ∧
       (s'.dt.db.readByte (s.dt.dlen.toNat - 1)).toNat % 16 = 0 ∧
       (s'.dt.db.readByte 0).toNat % 128 = (s.dt.db.readByte 0).toNat % 128 ∧
       (∀ k, k < 4 → 1 ≤ k → s'.dt.db.readByte (0 + k) = s.dt.db.readByte (0 + k))) ∧
    (∃ t, exec (.dtRun 6) (withDt { DtUnit.reset with dlen := 5, db := [(0, 0x81), (4, 0x10)] }) = .next t) ∧
    ∃ t, exec (.dtRun 6) (withDt { DtUnit.reset with dlen := 5, db := [(0, 0x01), (4, 0xF0)] }) = .next t :=
  ⟨by decide, ⟨_, rfl⟩, _, rfl⟩

theorem witness_RdregReadsTheRegisters :
    bothDone.dt.st = .done ∧ State.reset.dt.st ≠ .done ∧ 7 ≤ (7 : Byte).toNat := by decide

theorem witness_CommandsTouchOnlyTheirOwnUnit :
    (∃ t, exec (.dtPush 0) bothBusy = .next t) ∧ unitOf (.dtPush 0) ≠ some .b32 ∧
    (∃ t, exec (.b32Push 0x31) State.reset = .next t) ∧ unitOf (.b32Push 0x31) ≠ some .dt ∧
    ∃ t, exec (.rdreg 7) bothErr = .next t :=
  ⟨⟨_, rfl⟩, by decide, ⟨_, rfl⟩, by decide, _, rfl⟩

theorem witness_ReadsHaveNoSideEffect :
    (∃ t, exec (.b32Rdkey 0) bothDone = .next t) ∧ (∃ t, exec (.dtRdcode 8) bothDone = .next t) ∧
    ∃ t, exec (.rdreg 1) bothErr = .next t := ⟨⟨_, rfl⟩, ⟨_, rfl⟩, _, rfl⟩

/-- A symbol that completes a byte, one that does not, a pad; an ending; a push; a run. -/
theorem witness_StoringCommandsChangeOnlyTheirBytes :
    (let s := withB32 { B32Unit.reset with nb := 3, klen := 63 }
     s.b32.kb.wf = true ∧ (charClass 0x42 = .sym 1 ∧ 3 ≤ s.b32.nb.toNat) ∧
       ∃ t, exec (.b32Push 0x42) s = .next t ∧ t.lastCode = some .ok) ∧
    (let s := withB32 { B32Unit.reset with nb := 2 }
     s.b32.kb.wf = true ∧ ¬ 3 ≤ s.b32.nb.toNat ∧ ∃ t, exec (.b32Push 0x42) s = .next t ∧ t.lastCode = some .ok) ∧
    (charClass 0x3D = .pad ∧ ∃ t, exec (.b32Push 0x3D) bothBusy = .next t ∧ t.lastCode = some .ok) ∧
    (∃ t, exec .b32End bothBusy = .next t ∧ t.lastCode = some .ok) ∧
    (State.reset.dt.db.wf = true ∧ ∃ t, exec (.dtPush 1) State.reset = .next t ∧ t.lastCode = some .ok) ∧
    (let s := withDt { DtUnit.reset with dlen := 4 }
     s.dt.cb.wf = true ∧ ∃ t, exec (.dtRun 16) s = .next t ∧ t.lastCode = some .ok) :=
  ⟨⟨rfl, by decide, _, rfl, rfl⟩, ⟨rfl, by decide, _, rfl, rfl⟩, ⟨by decide, _, rfl, rfl⟩, ⟨_, rfl, rfl⟩,
    ⟨rfl, _, rfl, rfl⟩, rfl, _, rfl, rfl⟩

/-- A key buffer that differs beyond `KLEN` only. -/
theorem witness_UnreadableBytesDoNotShow :
    (∀ a, a < bothDone.b32.klen.toNat →
      Memory.readByte [(0, 0x66), (1, 0x99)] a = bothDone.b32.kb.readByte a) ∧
    (∀ d, Instr.dtRdcode 0 ≠ .dtRun d) := ⟨by decide, nofun⟩

theorem witness_BuffersReadBackWhatWasWritten :
    (Memory.wf [(0, 1), (3, 2)] = true ∧ Memory.within 4 [(0, 1), (3, 2)] = true ∧ 3 < 4) ∧ 4 ≤ 4 ∧
    (∀ a, Memory.readByte [(3, 2)] a = Memory.readByte [(3, 2)] a) := ⟨by decide, by decide, fun _ => rfl⟩

theorem witness_InvariantHoldsAtReset : (Cfg.mk 1 255 1).wellFormed = true := by decide

theorem witness_EveryStepKeepsTheInvariant :
    Inv (bothBusy.hand (.command 0x2041)) ∧ ∃ t, step (bothBusy.hand (.command 0x2041)) = .next t :=
  ⟨inv_hand bothBusy_inv _, _, rfl⟩

theorem witness_EveryCommandWordIsAnswered :
    (Inv (bothBusy.hand (.command 0xFFFF)) ∧ (bothBusy.hand (.command 0xFFFF)).inputs ≠ []) ∧
    (bothBusy.b32.st = .pad ∧ ∃ t, exec (.b32Push 0x41) bothBusy = .next t) ∧
    (bothBusy.dt.st = .load ∧ ∃ t, exec (.dtRun 2) bothBusy = .next t) :=
  ⟨⟨inv_hand bothBusy_inv _, by decide⟩, ⟨rfl, _, rfl⟩, rfl, _, rfl⟩

/-- Unit B32 after the symbols of `MZX`: a byte written, seven bits held. -/
def b32AfterMZX : B32Unit := { B32Unit.reset with acc := 0x37, nb := 7, klen := 1, kb := [(0, 0x66)] }

/-- A block with room for one key byte, those symbols accepted. -/
def afterMZX : State := { State.reset with cfg := { keyMax := 1, digestMax := 64, digitsMax := 16 }, b32 := b32AfterMZX }

theorem afterMZX_inv : B32Inv afterMZX.cfg afterMZX.b32 :=
  ⟨by decide, by decide, by decide, by decide, by decide, by decide, by decide⟩

theorem afterMZX_stream : DecodeStream afterMZX.cfg afterMZX.b32 [12, 25, 23] :=
  ⟨by decide, nofun, nofun, by decide⟩

theorem witness_AcceptedSymbolsAreInTheStream :
    B32Inv afterMZX.cfg afterMZX.b32 ∧ DecodeStream afterMZX.cfg afterMZX.b32 [12, 25, 23] ∧
    (afterMZX.hand (.command 0x3000)).inputs = .command 0x3000 :: [] ∧
    ∃ t, step (afterMZX.hand (.command 0x3000)) = .next t := ⟨afterMZX_inv, afterMZX_stream, rfl, _, rfl⟩

/-- With `KEY_MAX` = 1 the fourth symbol overflows and the third does not (T-B32-50, 51). -/
theorem witness_KeyOverflowExactlyAtCapacity :
    (B32Inv afterMZX.cfg afterMZX.b32 ∧ DecodeStream afterMZX.cfg afterMZX.b32 [12, 25, 23] ∧
      afterMZX.b32.st = .data ∧ charClass 0x57 = .sym 22 ∧ afterMZX.cfg.keyMax.toNat < 5 * (3 + 1) / 8) ∧
    ([0x41, 0x41, 0x41] : List Byte).all (fun c => (symbolOf c).isSome) = true ∧
    5 * 3 / 8 ≤ afterMZX.cfg.keyMax.toNat :=
  ⟨⟨afterMZX_inv, afterMZX_stream, by decide, by decide, by decide⟩, by decide, by decide⟩

theorem witness_CommandsOfDifferentUnitsCommute :
    unitOf .b32End = some .b32 ∧ unitOf (.dtRun 1) = some .dt ∧
    (∃ t, exec .b32End bothBusy = .next t ∧ ∃ u, exec (.dtRun 1) t = .next u) ∧
    ∃ t, exec (.dtRun 1) bothBusy = .next t ∧ ∃ u, exec .b32End t = .next u :=
  ⟨rfl, rfl, ⟨_, rfl, _, rfl⟩, _, rfl, _, rfl⟩

/-- The first words of program P5. -/
theorem witness_InterleavedStreamsAreIndependent :
    ∃ t, feed (([0x204D, 0x6012, 0x205A, 0xB000, 0x9001, 0x3000] : List CmdWord).map Input.command) State.reset = .next t :=
  ⟨_, rfl⟩

/-- A valid text that fits exactly, an invalid one of each kind, and one that overflows. -/
theorem witness_DecodeCommandsComputeTheReference :
    (validText [0x4D, 0x59, 0x3D] = true ∧ decodedLength [0x4D, 0x59, 0x3D] ≤ afterMZX.cfg.keyMax.toNat) ∧
    (validText [0x4D, 0x3D, 0x59] = false ∧
      5 * (leadingSymbols [0x4D, 0x3D, 0x59]).length / 8 ≤ afterMZX.cfg.keyMax.toNat) ∧
    (validText [0x31] = false ∧ 5 * (leadingSymbols [0x31]).length / 8 ≤ afterMZX.cfg.keyMax.toNat) ∧
    afterMZX.cfg.keyMax.toNat < 5 * (leadingSymbols [0x41, 0x41, 0x41, 0x41, 0x21]).length / 8 := by decide

/-- Digests and digit counts at the bounds of each case. -/
theorem witness_TruncateCommandsComputeTheReference :
    (rfcDigest.length ≤ State.reset.cfg.digestMax.toNat ∧ (16 : Byte).toNat ≤ State.reset.cfg.digitsMax.toNat ∧
      (otpCode rfcDigest (16 : Byte).toNat).isSome = true) ∧
    ((0 : Byte).toNat = 0 ∧ State.reset.cfg.digitsMax.toNat < (17 : Byte).toNat) ∧
    (1 ≤ (6 : Byte).toNat ∧ (6 : Byte).toNat ≤ State.reset.cfg.digitsMax.toNat ∧
      ([] : List Byte).length = 0 ∧
      ([0xFF, 0xFF, 0xFF, 0x01] : List Byte).length < digestOffset [0xFF, 0xFF, 0xFF, 0x01] + 4) ∧
    bothBusy.cfg.digestMax.toNat < (List.replicate 20 (0 : Byte)).length := by decide

/-- The first and the last code of each range (R71's table). -/
theorem witness_CharacterClassesByRange :
    charClass 0x41 = .sym 0 ∧ charClass 0x5A = .sym 25 ∧ charClass 0x61 = .sym 0 ∧ charClass 0x7A = .sym 25 ∧
    charClass 0x32 = .sym 26 ∧ charClass 0x37 = .sym 31 := by decide

theorem witness_PadRunContributesNothing :
    (([0x4D, 0x59, 0x3D] : List Byte).take 2).getLast? ≠ some padChar := by decide

theorem witness_InteriorPadIsAnError : (0x59 : Byte) ∈ ([0x3D, 0x59] : List Byte) ∧ (0x59 : Byte) ≠ padChar := by
  decide

theorem witness_NothingButTheCharactersIsChecked :
    (symbolOf 0x61).isSome = true ∧ ([0x4D, 0x5A, 0x58] : List Byte).all (fun c => (symbolOf c).isSome) = true := by
  decide

theorem witness_SourcePropertiesOfTheFunctions :
    (b32Decode [0x6D, 0x59] = some [0x66] ∧ ∀ c ∈ ([0x6D, 0x59] : List Byte), c ≠ padChar) ∧
    (0x38 : Byte) ∈ ([0x4D, 0x38] : List Byte) ∧
    ¬ ((0x41 ≤ (0x38 : Byte).toNat ∧ (0x38 : Byte).toNat ≤ 0x5A) ∨
      (0x61 ≤ (0x38 : Byte).toNat ∧ (0x38 : Byte).toNat ≤ 0x7A) ∨
      (0x32 ≤ (0x38 : Byte).toNat ∧ (0x38 : Byte).toNat ≤ 0x37) ∨ (0x38 : Byte).toNat = 0x3D) := by decide

theorem witness_DecodedBytesAreTheSymbolNumber : b32Decode [0x4D, 0x5A, 0x3D] = some [0x66] := by decide

theorem witness_TruncationAndReduction :
    (4 ≤ ([0xFF, 0, 0, 0xF0] : List Byte).length ∧ 0 = ((([0xFF, 0, 0, 0xF0] : List Byte)).getD 3 0).toNat % 16) ∧
    2 ^ 31 - 1 < 2 ^ 31 ∧ 10 ≤ 10 := by decide

theorem witness_RenderingIsTheDecimalNumeral : 42 < 10 ^ 6 ∧ 0 < 10 ^ 0 := by decide

/-- The first and the last millisecond of window 1. -/
theorem witness_CounterForms :
    1 ≤ 30 ∧ (1 * (1000 * 30) ≤ 30000 ∧ 30000 < (1 + 1) * (1000 * 30)) ∧
    (1 * (1000 * 30) ≤ 59999 ∧ 59999 < (1 + 1) * (1000 * 30)) := by decide

theorem witness_CounterEncodingIsBigEndian : 2 ^ 64 - 1 < 2 ^ 64 := by decide

theorem witness_CodeIsConstantInAWindow :
    0 < ({} : TotpOptions).period ∧
    30000 / 1000 / ({} : TotpOptions).period.toNat = 59999 / 1000 / ({} : TotpOptions).period.toNat := by decide

/-- A host whose library knows one algorithm and answers it with four zero bytes. -/
def toyHmac : Hmac := fun a _ _ => if a = "sha1" then some [0, 0, 0, 0] else none

theorem witness_PipelineComputesTheCode :
    (hostCheck State.reset.cfg 59000 {} = .ok () ∧ b32Decode [0x4D, 0x59] = some [0x66] ∧
      ([0x66] : List Byte).length ≤ State.reset.cfg.keyMax.toNat ∧
      toyHmac ({} : TotpOptions).algorithm [0x66] (encodeCounter (totpCounter 59000 30)) = some [0, 0, 0, 0] ∧
      ([0, 0, 0, 0] : List Byte).length ≤ State.reset.cfg.digestMax.toNat ∧
      (otpCode [0, 0, 0, 0] ({} : TotpOptions).digits.toNat).isSome = true) ∧
    (b32Decode [0x31] = none ∧ 5 * (leadingSymbols [0x31]).length / 8 ≤ State.reset.cfg.keyMax.toNat) ∧
    (hostCheck State.reset.cfg 59000 { algorithm := "md2" } = .ok () ∧
      toyHmac "md2" [0x66] (encodeCounter (totpCounter 59000 30)) = none) ∧
    hostCheck State.reset.cfg 59000 { digits := 0 } = .ok () :=
  ⟨⟨rfl, by decide, by decide, by decide, by decide, by decide⟩, by decide, ⟨rfl, by decide⟩, rfl⟩

theorem witness_AssemblerRefusesBadOperands :
    255 < 256 ∧ 255 ≤ 255 ∧ Mnemonic.dtPush ≠ .b32Start ∧ Mnemonic.dtPush ≠ .b32End ∧ Mnemonic.dtPush ≠ .dtStart := by
  decide

end Sys2Proof.Tests
end

/-! The state family (10_state.md): what a step and a command can do, the invariants of R34 and R35, and which buffer
bytes a response can depend on. -/

namespace Sys2Proof.Machine

/-! ### Steps (10_state.md R16) -/

/-- A step that answers carried out the reset event, executed the decoded command, or rejected an illegal word. -/
theorem step_next {s t : State} (h : step s = .next t) :
    (∃ rest, s.inputs = .reset :: rest ∧ t = s.takeInput.resetEvent) ∨
    ∃ w rest, s.inputs = .command w :: rest ∧
      ((∃ i, decode w = .ok i ∧ exec i s.takeInput = .next t) ∨
        ∃ e, decode w = .error e ∧ t = s.takeInput.reject .illegalCmd) := by
  rcases hin : s.inputs with _ | ⟨⟨w⟩ | _, rest⟩
  · simp [step, hin] at h
  · refine .inr ⟨w, rest, rfl, ?_⟩
    cases hd : decode w with
    | ok i => exact .inl ⟨i, rfl, by simpa [step, hin, runWord, hd] using h⟩
    | error e => exact .inr ⟨e, rfl, by simpa [step, hin, runWord, hd, answerIllegal] using h.symm⟩
  · exact .inl ⟨rest, rfl, by simpa [step, hin] using h.symm⟩

/-- Settles O1: taking the input at the head of the list leaves the rest of it. -/
theorem stepRunsTheDecodedCommand : Obligations.StepRunsTheDecodedCommand := by
  intro s w rest i hin hd
  simp [step, runWord, State.takeInput, hin, hd]

/-! ### Frames (20_memory.md R49) -/

/-- A command of unit B32 adds one response and leaves unit DT. -/
theorem finishB32_frame {s t : State} {r : CmdResult B32Unit} (hr : ∀ e, r = .unitError e → e.unit = .b32)
    (h : s.finishB32 r = .next t) : (∃ a, Answered s t a) ∧ t.dt = s.dt := by
  rcases finishB32_next h with ⟨u, data, rfl, rfl⟩ | ⟨j, rfl, rfl⟩ | ⟨e, rfl, rfl⟩
  · exact ⟨⟨_, rfl, rfl, rfl⟩, rfl⟩
  · exact ⟨⟨_, rfl, rfl, rfl⟩, rfl⟩
  · exact ⟨⟨_, s.raiseUnitError_cfg e, s.raiseUnitError_inputs e, s.raiseUnitError_responses e⟩,
      (s.raiseUnitError_b32 e (hr e rfl)).2⟩

/-- A command of unit DT adds one response and leaves unit B32. -/
theorem finishDt_frame {s t : State} {r : CmdResult DtUnit} (hr : ∀ e, r = .unitError e → e.unit = .dt)
    (h : s.finishDt r = .next t) : (∃ a, Answered s t a) ∧ t.b32 = s.b32 := by
  rcases finishDt_next h with ⟨u, data, rfl, rfl⟩ | ⟨j, rfl, rfl⟩ | ⟨e, rfl, rfl⟩
  · exact ⟨⟨_, rfl, rfl, rfl⟩, rfl⟩
  · exact ⟨⟨_, rfl, rfl, rfl⟩, rfl⟩
  · exact ⟨⟨_, s.raiseUnitError_cfg e, s.raiseUnitError_inputs e, s.raiseUnitError_responses e⟩,
      (s.raiseUnitError_dt e (hr e rfl)).2⟩

/-- A register read adds one response and leaves both units. -/
theorem finishRead_frame {s t : State} {r : Except Rejection Word32} (h : s.finishRead r = .next t) :
    (∃ a, Answered s t a) ∧ t.b32 = s.b32 ∧ t.dt = s.dt := by
  rcases finishRead_next h with ⟨data, -, rfl⟩ | ⟨j, -, rfl⟩
  · exact ⟨⟨_, rfl, rfl, rfl⟩, rfl, rfl⟩
  · exact ⟨⟨_, rfl, rfl, rfl⟩, rfl, rfl⟩

/-- `RDREG` is the command that belongs to neither unit. -/
theorem eq_rdreg_of_unitOf {i : Instr} (h : unitOf i = none) : ∃ r, i = .rdreg r := by
  cases i <;> simp [unitOf] at h
  exact ⟨_, rfl⟩

/-- Settles O29, by the unit the command belongs to. -/
theorem commandsTouchOnlyTheirOwnUnit : Obligations.CommandsTouchOnlyTheirOwnUnit := by
  intro i s t h
  rcases hu : unitOf i with _ | _ | _
  · obtain ⟨r, rfl⟩ := eq_rdreg_of_unitOf hu
    obtain ⟨f, hf⟩ := exec_rdreg r
    obtain ⟨ha, hb, hd⟩ := finishRead_frame ((hf s).symm.trans h)
    exact ⟨ha, fun _ => hb, fun _ => hd⟩
  · obtain ⟨f, hf, he⟩ := exec_of_b32 hu
    obtain ⟨ha, hd⟩ := finishB32_frame (he _ _) ((hf s).symm.trans h)
    exact ⟨ha, fun hn => absurd rfl hn, fun _ => hd⟩
  · obtain ⟨f, hf, he⟩ := exec_of_dt hu
    obtain ⟨ha, hb⟩ := finishDt_frame (he _ _) ((hf s).symm.trans h)
    exact ⟨ha, fun _ => hb, fun hn => absurd rfl hn⟩

/-- A command changes no parameter. -/
theorem exec_cfg {i : Instr} {s t : State} (h : exec i s = .next t) : t.cfg = s.cfg := by
  obtain ⟨⟨r, hcfg, -⟩, -⟩ := commandsTouchOnlyTheirOwnUnit i s t h
  exact hcfg

/-- A command of another unit or of none leaves unit B32. -/
theorem exec_b32_of_ne {i : Instr} {s t : State} (h : exec i s = .next t) (hu : unitOf i ≠ some .b32) :
    t.b32 = s.b32 := by
  obtain ⟨-, hb, -⟩ := commandsTouchOnlyTheirOwnUnit i s t h
  exact hb hu

/-- A command of another unit or of none leaves unit DT. -/
theorem exec_dt_of_ne {i : Instr} {s t : State} (h : exec i s = .next t) (hu : unitOf i ≠ some .dt) :
    t.dt = s.dt := by
  obtain ⟨-, -, hd⟩ := commandsTouchOnlyTheirOwnUnit i s t h
  exact hd hu

/-! ### How a command leaves its unit (60_exceptions.md R122) -/

@[simp] theorem State.respond_lastCode (rc : RetCode) (data : Word32) (s : State) :
    (s.respond rc data).lastCode = some rc := by
  simp [State.lastCode, State.lastResponse]

@[simp] theorem State.reject_lastCode (r : Rejection) (s : State) : (s.reject r).lastCode = some (.rejection r) := by
  simp [State.lastCode, State.lastResponse]

@[simp] theorem State.raiseUnitError_lastCode (e : UnitErr) (s : State) :
    (s.raiseUnitError e).lastCode = some (.unitError e) := by
  simp [State.lastCode, State.lastResponse]

/-- `P` holds of the return code and the unit that a command of unit `id` leaves when it ends with this result on the
unit `u`; `inError` is the unit in its error state with a given cause. -/
def CmdResult.Ends {U : Type} (id : UnitId) (inError : BitVec 4 → U) (u : U) (P : RetCode → U → Prop) :
    CmdResult U → Prop
  | .success u' _ => P .ok u'
  | .rejected r => P (.rejection r) u
  | .unitError e => e.unit = id ∧ P (.unitError e) (inError e.code)
  | .badAccess _ => True

theorem finishB32_ends {s t : State} {r : CmdResult B32Unit} {P : RetCode → B32Unit → Prop}
    (hr : r.Ends .b32 b32InError s.b32 P) (h : s.finishB32 r = .next t) :
    ∃ rc, t.lastCode = some rc ∧ P rc t.b32 := by
  rcases finishB32_next h with ⟨u, data, rfl, rfl⟩ | ⟨j, rfl, rfl⟩ | ⟨e, rfl, rfl⟩
  · exact ⟨_, State.respond_lastCode .., hr⟩
  · exact ⟨_, State.reject_lastCode .., hr⟩
  · obtain ⟨hu, hp⟩ := hr
    exact ⟨_, State.raiseUnitError_lastCode .., (s.raiseUnitError_b32 e hu).1 ▸ hp⟩

theorem finishDt_ends {s t : State} {r : CmdResult DtUnit} {P : RetCode → DtUnit → Prop}
    (hr : r.Ends .dt dtInError s.dt P) (h : s.finishDt r = .next t) :
    ∃ rc, t.lastCode = some rc ∧ P rc t.dt := by
  rcases finishDt_next h with ⟨u, data, rfl, rfl⟩ | ⟨j, rfl, rfl⟩ | ⟨e, rfl, rfl⟩
  · exact ⟨_, State.respond_lastCode .., hr⟩
  · exact ⟨_, State.reject_lastCode .., hr⟩
  · obtain ⟨hu, hp⟩ := hr
    exact ⟨_, State.raiseUnitError_lastCode .., (s.raiseUnitError_dt e hu).1 ▸ hp⟩

/-! ### Numbers that fit their register -/

theorem toNat_ofNat_of_lt {w x : Nat} (h : x < 2 ^ w) : (BitVec.ofNat w x).toNat = x := by
  rw [BitVec.toNat_ofNat, Nat.mod_eq_of_lt h]

/-- A length below its capacity does not wrap around. -/
theorem toNat_add_one_of_lt {n max : Byte} (h : n.toNat < max.toNat) : (n + 1).toNat = n.toNat + 1 := by
  bv_omega

/-! ### The bits of a number, most significant first (20_memory.md R42) -/

/-- The `n` low bits of `x`, bit `n - 1` first. -/
def msbBits (n x : Nat) : List Bool := (List.range n).map (fun k => x.testBit (n - 1 - k))

theorem groupBits_eq (v : SymVal) : groupBits v = msbBits 5 v.toNat := rfl

theorem byteBits_eq (b : Byte) : byteBits b = msbBits 8 b.toNat := rfl

theorem accBits_eq (u : B32Unit) : accBits u = msbBits u.nb.toNat u.acc.toNat := rfl

/-- The bits of a number are those of its upper part followed by those of its lower part. -/
theorem msbBits_split (m n x : Nat) : msbBits (m + n) x = msbBits m (x / 2 ^ n) ++ msbBits n (x % 2 ^ n) := by
  have hupper : ∀ k < m, x.testBit (m + n - 1 - k) = (x / 2 ^ n).testBit (m - 1 - k) := fun k hk => by
    rw [Nat.testBit_div_two_pow, show m + n - 1 - k = n + (m - 1 - k) by omega, Nat.add_comm]
  have hlower : ∀ k < n, x.testBit (m + n - 1 - (m + k)) = (x % 2 ^ n).testBit (n - 1 - k) := fun k hk => by
    rw [Nat.testBit_mod_two_pow, show m + n - 1 - (m + k) = n - 1 - k by omega]
    simp [show n - 1 - k < n by omega]
  rw [msbBits, List.range_add, List.map_append, List.map_map]
  exact congrArg₂ _ (List.map_congr_left (by simpa using hupper)) (List.map_congr_left (by simpa using hlower))

/-! ### The push of a symbol (41_b32_commands.md R89) -/

/-- The unit `u'` is `u` with the symbol `v` taken in: five more bits held, and the same bits before them. -/
structure SymbolTaken (c : Cfg) (v : SymVal) (u u' : B32Unit) : Prop where
  st_eq : u'.st = u.st
  cause_eq : u'.cause = u.cause
  bit_count : 8 * u'.klen.toNat + u'.nb.toNat = 8 * u.klen.toNat + u.nb.toNat + 5
  klen_le : u'.klen.toNat ≤ c.keyMax.toNat
  acc_lt : u'.acc.toNat < 2 ^ u'.nb.toNat
  kb_wf : u'.kb.wf = true
  kb_within : u'.kb.within u'.klen.toNat = true
  stream : streamBits u' = streamBits u ++ groupBits v

section TakeSymbol
variable {c : Cfg} {u : B32Unit} (v : SymVal)

/-- Five more bits on the accumulator. -/
theorem acc_symbol_lt (h : u.acc.toNat < 2 ^ u.nb.toNat) : u.acc.toNat * 32 + v.toNat < 2 ^ (u.nb.toNat + 5) := by
  have hv := v.isLt
  rw [pow_add]
  omega

/-- The accumulator's bits followed by the symbol's are the bits of the number that `B32.PUSH` computes. -/
theorem msbBits_acc_symbol :
    msbBits (u.nb.toNat + 5) (u.acc.toNat * 32 + v.toNat) = accBits u ++ groupBits v := by
  have hv := v.isLt
  rw [msbBits_split, accBits_eq, groupBits_eq]
  congr 2 <;> omega

/-- A symbol that completes no byte is taken in. -/
theorem symbolTaken_short (hi : B32Inv c u) (hn : u.nb.toNat < 3) :
    SymbolTaken c v u
      { u with acc := BitVec.ofNat 7 (u.acc.toNat * 32 + v.toNat), nb := BitVec.ofNat 3 (u.nb.toNat + 5) } := by
  have hlt := acc_symbol_lt v hi.acc_lt
  have hnb : (BitVec.ofNat 3 (u.nb.toNat + 5)).toNat = u.nb.toNat + 5 := toNat_ofNat_of_lt (by omega)
  have hacc : (BitVec.ofNat 7 (u.acc.toNat * 32 + v.toNat)).toNat = u.acc.toNat * 32 + v.toNat := by
    have : 2 ^ (u.nb.toNat + 5) ≤ 2 ^ 7 := Nat.pow_le_pow_right (by omega) (by omega)
    rw [toNat_ofNat_of_lt (by omega)]
  exact
    { st_eq := rfl
      cause_eq := rfl
      bit_count := by simp only [hnb]; omega
      klen_le := hi.klen_le
      acc_lt := by simpa only [hnb, hacc] using hlt
      kb_wf := hi.kb_wf
      kb_within := hi.kb_within
      stream := by
        rw [streamBits, streamBits, List.append_assoc, accBits_eq]
        simp only [hnb, hacc, msbBits_acc_symbol] }

/-- A write at `KLEN` appends one byte to the bytes of `KB`. -/
theorem flatMap_byteBits_writeByte {kb : Memory} (h : kb.wf = true) (n : Nat) (b : Byte) :
    (List.range (n + 1)).flatMap (fun i => byteBits ((kb.writeByte n b).readByte i)) =
      (List.range n).flatMap (fun i => byteBits (kb.readByte i)) ++ byteBits b := by
  have hbelow : ∀ i ∈ List.range n, byteBits ((kb.writeByte n b).readByte i) = byteBits (kb.readByte i) :=
    fun i hi => by rw [Memory.readByte_writeByte h, if_neg (List.mem_range.mp hi).ne]
  rw [List.range_succ, List.flatMap_append, List.flatMap_congr hbelow]
  simp [Memory.readByte_writeByte h]

/-- A symbol that completes a byte is taken in. -/
theorem symbolTaken_byte (hi : B32Inv c u) (hn : 3 ≤ u.nb.toNat) (hk : u.klen.toNat < c.keyMax.toNat) :
    SymbolTaken c v u
      { u with
        kb := u.kb.writeByte u.klen.toNat (BitVec.ofNat 8 ((u.acc.toNat * 32 + v.toNat) / 2 ^ (u.nb.toNat - 3)))
        klen := u.klen + 1
        acc := BitVec.ofNat 7 ((u.acc.toNat * 32 + v.toNat) % 2 ^ (u.nb.toNat - 3))
        nb := BitVec.ofNat 3 (u.nb.toNat - 3) } := by
  have hnlt := u.nb.isLt
  obtain ⟨n, hn3⟩ := Nat.exists_eq_add_of_le' hn
  have hlt := acc_symbol_lt v hi.acc_lt
  have hbits := msbBits_acc_symbol (u := u) v
  generalize u.acc.toNat * 32 + v.toNat = x at *
  rw [hn3, Nat.add_sub_cancel]
  rw [hn3, show n + 3 + 5 = 8 + n by omega] at hlt hbits
  have hnb : (BitVec.ofNat 3 n).toNat = n := toNat_ofNat_of_lt (by omega)
  have hmod : x % 2 ^ n < 2 ^ n := Nat.mod_lt _ (by positivity)
  have hacc : (BitVec.ofNat 7 (x % 2 ^ n)).toNat = x % 2 ^ n := by
    have : 2 ^ n ≤ 2 ^ 7 := Nat.pow_le_pow_right (by omega) (by omega)
    rw [toNat_ofNat_of_lt (by omega)]
  have hbyte : byteBits (BitVec.ofNat 8 (x / 2 ^ n)) = msbBits 8 (x / 2 ^ n) := by
    have : x / 2 ^ n < 2 ^ 8 := Nat.div_lt_of_lt_mul (by rwa [← pow_add, Nat.add_comm n])
    rw [byteBits_eq, toNat_ofNat_of_lt this]
  have hklen := toNat_add_one_of_lt hk
  exact
    { st_eq := rfl
      cause_eq := rfl
      bit_count := by simp only [hnb, hklen]; omega
      klen_le := by simp only [hklen]; omega
      acc_lt := by simpa only [hnb, hacc] using hmod
      kb_wf := Memory.writeByte_wf hi.kb_wf _ _
      kb_within := by
        simp only [hklen]
        exact Memory.writeByte_within (Memory.within_mono hi.kb_within (by omega)) (by omega) _
      stream := by
        rw [streamBits, streamBits, List.append_assoc, accBits_eq, ← hbits, msbBits_split]
        simp only [hnb, hacc, hklen, flatMap_byteBits_writeByte hi.kb_wf, hbyte, List.append_assoc] }

/-- R89: a symbol pushed in `DATA` is taken in, or the key buffer overflows. -/
theorem pushSymbol_ends (hi : B32Inv c u) {P : RetCode → B32Unit → Prop}
    (hok : ∀ u', SymbolTaken c v u u' → P .ok u') (herr : P (.unitError .keyOverflow) (b32InError 9)) :
    (pushSymbol c u v).Ends .b32 b32InError u P := by
  rcases pushSymbol_cases c u v with ⟨hn, h⟩ | ⟨_, _, h⟩ | ⟨hn, hk, h⟩ | ⟨_, _, h⟩ <;> rw [h]
  · exact hok _ (symbolTaken_short v hi hn)
  · exact ⟨rfl, herr⟩
  · exact hok _ (symbolTaken_byte v hi hn hk)
  · trivial

end TakeSymbol

/-! ### The invariant of unit B32 (10_state.md R34) -/

theorem b32Inv_reset (c : Cfg) : B32Inv c B32Unit.reset := by
  constructor <;> simp [B32Unit.reset]

theorem b32Inv_inError (c : Cfg) {k : BitVec 4} (hk : k = 8 ∨ k = 9) : B32Inv c (b32InError k) :=
  { klen_le := Nat.zero_le _, acc_lt := Nat.one_pos, kb_wf := rfl, kb_within := rfl
    cause_zero := by simp [b32InError]
    done_empty := by simp [b32InError]
    err_cleared := fun _ => hk.imp (congrArg b32InError) (congrArg b32InError) }

/-- R88: `B32.START` answers `OK` with the reset unit. -/
theorem b32Start_ends {c : Cfg} {u : B32Unit} {P : RetCode → B32Unit → Prop} (h : P .ok B32Unit.reset) :
    (b32Start c u).Ends .b32 b32InError u P := h

theorem b32Push_keeps_inv {c : Cfg} {u : B32Unit} (hi : B32Inv c u) (ch : Byte) :
    (b32Push c u ch).Ends .b32 b32InError u (fun _ u' => B32Inv c u') := by
  rcases b32Push_cases c u ch with ⟨_, h⟩ | ⟨v, hst, _, h⟩ | ⟨hst, _, h⟩ | ⟨_, h⟩ <;> rw [h]
  · exact hi
  · refine pushSymbol_ends v hi (fun u' ht => ?_) (b32Inv_inError c (.inr rfl))
    have hst' : u'.st = .data := ht.st_eq.trans hst
    exact
      { klen_le := ht.klen_le, acc_lt := ht.acc_lt, kb_wf := ht.kb_wf, kb_within := ht.kb_within
        cause_zero := fun _ => ht.cause_eq.trans (hi.cause_zero (by simp [hst]))
        done_empty := by simp [hst']
        err_cleared := by simp [hst'] }
  · have hne : u.st ≠ .err := by rcases hst with h | h <;> simp [h]
    exact
      { klen_le := hi.klen_le, acc_lt := hi.acc_lt, kb_wf := hi.kb_wf, kb_within := hi.kb_within
        cause_zero := fun _ => hi.cause_zero hne
        done_empty := by simp
        err_cleared := by simp }
  · exact ⟨rfl, b32Inv_inError c (.inl rfl)⟩

theorem b32End_keeps_inv {c : Cfg} {u : B32Unit} (hi : B32Inv c u) :
    (b32End u).Ends .b32 b32InError u (fun _ u' => B32Inv c u') := by
  rcases b32End_cases u with ⟨_, h⟩ | ⟨hst, h⟩ <;> rw [h]
  · exact hi
  · have hne : u.st ≠ .err := by rcases hst with h | h <;> simp [h]
    exact
      { klen_le := hi.klen_le, acc_lt := by simp, kb_wf := hi.kb_wf, kb_within := hi.kb_within
        cause_zero := fun _ => hi.cause_zero hne
        done_empty := by simp
        err_cleared := by simp }

/-- `B32.RDKEY` never changes the unit, so it keeps whatever holds of it. -/
theorem b32Rdkey_keeps {u : B32Unit} {Q : B32Unit → Prop} (hq : Q u) (c : Cfg) (i : Byte) :
    (b32Rdkey c u i).Ends .b32 b32InError u (fun _ => Q) := by
  rcases b32Rdkey_cases c u i with ⟨_, h⟩ | ⟨_, _, h⟩ | ⟨_, _, _, h⟩ | ⟨_, _, _, h⟩ <;> rw [h]
  · exact hq
  · exact hq
  · exact hq
  · trivial

theorem exec_keeps_b32Inv {i : Instr} {s t : State} (hi : B32Inv s.cfg s.b32) (h : exec i s = .next t) :
    B32Inv t.cfg t.b32 := by
  rw [exec_cfg h]
  by_cases hu : unitOf i = some .b32
  · have hends : ∃ rc, t.lastCode = some rc ∧ B32Inv s.cfg t.b32 := by
      cases i with
      | b32Start => exact finishB32_ends (b32Start_ends (b32Inv_reset s.cfg)) h
      | b32Push ch => exact finishB32_ends (b32Push_keeps_inv hi ch) h
      | b32End => exact finishB32_ends (b32End_keeps_inv hi) h
      | b32Rdkey j => exact finishB32_ends (b32Rdkey_keeps hi s.cfg j) h
      | dtStart | dtPush | dtRun | dtRdcode | rdreg => simp [unitOf] at hu
    obtain ⟨-, -, hb⟩ := hends
    exact hb
  · rwa [exec_b32_of_ne h hu]

/-! ### The invariant of unit DT (10_state.md R35) -/

theorem dtInv_reset (c : Cfg) : DtInv c DtUnit.reset := by
  constructor <;> simp [DtUnit.reset]

theorem dtInv_inError (c : Cfg) {k : BitVec 4} (hk : k = 10 ∨ k = 11 ∨ k = 12) : DtInv c (dtInError k) :=
  { dlen_le := Nat.zero_le _, db_wf := rfl, db_within := rfl, cb_wf := rfl, cb_within := rfl
    load_zero := by simp [dtInError]
    done_result := by simp [dtInError]
    err_cleared := fun _ => hk.imp (congrArg dtInError) (Or.imp (congrArg dtInError) (congrArg dtInError)) }

/-- R96: `DT.START` answers `OK` with the reset unit. -/
theorem dtStart_ends {c : Cfg} {u : DtUnit} {P : RetCode → DtUnit → Prop} (h : P .ok DtUnit.reset) :
    (dtStart c u).Ends .dt dtInError u P := h

theorem dtPush_keeps_inv {c : Cfg} {u : DtUnit} (hi : DtInv c u) (b : Byte) :
    (dtPush c u b).Ends .dt dtInError u (fun _ u' => DtInv c u') := by
  rcases dtPush_cases c u b with ⟨_, h⟩ | ⟨_, _, h⟩ | ⟨hst, hk, h⟩ | ⟨_, _, h⟩ <;> rw [h]
  · exact hi
  · exact ⟨rfl, dtInv_inError c (.inl rfl)⟩
  · have hdlen := toNat_add_one_of_lt hk
    exact
      { dlen_le := by simp only [hdlen]; omega
        db_wf := Memory.writeByte_wf hi.db_wf _ _
        db_within := by
          simp only [hdlen]
          exact Memory.writeByte_within (Memory.within_mono hi.db_within (by omega)) (by omega) _
        cb_wf := hi.cb_wf
        cb_within := hi.cb_within
        load_zero := hi.load_zero
        done_result := by simp [hst]
        err_cleared := by simp [hst] }
  · trivial

/-- In `LOAD` the character buffer is empty. -/
theorem DtInv.cb_nil {c : Cfg} {u : DtUnit} (hi : DtInv c u) (hst : u.st = .load) : u.cb = [] := by
  obtain ⟨-, -, -, -, -, hcb⟩ := hi.load_zero hst
  exact Memory.ext_readByte hi.cb_wf rfl hcb

/-- R81: a rendered character is a decimal digit. -/
theorem digitChar_toNat (v d i : Nat) : (digitChar v d i).toNat = 0x30 + v / 10 ^ (d - 1 - i) % 10 := by
  rw [digitChar, toNat_ofNat_of_lt (by omega)]

/-- R98: a successful run leaves the invariant's result. -/
theorem finishRun_inv {c : Cfg} {u : DtUnit} (hi : DtInv c u) (hst : u.st = .load) {d : Byte} {o b : Nat}
    (hd : 1 ≤ d.toNat) (hdc : d.toNat ≤ c.digitsMax.toNat) (ho : o < 16) (hod : o + 4 ≤ u.dlen.toNat)
    (hb : b < 2 ^ 31) : DtInv c (finishRun c u d o b) := by
  obtain ⟨hcause, -⟩ := hi.load_zero hst
  have hoff : (BitVec.ofNat 4 o).toNat = o := toNat_ofNat_of_lt (by omega)
  have hbin : (BitVec.ofNat 32 b).toNat = b := toNat_ofNat_of_lt (by omega)
  have hotp : (BitVec.ofNat 32 (otpReduce b d.toNat)).toNat = b % 10 ^ d.toNat := by
    have := Nat.mod_le b (10 ^ d.toNat)
    rw [otpReduce, toNat_ofNat_of_lt (by omega)]
  exact
    { dlen_le := hi.dlen_le
      db_wf := hi.db_wf
      db_within := hi.db_within
      cb_wf := renderCode_wf hi.cb_wf _ _ _
      cb_within := by
        simp only [finishRun, hi.cb_nil hst]
        exact renderCode_within _ _ _
      load_zero := by simp [finishRun]
      done_result := fun _ => by
        refine ⟨hd, hdc, by simpa only [finishRun, hoff], by simpa only [finishRun, hbin],
          by simp only [finishRun, digitCount, hotp, hbin], hcause, fun i hid => ?_⟩
        replace hid : i < d.toNat := hid
        simp only [finishRun, digitCount, hotp]
        rw [renderCode_readByte hi.cb_wf, if_pos (show i < Buffer.size c .cb from hid.trans_le hdc), codeByte,
          if_pos hid, digitChar_toNat, otpReduce]
      err_cleared := by simp [finishRun] }

theorem dtRun_keeps_inv {c : Cfg} {u : DtUnit} (hi : DtInv c u) (d : Byte) :
    (dtRun c u d).Ends .dt dtInError u (fun _ u' => DtInv c u') := by
  rcases dtRun_cases d hi.dlen_le with
    ⟨_, h⟩ | ⟨_, _, h⟩ | ⟨_, _, _, _, h⟩ | ⟨o, b, hst, hd, hdc, _, ho, hod, hb, h⟩ <;> rw [h]
  · exact hi
  · exact ⟨rfl, dtInv_inError c (.inr (.inl rfl))⟩
  · exact ⟨rfl, dtInv_inError c (.inr (.inr rfl))⟩
  · exact finishRun_inv hi hst hd hdc (by omega) hod (hb ▸ assembleCode_lt _ _ _ _)

theorem dtRdcode_keeps {u : DtUnit} {Q : DtUnit → Prop} (hq : Q u) (c : Cfg) (i : Byte) :
    (dtRdcode c u i).Ends .dt dtInError u (fun _ => Q) := by
  rcases dtRdcode_cases c u i with ⟨_, h⟩ | ⟨_, _, h⟩ | ⟨_, _, _, h⟩ | ⟨_, _, _, h⟩ <;> rw [h]
  · exact hq
  · exact hq
  · exact hq
  · trivial

theorem exec_keeps_dtInv {i : Instr} {s t : State} (hi : DtInv s.cfg s.dt) (h : exec i s = .next t) :
    DtInv t.cfg t.dt := by
  rw [exec_cfg h]
  by_cases hu : unitOf i = some .dt
  · have hends : ∃ rc, t.lastCode = some rc ∧ DtInv s.cfg t.dt := by
      cases i with
      | dtStart => exact finishDt_ends (dtStart_ends (dtInv_reset s.cfg)) h
      | dtPush b => exact finishDt_ends (dtPush_keeps_inv hi b) h
      | dtRun d => exact finishDt_ends (dtRun_keeps_inv hi d) h
      | dtRdcode j => exact finishDt_ends (dtRdcode_keeps hi s.cfg j) h
      | b32Start | b32Push | b32End | b32Rdkey | rdreg => simp [unitOf] at hu
    obtain ⟨-, -, hb⟩ := hends
    exact hb
  · rwa [exec_dt_of_ne h hu]

/-! ### The invariant of the machine -/

theorem exec_keeps_inv {i : Instr} {s t : State} (hi : Inv s) (h : exec i s = .next t) : Inv t :=
  { cfg_ok := (exec_cfg h).symm ▸ hi.cfg_ok
    b32 := exec_keeps_b32Inv hi.b32 h
    dt := exec_keeps_dtInv hi.dt h }

/-- Settles O34: the reset state of each unit meets its invariant. -/
theorem invariantHoldsAtReset : Obligations.InvariantHoldsAtReset := by
  have hreset : ∀ c : Cfg, c.wellFormed = true → Inv (State.resetOf c) := fun c hc =>
    ⟨hc, b32Inv_reset c, dtInv_reset c⟩
  exact ⟨hreset, hreset Cfg.reference rfl⟩

/-- Settles O35: the reset event makes the reset units, a command keeps the invariant, an illegal word changes neither
unit. -/
theorem everyStepKeepsTheInvariant : Obligations.EveryStepKeepsTheInvariant := by
  intro s t hi h
  rcases step_next h with ⟨_, _, rfl⟩ | ⟨w, _, _, ⟨i, _, hx⟩ | ⟨e, _, rfl⟩⟩
  · exact ⟨hi.cfg_ok, b32Inv_reset s.cfg, dtInv_reset s.cfg⟩
  · exact exec_keeps_inv (s := s.takeInput) ⟨hi.cfg_ok, hi.b32, hi.dt⟩ hx
  · exact ⟨hi.cfg_ok, hi.b32, hi.dt⟩

/-! ### The accepted symbols and the bit stream (10_state.md R34) -/

theorem decodeStream_reset (c : Cfg) : DecodeStream c B32Unit.reset [] := by
  constructor <;> simp [B32Unit.reset, streamBits, accBits, bitsOf]

theorem decodeStream_inError (c : Cfg) (vs : List SymVal) {k : BitVec 4} (hk : k = 8 ∨ k = 9) :
    DecodeStream c (b32InError k) vs :=
  { active := by simp [b32InError]
    ended := by simp [b32InError]
    failed := fun _ => ⟨rfl, rfl, rfl, fun _ => rfl, hk⟩
    capacity := Nat.zero_le _ }

/-- The symbols accepted once `B32.PUSH ch` was answered with `rc`. -/
def pushedSymbols (ch : Byte) (rc : RetCode) (vs : List SymVal) : List SymVal :=
  match charClass ch with
  | .sym v => if rc = .ok then vs ++ [v] else vs
  | .pad => vs
  | .inv => vs

theorem pushedSymbols_of_ne_ok {ch : Byte} {rc : RetCode} {vs : List SymVal} (h : rc ≠ .ok) :
    pushedSymbols ch rc vs = vs := by
  cases hc : charClass ch <;> simp [pushedSymbols, hc, h]

theorem acceptedAfter_push {w : CmdWord} {t : State} {vs : List SymVal} {ch : Byte} {rc : RetCode}
    (hd : decode w = .ok (.b32Push ch)) (hrc : t.lastCode = some rc) :
    acceptedAfter (.command w) t vs = pushedSymbols ch rc vs := by
  cases hc : charClass ch <;> simp [acceptedAfter, pushedSymbols, hd, hc, hrc]

theorem acceptedAfter_start {w : CmdWord} {t : State} {vs : List SymVal} (hd : decode w = .ok .b32Start) :
    acceptedAfter (.command w) t vs = [] := by
  simp [acceptedAfter, hd]

theorem acceptedAfter_illegal {w : CmdWord} {t : State} {vs : List SymVal} {e : Illegal} (hd : decode w = .error e) :
    acceptedAfter (.command w) t vs = vs := by
  simp [acceptedAfter, hd]

/-- Only `B32.START` and `B32.PUSH` bear on the accepted symbols. -/
theorem acceptedAfter_other {w : CmdWord} {t : State} {vs : List SymVal} {i : Instr} (hd : decode w = .ok i)
    (hstart : i ≠ .b32Start) (hpush : ∀ ch, i ≠ .b32Push ch) : acceptedAfter (.command w) t vs = vs := by
  cases i with
  | b32Start => exact absurd rfl hstart
  | b32Push ch => exact absurd rfl (hpush ch)
  | b32End | b32Rdkey | dtStart | dtPush | dtRun | dtRdcode | rdreg => simp [acceptedAfter, hd]

/-- A symbol taken in adds its five bits to the stream. -/
theorem SymbolTaken.decodeStream {c : Cfg} {u u' : B32Unit} {v : SymVal} {vs : List SymVal}
    (ht : SymbolTaken c v u u') (hst : u.st = .data) (hs : DecodeStream c u vs) : DecodeStream c u' (vs ++ [v]) := by
  obtain ⟨hnb, hklen, -, hcause, hstream⟩ := hs.active (.inl hst)
  have hst' : u'.st = .data := ht.st_eq.trans hst
  have hbits := ht.bit_count
  have hnlt := u'.nb.isLt
  exact
    { active := fun _ => by
        rw [List.length_append, List.length_singleton]
        refine ⟨by omega, by omega, ht.acc_lt, ht.cause_eq.trans hcause, ?_⟩
        rw [ht.stream, hstream]
        simp [bitsOf]
      ended := by simp [hst']
      failed := by simp [hst']
      capacity := ht.klen_le }

theorem b32Push_decodeStream {c : Cfg} {u : B32Unit} {vs : List SymVal} (hi : B32Inv c u) (hs : DecodeStream c u vs)
    (ch : Byte) :
    (b32Push c u ch).Ends .b32 b32InError u (fun rc u' => DecodeStream c u' (pushedSymbols ch rc vs)) := by
  rcases b32Push_cases c u ch with ⟨_, h⟩ | ⟨v, hst, hc, h⟩ | ⟨hst, hc, h⟩ | ⟨_, h⟩ <;> rw [h]
  · show DecodeStream c u (pushedSymbols ch _ vs)
    rwa [pushedSymbols_of_ne_ok (by simp)]
  · refine pushSymbol_ends v hi (fun u' ht => ?_) (decodeStream_inError c _ (.inr rfl))
    simpa [pushedSymbols, hc] using ht.decodeStream hst hs
  · have hpad : pushedSymbols ch .ok vs = vs := by simp [pushedSymbols, hc]
    show DecodeStream c { u with st := .pad } (pushedSymbols ch .ok vs)
    rw [hpad]
    exact
      { active := fun _ => hs.active hst
        ended := by simp
        failed := by simp
        capacity := hs.capacity }
  · exact ⟨rfl, decodeStream_inError c _ (.inl rfl)⟩

theorem b32End_decodeStream {c : Cfg} {u : B32Unit} {vs : List SymVal} (hs : DecodeStream c u vs) :
    (b32End u).Ends .b32 b32InError u (fun _ u' => DecodeStream c u' vs) := by
  rcases b32End_cases u with ⟨_, h⟩ | ⟨hst, h⟩ <;> rw [h]
  · exact hs
  · obtain ⟨-, hklen, -, hcause, -⟩ := hs.active hst
    exact
      { active := by simp
        ended := fun _ => ⟨rfl, rfl, hcause, hklen⟩
        failed := by simp
        capacity := hs.capacity }

theorem exec_keeps_decodeStream {i : Instr} {s t : State} {vs : List SymVal} {w : CmdWord} (hi : B32Inv s.cfg s.b32)
    (hs : DecodeStream s.cfg s.b32 vs) (hd : decode w = .ok i) (h : exec i s = .next t) :
    DecodeStream t.cfg t.b32 (acceptedAfter (.command w) t vs) := by
  rw [exec_cfg h]
  cases i with
  | b32Start =>
    obtain ⟨-, -, ht⟩ :=
      finishB32_ends (b32Start_ends (P := fun _ u => DecodeStream s.cfg u []) (decodeStream_reset s.cfg)) h
    rwa [acceptedAfter_start hd]
  | b32Push ch =>
    obtain ⟨rc, hrc, ht⟩ := finishB32_ends (b32Push_decodeStream hi hs ch) h
    rwa [acceptedAfter_push hd hrc]
  | b32End =>
    obtain ⟨-, -, ht⟩ := finishB32_ends (b32End_decodeStream hs) h
    rwa [acceptedAfter_other hd (by simp) (by simp)]
  | b32Rdkey j =>
    obtain ⟨-, -, ht⟩ := finishB32_ends (b32Rdkey_keeps (Q := (DecodeStream s.cfg · vs)) hs s.cfg j) h
    rwa [acceptedAfter_other hd (by simp) (by simp)]
  | dtStart | dtPush | dtRun | dtRdcode | rdreg =>
    rwa [acceptedAfter_other hd (by simp) (by simp), exec_b32_of_ne h (by simp [unitOf])]

/-- Settles O37: a symbol taken in appends its bits to the stream, and no other input changes the stream of a decode
that goes on. -/
theorem acceptedSymbolsAreInTheStream : Obligations.AcceptedSymbolsAreInTheStream := by
  refine ⟨decodeStream_reset, fun s t vs x rest hi hs hin h => ?_⟩
  rcases step_next h with ⟨_, hin', rfl⟩ | ⟨w, _, hin', hw⟩ <;> obtain ⟨rfl, -⟩ := List.cons.inj (hin.symm.trans hin')
  · exact decodeStream_reset s.cfg
  · rcases hw with ⟨i, hd, hx⟩ | ⟨e, hd, rfl⟩
    · exact exec_keeps_decodeStream (s := s.takeInput) hi hs hd hx
    · rwa [acceptedAfter_illegal hd]

/-! ### What a response depends on (10_state.md R22, R25) -/

/-- The response of a command that ends with this result. -/
def CmdResult.response {U : Type} : CmdResult U → Option Response
  | .success _ data => some (okResponse data)
  | .rejected r => some (rejectResponse r)
  | .unitError e => some (errorResponse e)
  | .badAccess _ => none

@[simp] theorem CmdResult.response_success {U : Type} (u : U) (data : Word32) :
    (CmdResult.success u data).response = some (okResponse data) := rfl

@[simp] theorem State.respond_lastResponse (rc : RetCode) (data : Word32) (s : State) :
    (s.respond rc data).lastResponse = some { rc := rc, rdata := data } := by
  simp [State.lastResponse]

theorem answerOf_finishB32 (s : State) (r : CmdResult B32Unit) : answerOf (s.finishB32 r) = r.response := by
  cases r with
  | success u data => exact State.respond_lastResponse ..
  | rejected j => exact State.respond_lastResponse ..
  | unitError e => cases e <;> exact State.respond_lastResponse ..
  | badAccess b => rfl

theorem answerOf_finishDt (s : State) (r : CmdResult DtUnit) : answerOf (s.finishDt r) = r.response := by
  cases r with
  | success u data => exact State.respond_lastResponse ..
  | rejected j => exact State.respond_lastResponse ..
  | unitError e => cases e <;> exact State.respond_lastResponse ..
  | badAccess b => rfl

theorem answerOf_finishB32_congr {s s' : State} {r r' : CmdResult B32Unit} (h : r'.response = r.response) :
    answerOf (s'.finishB32 r') = answerOf (s.finishB32 r) := by
  rw [answerOf_finishB32, answerOf_finishB32, h]

theorem answerOf_finishDt_congr {s s' : State} {r r' : CmdResult DtUnit} (h : r'.response = r.response) :
    answerOf (s'.finishDt r') = answerOf (s.finishDt r) := by
  rw [answerOf_finishDt, answerOf_finishDt, h]

/-- The response of a register read is a function of what was read. -/
theorem answerOf_finishRead (s s' : State) (r : Except Rejection Word32) :
    answerOf (s.finishRead r) = answerOf (s'.finishRead r) := by
  cases r with
  | ok data => exact (State.respond_lastResponse ..).trans (State.respond_lastResponse ..).symm
  | error j => exact (State.respond_lastResponse ..).trans (State.respond_lastResponse ..).symm

/-- The response of a B32 command depends on the parameters and unit B32 alone. -/
theorem answerOf_exec_b32 {i : Instr} (hu : unitOf i = some .b32) {s s' : State} (hc : s'.cfg = s.cfg)
    (hb : s'.b32 = s.b32) : answerOf (exec i s') = answerOf (exec i s) := by
  obtain ⟨f, hf, -⟩ := exec_of_b32 hu
  rw [hf, hf, answerOf_finishB32, answerOf_finishB32, hc, hb]

/-- The response of a DT command depends on the parameters and unit DT alone. -/
theorem answerOf_exec_dt {i : Instr} (hu : unitOf i = some .dt) {s s' : State} (hc : s'.cfg = s.cfg)
    (hd : s'.dt = s.dt) : answerOf (exec i s') = answerOf (exec i s) := by
  obtain ⟨f, hf, -⟩ := exec_of_dt hu
  rw [hf, hf, answerOf_finishDt, answerOf_finishDt, hc, hd]

/-- The response of `RDREG` depends on the readable registers alone. -/
theorem answerOf_exec_rdreg {s s' : State} (h : ∀ name, readRegister s' name = readRegister s name) (r : Byte) :
    answerOf (exec (.rdreg r) s') = answerOf (exec (.rdreg r) s) := by
  simp only [exec, execRdreg]
  cases regOfNumber r with
  | some name => simpa only [h] using answerOf_finishRead s' s _
  | none => exact answerOf_finishRead s' s _

/-! ### `KB` and `DB` -/

section KeyBuffer
variable (c : Cfg) (u : B32Unit) (m : Memory)

/-- R89: the response to a symbol pushed in `DATA`, in which no byte of `KB` occurs. -/
theorem pushSymbol_response (v : SymVal) :
    (pushSymbol c u v).response =
      if u.nb.toNat < 3 ∨ u.klen.toNat < c.keyMax.toNat then some (okResponse 0)
      else if u.klen = c.keyMax then some (errorResponse .keyOverflow) else none := by
  rcases pushSymbol_cases c u v with ⟨hn, h⟩ | ⟨hn, hk, h⟩ | ⟨hn, hk, h⟩ | ⟨hn, hk, h⟩ <;> rw [h]
  · rw [if_pos (.inl hn)]; rfl
  · rw [if_neg (by simp [hk, hn]), if_pos hk]; rfl
  · rw [if_pos (.inr hk)]; rfl
  · rw [if_neg (by omega), if_neg (fun he => hk.ne' (congrArg BitVec.toNat he))]; rfl

/-- R91: the response to `B32.RDKEY`, which reads in `DONE` and below `KLEN` only. -/
theorem b32Rdkey_response (i : Byte) :
    (b32Rdkey c u i).response =
      if u.st ≠ .done then some (rejectResponse .badState)
      else if u.klen.toNat ≤ i.toNat then some (rejectResponse .badIndex)
      else if i.toNat < c.keyMax.toNat then some (okResponse (zext32 (u.kb.readByte i.toNat))) else none := by
  rcases b32Rdkey_cases c u i with ⟨hst, h⟩ | ⟨hst, hk, h⟩ | ⟨hst, hk, hc, h⟩ | ⟨hst, hk, hc, h⟩ <;> rw [h]
  · rw [if_pos hst]; rfl
  · rw [if_neg (not_not.mpr hst), if_pos hk]; rfl
  · rw [if_neg (not_not.mpr hst), if_neg hk.not_ge, if_pos hc]; rfl
  · rw [if_neg (not_not.mpr hst), if_neg hk.not_ge, if_neg hc.not_gt]; rfl

theorem b32Push_response_kb (ch : Byte) :
    (b32Push c { u with kb := m } ch).response = (b32Push c u ch).response := by
  obtain ⟨st, cause, acc, nb, klen, kb⟩ := u
  have hsym : ∀ v, (pushSymbol c ⟨st, cause, acc, nb, klen, m⟩ v).response =
      (pushSymbol c ⟨st, cause, acc, nb, klen, kb⟩ v).response := fun v => by
    rw [pushSymbol_response, pushSymbol_response]
  cases st <;> cases hc : charClass ch <;> simp [b32Push, hc, hsym]

theorem b32End_response_kb : (b32End { u with kb := m }).response = (b32End u).response := by
  obtain ⟨st, cause, acc, nb, klen, kb⟩ := u
  cases st <;> rfl

theorem b32Rdkey_response_kb (hm : u.st = .done → ∀ a, a < u.klen.toNat → m.readByte a = u.kb.readByte a) (i : Byte) :
    (b32Rdkey c { u with kb := m } i).response = (b32Rdkey c u i).response := by
  rw [b32Rdkey_response, b32Rdkey_response]
  by_cases hst : u.st = .done
  · by_cases hk : i.toNat < u.klen.toNat
    · rw [hm hst _ hk]
    · simp [Nat.not_lt.mp hk]
  · simp [hst]

end KeyBuffer

/-- R97: the response to `DT.PUSH`, in which no byte of `DB` occurs. -/
theorem dtPush_response (c : Cfg) (u : DtUnit) (b : Byte) :
    (dtPush c u b).response =
      if u.st ≠ .load then some (rejectResponse .badState)
      else if u.dlen = c.digestMax then some (errorResponse .digestOverflow)
      else if u.dlen.toNat < c.digestMax.toNat then some (okResponse 0) else none := by
  rcases dtPush_cases c u b with ⟨hst, h⟩ | ⟨hst, hk, h⟩ | ⟨hst, hk, h⟩ | ⟨hst, hk, h⟩ <;> rw [h]
  · rw [if_pos hst]; rfl
  · rw [if_neg (not_not.mpr hst), if_pos hk]; rfl
  · rw [if_neg (not_not.mpr hst), if_neg (fun he => hk.ne (congrArg BitVec.toNat he)), if_pos hk]; rfl
  · rw [if_neg (not_not.mpr hst), if_neg (fun he => hk.ne' (congrArg BitVec.toNat he)), if_neg hk.not_gt]; rfl

/-- R99: the response to `DT.RDCODE`, in which no byte of `DB` occurs. -/
theorem dtRdcode_response (c : Cfg) (u : DtUnit) (i : Byte) :
    (dtRdcode c u i).response =
      if u.st ≠ .done then some (rejectResponse .badState)
      else if u.digits.toNat ≤ i.toNat then some (rejectResponse .badIndex)
      else if i.toNat < c.digitsMax.toNat then some (okResponse (zext32 (u.cb.readByte i.toNat))) else none := by
  rcases dtRdcode_cases c u i with ⟨hst, h⟩ | ⟨hst, hk, h⟩ | ⟨hst, hk, hc, h⟩ | ⟨hst, hk, hc, h⟩ <;> rw [h]
  · rw [if_pos hst]; rfl
  · rw [if_neg (not_not.mpr hst), if_pos hk]; rfl
  · rw [if_neg (not_not.mpr hst), if_neg hk.not_ge, if_pos hc]; rfl
  · rw [if_neg (not_not.mpr hst), if_neg hk.not_ge, if_neg hc.not_gt]; rfl

/-- R22: bytes of `KB` that are not readable show in no response. -/
theorem answerOf_exec_kb (i : Instr) (s : State) (m : Memory)
    (hm : s.b32.st = .done → ∀ a, a < s.b32.klen.toNat → m.readByte a = s.b32.kb.readByte a) :
    answerOf (exec i { s with b32 := { s.b32 with kb := m } }) = answerOf (exec i s) := by
  cases i with
  | b32Start => exact answerOf_finishB32_congr (r := b32Start s.cfg s.b32) rfl
  | b32Push ch => exact answerOf_finishB32_congr (b32Push_response_kb s.cfg s.b32 m ch)
  | b32End => exact answerOf_finishB32_congr (b32End_response_kb s.b32 m)
  | b32Rdkey j => exact answerOf_finishB32_congr (b32Rdkey_response_kb s.cfg s.b32 m hm j)
  | dtStart | dtPush | dtRun | dtRdcode => exact answerOf_exec_dt rfl rfl rfl
  | rdreg r => exact answerOf_exec_rdreg (fun name => by cases name <;> rfl) r

/-- R25: bytes of `DB` show in no response but that of `DT.RUN`. -/
theorem answerOf_exec_db (i : Instr) (s : State) (m : Memory) (hrun : ∀ d, i ≠ .dtRun d) :
    answerOf (exec i { s with dt := { s.dt with db := m } }) = answerOf (exec i s) := by
  cases i with
  | dtStart => exact answerOf_finishDt_congr (r := dtStart s.cfg s.dt) rfl
  | dtPush b => exact answerOf_finishDt_congr (by rw [dtPush_response, dtPush_response])
  | dtRun d => exact absurd rfl (hrun d)
  | dtRdcode j => exact answerOf_finishDt_congr (by rw [dtRdcode_response, dtRdcode_response])
  | b32Start | b32Push | b32End | b32Rdkey => exact answerOf_exec_b32 rfl rfl rfl
  | rdreg r => exact answerOf_exec_rdreg (fun name => by cases name <;> rfl) r

/-- Settles O32, by the response of each command. -/
theorem unreadableBytesDoNotShow : Obligations.UnreadableBytesDoNotShow :=
  ⟨answerOf_exec_kb, answerOf_exec_db⟩

/-! ### The reset table (10_state.md R33) -/

theorem zext32_toNat (b : Byte) : (zext32 b).toNat = b.toNat := by
  have hb := b.isLt
  rw [zext32, BitVec.toNat_setWidth, Nat.mod_eq_of_lt (by omega)]

/-- R27: the three parameters stand in disjoint fields of `CFG`. -/
theorem cfgRegister_toNat (c : Cfg) :
    (cfgRegister c).toNat = c.keyMax.toNat + c.digestMax.toNat * 2 ^ 8 + c.digitsMax.toNat * 2 ^ 16 := by
  have hk := c.keyMax.isLt
  have hd := c.digestMax.isLt
  have hfield : ∀ (b : Byte) (n : Nat), n ≤ 16 → (zext32 b <<< n).toNat = b.toNat * 2 ^ n := fun b n hn => by
    have hb : b.toNat * 2 ^ n < 2 ^ 8 * 2 ^ 16 :=
      Nat.mul_lt_mul_of_lt_of_le b.isLt (Nat.pow_le_pow_right (by omega) hn) (by positivity)
    rw [BitVec.toNat_shiftLeft, zext32_toNat, Nat.shiftLeft_eq, Nat.mod_eq_of_lt (by omega)]
  have hlow : c.keyMax.toNat ||| c.digestMax.toNat * 2 ^ 8 = c.digestMax.toNat * 2 ^ 8 + c.keyMax.toNat := by
    rw [Nat.or_comm, ← Nat.shiftLeft_eq, ← Nat.shiftLeft_add_eq_or_of_lt hk]
  have hall : (c.digestMax.toNat * 2 ^ 8 + c.keyMax.toNat) ||| c.digitsMax.toNat * 2 ^ 16 =
      c.digitsMax.toNat * 2 ^ 16 + (c.digestMax.toNat * 2 ^ 8 + c.keyMax.toNat) := by
    rw [Nat.or_comm, ← Nat.shiftLeft_eq c.digitsMax.toNat, ← Nat.shiftLeft_add_eq_or_of_lt (by omega)]
  rw [cfgRegister, BitVec.toNat_or, BitVec.toNat_or, zext32_toNat, hfield _ 8 (by omega), hfield _ 16 (by omega),
    hlow, hall]
  omega

/-- Settles O9: the units are written out, and `CFG` is the sum of its fields. -/
theorem resetStateIsTabulated : Obligations.ResetStateIsTabulated := by
  intro c
  have hb32 : b32StatusRegister B32Unit.reset = 0 := by decide
  have hdt : dtStatusRegister DtUnit.reset = 0 := by decide
  exact ⟨rfl, rfl, rfl, rfl, rfl, rfl, fun _ => rfl, rfl, rfl, rfl, rfl, rfl, rfl, rfl, rfl, fun _ => rfl, fun _ => rfl,
    ⟨cfgRegister c, rfl, cfgRegister_toNat c⟩, congrArg Except.ok hb32, rfl, congrArg Except.ok hdt, rfl, rfl, rfl⟩

end Sys2Proof.Machine

/-! The memory family (20_memory.md): the buffers (R38), the reads (R46) and the order of commands of different units
(R49). -/

namespace Sys2Proof.Machine

/-! ### Buffers (20_memory.md R38) -/

/-- R38: a write within the size succeeds, keeps the form and the bound, and is read back at its index only. -/
theorem memWrite_reads_back {size : Nat} {m : Memory} {i : Nat} (v : Byte) (hm : m.wf = true)
    (hw : m.within size = true) (hi : i < size) :
    ∃ m', memWrite size m i v = some m' ∧ m'.wf = true ∧ m'.within size = true ∧
      ∀ j, j < size → memRead size m' j = if j = i then some v else memRead size m j := by
  refine ⟨m.writeByte i v, memWrite_of_lt m v hi, Memory.writeByte_wf hm i v, Memory.writeByte_within hw hi v,
    fun j hj => ?_⟩
  rw [memRead_of_lt _ hj, memRead_of_lt _ hj, Memory.readByte_writeByte hm, apply_ite some]

/-- Settles O33: bounded access is access below the size and nothing from there on. -/
theorem buffersReadBackWhatWasWritten : Obligations.BuffersReadBackWhatWasWritten :=
  ⟨fun _ _ _ v => memWrite_reads_back v, fun _ m _ v hi => ⟨memRead_of_le m hi, memWrite_of_le m v hi⟩,
    fun _ _ => Memory.ext_readByte⟩

/-! ### Commands on states that agree (20_memory.md R49) -/

/-- A command that answers adds a response, and that is the last one. -/
theorem exec_lastResponse {i : Instr} {s t : State} (h : exec i s = .next t) : ∃ r, t.lastResponse = some r := by
  obtain ⟨⟨r, -, -, hr⟩, -⟩ := commandsTouchOnlyTheirOwnUnit i s t h
  exact ⟨r, by simp [State.lastResponse, hr]⟩

/-- Where the responses are the same, a command that answers in one state answers in the other. -/
theorem exec_next_of_answerOf_eq {i : Instr} {s s' t : State} (ha : answerOf (exec i s') = answerOf (exec i s))
    (h : exec i s = .next t) : ∃ t', exec i s' = .next t' ∧ t'.lastResponse = t.lastResponse := by
  obtain ⟨r, hr⟩ := exec_lastResponse h
  rw [h, answerOf, hr] at ha
  cases ho : exec i s' with
  | next t' => exact ⟨t', rfl, by rwa [ho, ← hr] at ha⟩
  | fault | refused => simp [ho, answerOf] at ha

/-- The response of a command depends on the parameters and the two units alone. -/
theorem answerOf_exec_congr (i : Instr) {s s' : State} (hc : s'.cfg = s.cfg) (hb : s'.b32 = s.b32)
    (hd : s'.dt = s.dt) : answerOf (exec i s') = answerOf (exec i s) := by
  rcases hu : unitOf i with _ | _ | _
  · obtain ⟨r, rfl⟩ := eq_rdreg_of_unitOf hu
    exact answerOf_exec_rdreg (fun name => by cases name <;> simp [readRegister, hc, hb, hd]) r
  · exact answerOf_exec_b32 hu hc hb
  · exact answerOf_exec_dt hu hc hd

/-! ### Reads (20_memory.md R46) -/

/-- `B32.RDKEY` changes no unit. -/
theorem exec_b32Rdkey_units {j : Byte} {s t : State} (h : exec (.b32Rdkey j) s = .next t) :
    t.b32 = s.b32 ∧ t.dt = s.dt := by
  obtain ⟨-, -, hb⟩ := finishB32_ends (b32Rdkey_keeps (Q := (· = s.b32)) rfl s.cfg j) h
  exact ⟨hb, exec_dt_of_ne h (by simp [unitOf])⟩

/-- `DT.RDCODE` changes no unit. -/
theorem exec_dtRdcode_units {j : Byte} {s t : State} (h : exec (.dtRdcode j) s = .next t) :
    t.b32 = s.b32 ∧ t.dt = s.dt := by
  obtain ⟨-, -, hd⟩ := finishDt_ends (dtRdcode_keeps (Q := (· = s.dt)) rfl s.cfg j) h
  exact ⟨exec_b32_of_ne h (by simp [unitOf]), hd⟩

/-- `RDREG` changes no unit. -/
theorem exec_rdreg_units {r : Byte} {s t : State} (h : exec (.rdreg r) s = .next t) :
    t.b32 = s.b32 ∧ t.dt = s.dt :=
  ⟨exec_b32_of_ne h (by simp [unitOf]), exec_dt_of_ne h (by simp [unitOf])⟩

/-- Settles O30: a read changes no unit, so the second one finds what the first one found. -/
theorem readsHaveNoSideEffect : Obligations.ReadsHaveNoSideEffect := by
  intro i s t hi h
  have hunits : ∀ {s t : State}, exec i s = .next t → t.b32 = s.b32 ∧ t.dt = s.dt := by
    rcases hi with ⟨j, rfl⟩ | ⟨j, rfl⟩ | ⟨r, rfl⟩
    · exact exec_b32Rdkey_units
    · exact exec_dtRdcode_units
    · exact exec_rdreg_units
  obtain ⟨hb, hd⟩ := hunits h
  obtain ⟨u, hu, hr⟩ := exec_next_of_answerOf_eq (answerOf_exec_congr i (exec_cfg h) hb hd) h
  obtain ⟨hb', hd'⟩ := hunits hu
  exact ⟨hb, hd, u, hu, hr, hb'.trans hb, hd'.trans hd⟩

/-! ### The order of commands of different units (20_memory.md R49) -/

/-- The unit `k` is the same in both states. -/
def SameUnit : UnitId → State → State → Prop
  | .b32, s, s' => s'.b32 = s.b32
  | .dt, s, s' => s'.dt = s.dt

theorem SameUnit.symm {k : UnitId} {s s' : State} (h : SameUnit k s s') : SameUnit k s' s := by
  cases k <;> exact Eq.symm h

theorem SameUnit.trans {k : UnitId} {s s' s'' : State} (h : SameUnit k s s') (h' : SameUnit k s' s'') :
    SameUnit k s s'' := by
  cases k <;> exact Eq.trans h' h

/-- A command of another unit or of none leaves the unit `k`. -/
theorem exec_sameUnit_of_ne {i : Instr} {k : UnitId} {s t : State} (h : exec i s = .next t)
    (hu : unitOf i ≠ some k) : SameUnit k s t := by
  cases k with
  | b32 => exact exec_b32_of_ne h hu
  | dt => exact exec_dt_of_ne h hu

/-- What a result makes of unit B32 depends on that unit alone. -/
theorem finishB32_b32_congr {s s' t t' : State} {r : CmdResult B32Unit} (hr : ∀ e, r = .unitError e → e.unit = .b32)
    (hb : s'.b32 = s.b32) (h : s.finishB32 r = .next t) (h' : s'.finishB32 r = .next t') : t'.b32 = t.b32 := by
  cases r with
  | success u data => cases h; cases h'; rfl
  | rejected j => cases h; cases h'; exact hb
  | unitError e =>
    cases h; cases h'
    obtain ⟨hs, -⟩ := s.raiseUnitError_b32 e (hr e rfl)
    obtain ⟨hs', -⟩ := s'.raiseUnitError_b32 e (hr e rfl)
    exact hs'.trans hs.symm
  | badAccess b => cases h

/-- What a result makes of unit DT depends on that unit alone. -/
theorem finishDt_dt_congr {s s' t t' : State} {r : CmdResult DtUnit} (hr : ∀ e, r = .unitError e → e.unit = .dt)
    (hd : s'.dt = s.dt) (h : s.finishDt r = .next t) (h' : s'.finishDt r = .next t') : t'.dt = t.dt := by
  cases r with
  | success u data => cases h; cases h'; rfl
  | rejected j => cases h; cases h'; exact hd
  | unitError e =>
    cases h; cases h'
    obtain ⟨hs, -⟩ := s.raiseUnitError_dt e (hr e rfl)
    obtain ⟨hs', -⟩ := s'.raiseUnitError_dt e (hr e rfl)
    exact hs'.trans hs.symm
  | badAccess b => cases h

/-- R49: on states that agree in the parameters and in its unit, a command gives the same response and leaves the same
unit. -/
theorem exec_congr_sameUnit {i : Instr} {k : UnitId} {s s' t : State} (hu : unitOf i = some k)
    (hc : s'.cfg = s.cfg) (hk : SameUnit k s s') (h : exec i s = .next t) :
    ∃ t', exec i s' = .next t' ∧ t'.lastResponse = t.lastResponse ∧ SameUnit k t t' := by
  cases k with
  | b32 =>
    obtain ⟨t', h', hr⟩ := exec_next_of_answerOf_eq (answerOf_exec_b32 hu hc hk) h
    obtain ⟨f, hf, he⟩ := exec_of_b32 hu
    have hb : s'.b32 = s.b32 := hk
    refine ⟨t', h', hr, finishB32_b32_congr (he _ _) hb ((hf s).symm.trans h) ?_⟩
    rw [← h', hf, hc, hb]
  | dt =>
    obtain ⟨t', h', hr⟩ := exec_next_of_answerOf_eq (answerOf_exec_dt hu hc hk) h
    obtain ⟨f, hf, he⟩ := exec_of_dt hu
    have hd : s'.dt = s.dt := hk
    refine ⟨t', h', hr, finishDt_dt_congr (he _ _) hd ((hf s).symm.trans h) ?_⟩
    rw [← h', hf, hc, hd]

/-- R49 (b): commands of two units may be swapped. -/
theorem exec_swap {i j : Instr} {k l : UnitId} {s t u : State} (hkl : k ≠ l) (hi : unitOf i = some k)
    (hj : unitOf j = some l) (ht : exec i s = .next t) (hu : exec j t = .next u) :
    ∃ t' u', exec j s = .next t' ∧ exec i t' = .next u' ∧
      t'.lastResponse = u.lastResponse ∧ u'.lastResponse = t.lastResponse ∧ SameUnit k u u' ∧ SameUnit l u u' := by
  have hil : unitOf i ≠ some l := by simpa [hi] using hkl
  have hjk : unitOf j ≠ some k := by simpa [hj] using hkl.symm
  obtain ⟨t', ht', hr, hl⟩ := exec_congr_sameUnit hj (exec_cfg ht).symm (exec_sameUnit_of_ne ht hil).symm hu
  obtain ⟨u', hu', hr', hk⟩ := exec_congr_sameUnit hi (exec_cfg ht') (exec_sameUnit_of_ne ht' hjk) ht
  exact ⟨t', u', ht', hu', hr, hr', (exec_sameUnit_of_ne hu hjk).symm.trans hk, hl.trans (exec_sameUnit_of_ne hu' hil)⟩

/-- Settles O39, by the swap in each order. -/
theorem commandsOfDifferentUnitsCommute : Obligations.CommandsOfDifferentUnitsCommute := by
  rintro i j s t u (⟨hi, hj⟩ | ⟨hi, hj⟩) ht hu
  · obtain ⟨t', u', ht', hu', hr, hr', hb, hd⟩ := exec_swap (by simp) hi hj ht hu
    exact ⟨t', u', ht', hu', hr, hr', hb, hd⟩
  · obtain ⟨t', u', ht', hu', hr, hr', hd, hb⟩ := exec_swap (by simp) hi hj ht hu
    exact ⟨t', u', ht', hu', hr, hr', hb, hd⟩

end Sys2Proof.Machine

/-! The encoding family (30_encoding.md): decoding and encoding are inverse (R61), the opcode table (R57), the illegal
words (R58), the response to a command word (R55) and the assembler's operands (R62). -/

namespace Sys2Proof.Machine

/-! ### The fields of a word (30_encoding.md R53) -/

theorem opcField_toNat (w : CmdWord) : (opcField w).toNat = w.toNat / 4096 := by
  have hw := w.isLt
  rw [opcField, BitVec.extractLsb'_toNat, Nat.shiftRight_eq_div_pow]
  omega

theorem rsvField_toNat (w : CmdWord) : (rsvField w).toNat = w.toNat / 256 % 16 := by
  rw [rsvField, BitVec.extractLsb'_toNat, Nat.shiftRight_eq_div_pow]

theorem argField_toNat (w : CmdWord) : (argField w).toNat = w.toNat % 256 := by
  simp [argField]

theorem rsvField_eq_zero_iff (w : CmdWord) : rsvField w = 0 ↔ w.toNat / 256 % 16 = 0 := by
  rw [← rsvField_toNat, ← BitVec.toNat_inj]; rfl

theorem argField_eq_zero_iff (w : CmdWord) : argField w = 0 ↔ w.toNat % 256 = 0 := by
  rw [← argField_toNat, ← BitVec.toNat_inj]; rfl

/-- A word with reserved field 0 is its opcode and its operand. -/
theorem packWord_fields {w : CmdWord} {o : BitVec 4} (hr : rsvField w = 0) (ho : (opcField w).toNat = o.toNat) :
    packWord o (argField w) = w := by
  rw [rsvField_eq_zero_iff] at hr
  rw [opcField_toNat] at ho
  apply BitVec.eq_of_toNat_eq
  rw [packWord_toNat, argField_toNat, ← ho]
  omega

/-! ### Decoding and encoding (R61) -/

theorem noOperand_eq_ok_iff {a : Byte} {i j : Instr} : noOperand a j = .ok i ↔ a = 0 ∧ j = i := by
  unfold noOperand
  split <;> simp_all

theorem decode_encode (i : Instr) : decode (encode i) = .ok i := by
  cases i <;> simp [decode, encode, noOperand]

theorem rsvField_of_decode {w : CmdWord} {i : Instr} (h : decode w = .ok i) : rsvField w = 0 := by
  by_contra hr
  rw [decode, if_pos hr] at h
  cases h

theorem encode_of_decode {w : CmdWord} {i : Instr} (h : decode w = .ok i) : encode i = w := by
  have hr := rsvField_of_decode h
  rw [decode, if_neg (not_not.mpr hr)] at h
  split at h
  case h_1 ho | h_3 ho | h_5 ho =>
    obtain ⟨ha, rfl⟩ := noOperand_eq_ok_iff.mp h
    exact (congrArg (packWord _) ha.symm).trans (packWord_fields hr ho)
  case h_2 ho | h_4 ho | h_6 ho | h_7 ho | h_8 ho | h_9 ho => cases h; exact packWord_fields hr ho
  case h_10 => cases h

/-- R61: a word decodes to the command it encodes, and to no other. -/
theorem decode_eq_ok_iff {w : CmdWord} {i : Instr} : decode w = .ok i ↔ encode i = w :=
  ⟨encode_of_decode, fun h => h ▸ decode_encode i⟩

/-- Settles O3: by the fields of the packed word one way, by the cases of the decoder the other way. -/
theorem decodeInvertsEncode : Obligations.DecodeInvertsEncode :=
  ⟨fun i _ => decode_encode i, fun _ _ => encode_of_decode⟩

/-- Settles O6: each word is the encoding of its command. -/
theorem spelledWordsDecode : Obligations.SpelledWordsDecode :=
  ⟨decode_encode .b32Start, decode_encode (.b32Push 0x4D), decode_encode .b32End, decode_encode (.b32Rdkey 1),
    decode_encode .dtStart, decode_encode (.dtPush 0x1F), decode_encode (.dtRun 6), decode_encode (.dtRdcode 5),
    decode_encode (.rdreg 6)⟩

/-! ### The opcode table (R57) -/

/-- Under the mask of a command with operand a word shows its opcode and its reserved field. -/
theorem and_mask_eq_iff (w : CmdWord) (o : BitVec 4) :
    w &&& (0xFF00 : CmdWord) = packWord o 0 ↔ packWord o (w.setWidth 8) = w := by
  have hmask : w &&& (0xFF00 : CmdWord) = (w >>> 8) <<< 8 := by
    ext i hi
    interval_cases i <;> simp
  rw [hmask, ← BitVec.toNat_inj, ← BitVec.toNat_inj]
  have hw := w.isLt
  have ho := o.isLt
  simp only [packWord_toNat, BitVec.toNat_shiftLeft, BitVec.toNat_ushiftRight, BitVec.toNat_setWidth,
    Nat.shiftRight_eq_div_pow, Nat.shiftLeft_eq, BitVec.ofNat_eq_ofNat, BitVec.toNat_ofNat]
  omega

/-- The row of a command without operand: the mask takes the whole word. -/
theorem and_allOnes_eq_iff_decode (w : CmdWord) (i : Instr) : w &&& 0xFFFF = encode i ↔ decode w = .ok i := by
  rw [decode_eq_ok_iff, eq_comm, show (0xFFFF : CmdWord) = BitVec.allOnes 16 from rfl, BitVec.and_allOnes]

/-- The row of a command with operand. -/
theorem and_mask_eq_iff_decode (w : CmdWord) (o : BitVec 4) (i : Byte → Instr)
    (hi : ∀ a, encode (i a) = packWord o a) :
    w &&& (0xFF00 : CmdWord) = packWord o 0 ↔ decode w = .ok (i (w.setWidth 8)) := by
  rw [decode_eq_ok_iff, hi, and_mask_eq_iff]

/-- Rows whose masks take the opcode and whose patterns differ in it spell no word in common. -/
theorem not_spells_both {p q : OpcodeRow} (hp : p.mask &&& 0xF000 = 0xF000) (hq : q.mask &&& 0xF000 = 0xF000)
    (hpq : p.pattern &&& 0xF000 ≠ q.pattern &&& 0xF000) (w : CmdWord) : ¬ (p.spells w ∧ q.spells w) := by
  rintro ⟨hwp, hwq⟩
  apply hpq
  calc p.pattern &&& 0xF000 = w &&& 0xF000 := by rw [← hwp, BitVec.and_assoc, hp]
    _ = q.pattern &&& 0xF000 := by rw [← hwq, BitVec.and_assoc, hq]

theorem opcodeTable_mask : ∀ p ∈ opcodeTable, p.mask &&& 0xF000 = 0xF000 := by decide

theorem opcodeTable_opcodes_differ :
    opcodeTable.Pairwise (fun p q => p.pattern &&& 0xF000 ≠ q.pattern &&& 0xF000) := by decide

/-- Settles O5, row by row for the selection and by the opcodes of the patterns for the disjointness. -/
theorem maskAndPatternSelectTheCommand : Obligations.MaskAndPatternSelectTheCommand := by
  constructor
  · intro w
    exact ⟨and_allOnes_eq_iff_decode w .b32Start, and_mask_eq_iff_decode w 2 .b32Push fun _ => rfl,
      and_allOnes_eq_iff_decode w .b32End, and_mask_eq_iff_decode w 4 .b32Rdkey fun _ => rfl,
      and_allOnes_eq_iff_decode w .dtStart, and_mask_eq_iff_decode w 6 .dtPush fun _ => rfl,
      and_mask_eq_iff_decode w 7 .dtRun fun _ => rfl, and_mask_eq_iff_decode w 8 .dtRdcode fun _ => rfl,
      and_mask_eq_iff_decode w 9 .rdreg fun _ => rfl⟩
  · exact opcodeTable_opcodes_differ.imp_of_mem fun hp hq =>
      not_spells_both (opcodeTable_mask _ hp) (opcodeTable_mask _ hq)

/-! ### The illegal words (R58) -/

theorem exists_error_iff_not_legal (w : CmdWord) : (∃ e, decode w = .error e) ↔ ¬ ∃ i, decode w = .ok i := by
  cases decode w <;> simp

theorem exists_noOperand_eq_error_iff {a : Byte} {i : Instr} : (∃ e, noOperand a i = .error e) ↔ a ≠ 0 := by
  unfold noOperand
  split <;> simp_all

/-- R58: the three cases, by the fields of the word. -/
theorem exists_error_iff_fields (w : CmdWord) : (∃ e, decode w = .error e) ↔
    ((opcField w).toNat = 0 ∨ 10 ≤ (opcField w).toNat) ∨ rsvField w ≠ 0 ∨
    (((opcField w).toNat = 1 ∨ (opcField w).toNat = 3 ∨ (opcField w).toNat = 5) ∧ argField w ≠ 0) := by
  by_cases hr : rsvField w = 0
  · rw [decode, if_neg (not_not.mpr hr)]
    split
    case h_1 ho | h_3 ho | h_5 ho => simp [ho, hr, exists_noOperand_eq_error_iff]
    case h_2 ho | h_4 ho | h_6 ho | h_7 ho | h_8 ho | h_9 ho => simp [ho, hr]
    case h_10 =>
      simp only [imp_false] at *
      exact iff_of_true ⟨_, rfl⟩ (.inl (by omega))
  · rw [decode, if_pos hr]
    exact iff_of_true ⟨_, rfl⟩ (.inr (.inl hr))

/-- The three commands without operand, and the six with one for each value of it. -/
def instrEquiv : Instr ≃ Fin 3 ⊕ Fin 6 × Byte where
  toFun
    | .b32Start => .inl 0
    | .b32End => .inl 1
    | .dtStart => .inl 2
    | .b32Push c => .inr (0, c)
    | .b32Rdkey i => .inr (1, i)
    | .dtPush b => .inr (2, b)
    | .dtRun d => .inr (3, d)
    | .dtRdcode i => .inr (4, i)
    | .rdreg r => .inr (5, r)
  invFun
    | .inl 0 => .b32Start
    | .inl 1 => .b32End
    | .inl 2 => .dtStart
    | .inr (0, c) => .b32Push c
    | .inr (1, i) => .b32Rdkey i
    | .inr (2, b) => .dtPush b
    | .inr (3, d) => .dtRun d
    | .inr (4, i) => .dtRdcode i
    | .inr (5, r) => .rdreg r
  left_inv i := by cases i <;> rfl
  right_inv x := by
    rcases x with n | ⟨n, b⟩ <;> fin_cases n <;> rfl

theorem card_byte : Nat.card Byte = 256 := (Nat.card_congr BitVec.equivFin.toEquiv).trans (Nat.card_fin _)

theorem card_cmdWord : Nat.card CmdWord = 65536 := (Nat.card_congr BitVec.equivFin.toEquiv).trans (Nat.card_fin _)

theorem card_instr : Nat.card Instr = 1539 :=
  calc Nat.card Instr = Nat.card (Fin 3 ⊕ Fin 6 × Byte) := Nat.card_congr instrEquiv
    _ = 3 + 6 * Nat.card Byte := by
      rw [Nat.card_sum, Nat.card_prod, Nat.card_fin, Nat.card_fin]
    _ = 1539 := by rw [card_byte]

/-- Encoding is a bijection from the commands onto the legal words. -/
theorem card_legal : Nat.card { w : CmdWord // ∃ i, decode w = .ok i } = 1539 := by
  have hbij : Function.Bijective
      (fun i : Instr => (⟨encode i, i, decode_encode i⟩ : { w : CmdWord // ∃ i, decode w = .ok i })) :=
    ⟨fun i j h => by
        have hij : encode i = encode j := congrArg Subtype.val h
        exact Except.ok.inj ((decode_encode i).symm.trans (hij ▸ decode_encode j)),
      fun ⟨w, i, h⟩ => ⟨i, Subtype.ext (encode_of_decode h)⟩⟩
  rw [← Nat.card_eq_of_bijective _ hbij, card_instr]

/-- The illegal words are the others. -/
theorem card_illegal : Nat.card { w : CmdWord // ∃ e, decode w = .error e } = 63997 := by
  classical
  have hsum := Nat.card_congr (Equiv.sumCompl fun w : CmdWord => ∃ i, decode w = .ok i)
  rw [Nat.card_sum, card_legal, card_cmdWord] at hsum
  rw [Nat.card_congr (Equiv.subtypeEquivRight exists_error_iff_not_legal)]
  omega

/-! ### The response to a command (R55) -/

/-- The commands that return data (R44). -/
def ReturnsData (i : Instr) : Prop :=
  i = .b32End ∨ (∃ j, i = .b32Rdkey j) ∨ (∃ d, i = .dtRun d) ∨ (∃ j, i = .dtRdcode j) ∨ ∃ r, i = .rdreg r

/-- A response that a command can get: not the one to an illegal word, and with `RDATA` 0 unless the code is `OK` and
`data` holds, which says that the command returns data. -/
structure ProperResponse (data : Prop) (r : Response) : Prop where
  not_illegal : r.rc ≠ .rejection .illegalCmd
  rdata_zero : r.rc ≠ .ok → r.rdata = 0
  returns : r.rdata ≠ 0 → data

section Proper
variable {p : Prop} {c : Cfg} {r : Response}

theorem properResponse_okResponse (hp : p) (v : Word32) : ProperResponse p (okResponse v) :=
  ⟨by simp [okResponse], fun h => absurd rfl h, fun _ => hp⟩

/-- A response with `RDATA` 0 is proper for every command. -/
theorem properResponse_zero {rc : RetCode} (h : rc ≠ .rejection .illegalCmd) :
    ProperResponse p { rc := rc, rdata := 0 } :=
  ⟨h, fun _ => rfl, fun hne => absurd rfl hne⟩

section B32
variable {u : B32Unit}

theorem pushSymbol_proper {v : SymVal} (h : (pushSymbol c u v).response = some r) : ProperResponse p r := by
  rw [pushSymbol_response] at h
  split_ifs at h <;> cases h
  · exact properResponse_zero (by simp)
  · exact properResponse_zero (by simp)

theorem b32Push_proper {ch : Byte} (h : (b32Push c u ch).response = some r) : ProperResponse p r := by
  rcases b32Push_cases c u ch with ⟨_, h'⟩ | ⟨v, _, _, h'⟩ | ⟨_, _, h'⟩ | ⟨_, h'⟩ <;> rw [h'] at h
  · cases h; exact properResponse_zero (by simp)
  · exact pushSymbol_proper h
  · cases h; exact properResponse_zero (by simp)
  · cases h; exact properResponse_zero (by simp)

theorem b32End_proper (hp : p) (h : (b32End u).response = some r) : ProperResponse p r := by
  rcases b32End_cases u with ⟨_, h'⟩ | ⟨_, h'⟩ <;> rw [h'] at h <;> cases h
  · exact properResponse_zero (by simp)
  · exact properResponse_okResponse hp _

theorem b32Rdkey_proper (hp : p) {i : Byte} (h : (b32Rdkey c u i).response = some r) : ProperResponse p r := by
  rw [b32Rdkey_response] at h
  split_ifs at h <;> cases h
  · exact properResponse_zero (by simp)
  · exact properResponse_zero (by simp)
  · exact properResponse_okResponse hp _

end B32

section Dt
variable {u : DtUnit}

theorem dtPush_proper {b : Byte} (h : (dtPush c u b).response = some r) : ProperResponse p r := by
  rw [dtPush_response] at h
  split_ifs at h <;> cases h
  · exact properResponse_zero (by simp)
  · exact properResponse_zero (by simp)
  · exact properResponse_zero (by simp)

/-- `DT.RUN` is rejected with `BAD_STATE` only, whatever the state. -/
theorem dtRun_rejected {d : Byte} {j : Rejection} (h : dtRun c u d = .rejected j) : j = .badState := by
  unfold dtRun at h
  split_ifs at h
  · cases h; rfl
  · split at h
    · cases h
    · split_ifs at h
      split at h <;> cases h

theorem dtRun_proper (hp : p) {d : Byte} (h : (dtRun c u d).response = some r) : ProperResponse p r := by
  cases hx : dtRun c u d with
  | success u' data => rw [hx] at h; cases h; exact properResponse_okResponse hp _
  | rejected j =>
    rw [hx, dtRun_rejected hx] at h; cases h; exact properResponse_zero (by simp)
  | unitError e => rw [hx] at h; cases h; exact properResponse_zero (by simp)
  | badAccess b => rw [hx] at h; cases h

theorem dtRdcode_proper (hp : p) {i : Byte} (h : (dtRdcode c u i).response = some r) : ProperResponse p r := by
  rw [dtRdcode_response] at h
  split_ifs at h <;> cases h
  · exact properResponse_zero (by simp)
  · exact properResponse_zero (by simp)
  · exact properResponse_okResponse hp _

end Dt

/-- A register is refused with `BAD_STATE` only. -/
theorem readRegister_error {s : State} {name : RegName} {j : Rejection} (h : readRegister s name = .error j) :
    j = .badState := by
  cases name with
  | cfg | b32Status | b32Klen | dtStatus | dtDlen => cases h
  | dtBincode | dtOtp =>
    simp only [readRegister, resultRegister] at h
    split_ifs at h
    cases h; rfl

theorem finishRead_proper (hp : p) {s : State} {x : Except Rejection Word32} (hx : ∀ j, x = .error j → j ≠ .illegalCmd)
    (h : answerOf (s.finishRead x) = some r) : ProperResponse p r := by
  cases x with
  | ok data =>
    cases (State.respond_lastResponse ..).symm.trans h
    exact properResponse_okResponse hp data
  | error j =>
    cases (State.respond_lastResponse ..).symm.trans h
    exact properResponse_zero (by simpa using hx j rfl)

theorem rdreg_proper (hp : p) {s : State} {n : Byte} (h : answerOf (exec (.rdreg n) s) = some r) :
    ProperResponse p r := by
  simp only [exec, execRdreg] at h
  cases hn : regOfNumber n with
  | some name =>
    rw [hn] at h
    exact finishRead_proper hp (fun j hj => by simp [readRegister_error hj]) h
  | none =>
    rw [hn] at h
    exact finishRead_proper hp (fun j hj => by cases hj; simp) h

/-- R55, R44: every response to a command is proper, whatever the state. -/
theorem exec_proper {i : Instr} {s : State} (h : answerOf (exec i s) = some r) : ProperResponse (ReturnsData i) r := by
  cases i with
  | b32Start => cases (answerOf_finishB32 s (b32Start s.cfg s.b32)).symm.trans h; exact properResponse_zero (by simp)
  | b32Push ch => exact b32Push_proper ((answerOf_finishB32 s _).symm.trans h)
  | b32End => exact b32End_proper (by simp [ReturnsData]) ((answerOf_finishB32 s _).symm.trans h)
  | b32Rdkey j => exact b32Rdkey_proper (by simp [ReturnsData]) ((answerOf_finishB32 s _).symm.trans h)
  | dtStart => cases (answerOf_finishDt s (dtStart s.cfg s.dt)).symm.trans h; exact properResponse_zero (by simp)
  | dtPush b => exact dtPush_proper ((answerOf_finishDt s _).symm.trans h)
  | dtRun d => exact dtRun_proper (by simp [ReturnsData]) ((answerOf_finishDt s _).symm.trans h)
  | dtRdcode j => exact dtRdcode_proper (by simp [ReturnsData]) ((answerOf_finishDt s _).symm.trans h)
  | rdreg n => exact rdreg_proper (by simp [ReturnsData]) h

end Proper

/-! ### Every command answers in a reachable state (R55) -/

theorem finishB32_answers {s : State} {x : CmdResult B32Unit} (h : ∀ b, x ≠ .badAccess b) :
    ∃ t, s.finishB32 x = .next t := by
  cases x with
  | success | rejected | unitError => exact ⟨_, rfl⟩
  | badAccess b => exact absurd rfl (h b)

theorem finishDt_answers {s : State} {x : CmdResult DtUnit} (h : ∀ b, x ≠ .badAccess b) :
    ∃ t, s.finishDt x = .next t := by
  cases x with
  | success | rejected | unitError => exact ⟨_, rfl⟩
  | badAccess b => exact absurd rfl (h b)

theorem finishRead_answers (s : State) (x : Except Rejection Word32) : ∃ t, s.finishRead x = .next t := by
  cases x <;> exact ⟨_, rfl⟩

section InRange
variable {c : Cfg}

theorem b32Push_in_range {u : B32Unit} (hk : u.klen.toNat ≤ c.keyMax.toNat) (ch : Byte) (b : Buffer) :
    b32Push c u ch ≠ .badAccess b := by
  rcases b32Push_cases c u ch with ⟨_, h⟩ | ⟨v, _, _, h⟩ | ⟨_, _, h⟩ | ⟨_, h⟩ <;> rw [h]
  · simp
  · rcases pushSymbol_cases c u v with ⟨_, h'⟩ | ⟨_, _, h'⟩ | ⟨_, _, h'⟩ | ⟨_, hlt, _⟩
    · simp [h']
    · simp [h']
    · simp [h']
    · omega
  · simp
  · simp

theorem b32End_in_range (u : B32Unit) (b : Buffer) : b32End u ≠ .badAccess b := by
  rcases b32End_cases u with ⟨_, h⟩ | ⟨_, h⟩ <;> simp [h]

theorem b32Rdkey_in_range {u : B32Unit} (hk : u.klen.toNat ≤ c.keyMax.toNat) (i : Byte) (b : Buffer) :
    b32Rdkey c u i ≠ .badAccess b := by
  rcases b32Rdkey_cases c u i with ⟨_, h⟩ | ⟨_, _, h⟩ | ⟨_, _, _, h⟩ | ⟨_, hlt, hle, _⟩
  · simp [h]
  · simp [h]
  · simp [h]
  · omega

theorem dtPush_in_range {u : DtUnit} (hl : u.dlen.toNat ≤ c.digestMax.toNat) (v : Byte) (b : Buffer) :
    dtPush c u v ≠ .badAccess b := by
  rcases dtPush_cases c u v with ⟨_, h⟩ | ⟨_, _, h⟩ | ⟨_, _, h⟩ | ⟨_, hlt, _⟩
  · simp [h]
  · simp [h]
  · simp [h]
  · omega

theorem dtRun_in_range {u : DtUnit} (hl : u.dlen.toNat ≤ c.digestMax.toNat) (d : Byte) (b : Buffer) :
    dtRun c u d ≠ .badAccess b := by
  rcases dtRun_cases d hl with ⟨_, h⟩ | ⟨_, _, h⟩ | ⟨_, _, _, _, h⟩ | ⟨_, _, _, _, _, _, _, _, _, h⟩ <;> simp [h]

theorem dtRdcode_in_range {u : DtUnit} (hd : u.st = .done → u.digits.toNat ≤ c.digitsMax.toNat) (i : Byte)
    (b : Buffer) : dtRdcode c u i ≠ .badAccess b := by
  rcases dtRdcode_cases c u i with ⟨_, h⟩ | ⟨_, _, h⟩ | ⟨_, _, _, h⟩ | ⟨hst, hlt, hle, _⟩
  · simp [h]
  · simp [h]
  · simp [h]
  · have := hd hst
    omega

end InRange

/-- R55: from a state that meets the invariant every command answers. -/
theorem exec_answers {s : State} (hi : Inv s) (i : Instr) : ∃ t, exec i s = .next t := by
  have hdigits : s.dt.st = .done → s.dt.digits.toNat ≤ s.cfg.digitsMax.toNat := fun hst => by
    obtain ⟨-, hle, -⟩ := hi.dt.done_result hst
    exact hle
  cases i with
  | b32Start | dtStart => exact ⟨_, rfl⟩
  | b32Push ch => exact finishB32_answers (b32Push_in_range hi.b32.klen_le ch)
  | b32End => exact finishB32_answers (b32End_in_range s.b32)
  | b32Rdkey j => exact finishB32_answers (b32Rdkey_in_range hi.b32.klen_le j)
  | dtPush b => exact finishDt_answers (dtPush_in_range hi.dt.dlen_le b)
  | dtRun d => exact finishDt_answers (dtRun_in_range hi.dt.dlen_le d)
  | dtRdcode j => exact finishDt_answers (dtRdcode_in_range hdigits j)
  | rdreg r =>
    obtain ⟨f, hf⟩ := exec_rdreg r
    rw [hf]
    exact finishRead_answers s _

/-! ### The response to a command word (R55, R58) -/

/-- R105: an illegal word is rejected, and the list of inputs moves on by that word. -/
theorem step_illegal {s : State} {w : CmdWord} {rest : List Input} {e : Illegal}
    (hin : s.inputs = .command w :: rest) (hd : decode w = .error e) :
    step s = .next (State.reject .illegalCmd { s with inputs := rest }) := by
  simp [step, runWord, State.takeInput, answerIllegal, hin, hd]

theorem Answered.lastResponse {s t : State} {r : Response} (h : Answered s t r) : t.lastResponse = some r := by
  obtain ⟨-, -, hr⟩ := h
  simp [State.lastResponse, hr]

/-- A command that answers adds one response, which is proper. -/
theorem exec_answered {i : Instr} {s t : State} (h : exec i s = .next t) :
    ∃ r, Answered s t r ∧ ProperResponse (ReturnsData i) r := by
  obtain ⟨⟨r, hr⟩, -⟩ := commandsTouchOnlyTheirOwnUnit i s t h
  exact ⟨r, hr, exec_proper (s := s) (by rw [h]; exact hr.lastResponse)⟩

/-- Settles O11: a command answers properly, an illegal word is rejected with `RDATA` 0. -/
theorem oneResponsePerCommandWord : Obligations.OneResponsePerCommandWord := by
  intro s w rest hi hin
  cases hd : decode w with
  | ok i =>
    obtain ⟨t, ht⟩ := exec_answers (s := { s with inputs := rest }) ⟨hi.cfg_ok, hi.b32, hi.dt⟩ i
    obtain ⟨r, ⟨-, hrest, hr⟩, hp⟩ := exec_answered ht
    refine ⟨t, r, (stepRunsTheDecodedCommand s w rest i hin hd).trans ht, hr, hrest, hp.rdata_zero, fun hne => ?_⟩
    simpa [ReturnsData] using hp.returns hne
  | error e =>
    exact ⟨_, rejectResponse .illegalCmd, step_illegal hin hd, rfl, rfl, fun _ => rfl, fun hne => absurd rfl hne⟩

/-- R58: the code `ILLEGAL_CMD` answers the illegal words and no others. -/
theorem step_illegalCmd_iff {s t : State} {w : CmdWord} {rest : List Input} (hin : s.inputs = .command w :: rest)
    (h : step s = .next t) : t.lastCode = some (.rejection .illegalCmd) ↔ ∃ e, decode w = .error e := by
  cases hd : decode w with
  | ok i =>
    rw [stepRunsTheDecodedCommand s w rest i hin hd] at h
    obtain ⟨r, hr, hp⟩ := exec_answered h
    simpa [State.lastCode, hr.lastResponse] using hp.not_illegal
  | error e =>
    cases (step_illegal hin hd).symm.trans h
    simp

/-- Settles O4: the three cases by the fields of the word, the numbers by counting the commands, and the answer by what
a command and an illegal word are answered. -/
theorem legalWordsAreExactlyThese : Obligations.LegalWordsAreExactlyThese := by
  refine ⟨fun w => ?_, card_legal, card_illegal, ⟨.reservedOpcode, by decide⟩, ⟨.reservedField, by decide⟩,
    fun s t w rest hin h => ⟨step_illegalCmd_iff hin h, fun hcode => ?_⟩⟩
  · rw [exists_error_iff_fields, opcField_toNat, ne_eq, ne_eq, rsvField_eq_zero_iff, argField_eq_zero_iff]
  · obtain ⟨e, hd⟩ := (step_illegalCmd_iff hin h).mp hcode
    cases (step_illegal hin hd).symm.trans h
    exact ⟨rfl, rfl, State.respond_lastResponse ..⟩

/-! ### The assembler (R62) -/

/-- An ill-formed line is an assembly error. -/
theorem assemble_eq_none {l : AsmLine} (h : l.wellFormed = false) : assemble l = none := by
  simp [assemble, h]

/-- A number is the operand as it stands. -/
theorem assemble_num {m : Mnemonic} {n : Nat} (hm : m.takesOperand = true) (hn : n ≤ 255) :
    assemble { op := m, arg := some (.num n) } = some (instrOf m (BitVec.ofNat 8 n)) := by
  simp [assemble, AsmLine.wellFormed, operandValue, hm, hn]

theorem mnemonicOf_instrOf (m : Mnemonic) (v : Byte) : mnemonicOf (instrOf m v) = m := by
  cases m <;> rfl

theorem takesOperand_iff (m : Mnemonic) : m.takesOperand = true ↔ m ≠ .b32Start ∧ m ≠ .b32End ∧ m ≠ .dtStart := by
  cases m <;> simp [Mnemonic.takesOperand]

/-- The low field of the word of a command with operand is the operand. -/
theorem encode_instrOf {m : Mnemonic} (hm : m.takesOperand = true) (v : Byte) :
    ∃ o, encode (instrOf m v) = packWord o v := by
  cases m with
  | b32Start | b32End | dtStart => cases hm
  | b32Push | b32Rdkey | dtPush | dtRun | dtRdcode | rdreg => exact ⟨_, rfl⟩

/-- No operand is well-formed on a command that takes none. -/
theorem not_wellFormed_of_operand {m : Mnemonic} (hm : m.takesOperand = false) (a : AsmOperand) :
    AsmLine.wellFormed { op := m, arg := some a } = false := by
  cases a with
  | num n => simp [AsmLine.wellFormed, hm]
  | chr ch =>
    have hne : m ≠ .b32Push := by rintro rfl; cases hm
    simp [AsmLine.wellFormed, hne]
  | reg r =>
    have hne : m ≠ .rdreg := by rintro rfl; cases hm
    simp [AsmLine.wellFormed, hne]

/-- Settles O55: by the check of a line, and the low field of a packed word. -/
theorem assemblerRefusesBadOperands : Obligations.AssemblerRefusesBadOperands := by
  refine ⟨fun m n hn => assemble_eq_none ?_, fun m a hm => assemble_eq_none (not_wellFormed_of_operand ?_ a),
    fun m n hn h1 h2 h3 => ?_, by decide⟩
  · simp [AsmLine.wellFormed, hn]
  · rcases hm with rfl | rfl | rfl <;> rfl
  · have hm := (takesOperand_iff m).mpr ⟨h1, h2, h3⟩
    obtain ⟨o, ho⟩ := encode_instrOf hm (BitVec.ofNat 8 n)
    refine ⟨_, assemble_num hm hn, mnemonicOf_instrOf m _, ?_⟩
    rw [ho, packWord_toNat, toNat_ofNat_of_lt (by omega)]
    omega

end Sys2Proof.Machine

/-! The family of the reference functions (40_reference_functions.md): `Strip` (R73), the characters of a text (R71, R72,
R74), decoding (R75 to R78) and the functions of a digest (R79 to R81). -/

namespace Sys2Proof.Machine

/-! ### `Strip` (R73) -/

theorem stripPads_eq_rdropWhile (t : List Byte) : stripPads t = t.rdropWhile (fun c => c = padChar) := rfl

theorem stripPads_eq_nil_iff {t : List Byte} : stripPads t = [] ↔ ∀ c ∈ t, c = padChar := by
  simp [stripPads_eq_rdropWhile, List.rdropWhile_eq_nil_iff]

theorem stripPads_eq_self_iff {t : List Byte} : stripPads t = t ↔ t.getLast? ≠ some padChar := by
  rw [stripPads_eq_rdropWhile, List.rdropWhile_eq_self_iff]
  rcases List.eq_nil_or_concat t with rfl | ⟨p, c, rfl⟩ <;> simp

/-- The second part counts only when it holds more than pads. -/
theorem stripPads_append (p q : List Byte) :
    stripPads (p ++ q) = if stripPads q = [] then stripPads p else p ++ stripPads q := by
  simp only [stripPads, List.reverse_append, List.dropWhile_append, List.isEmpty_iff, List.reverse_eq_nil_iff]
  split <;> simp

theorem stripPads_append_replicate (t : List Byte) (k : Nat) :
    stripPads (t ++ List.replicate k padChar) = stripPads t := by
  rw [stripPads_append, if_pos (stripPads_eq_nil_iff.mpr fun _ hc => List.eq_of_mem_replicate hc)]

theorem stripPads_of_no_pad {t : List Byte} (h : ∀ c ∈ t, c ≠ padChar) : stripPads t = t :=
  stripPads_eq_self_iff.mpr fun hl => h padChar (List.mem_of_getLast? hl) rfl

/-- A text is its stripped form followed by pads. -/
theorem exists_eq_stripPads_append (t : List Byte) : ∃ k, t = stripPads t ++ List.replicate k padChar := by
  have hpads : ∀ c ∈ t.rtakeWhile (fun c => c = padChar), c = padChar := fun c hc => by
    simpa using List.mem_rtakeWhile_imp hc
  refine ⟨(t.rtakeWhile (fun c => c = padChar)).length, ?_⟩
  rw [← List.eq_replicate_of_mem hpads, stripPads_eq_rdropWhile, List.rdropWhile_append_rtakeWhile]

theorem mem_stripPads {t : List Byte} {c : Byte} (hc : c ≠ padChar) : c ∈ stripPads t ↔ c ∈ t := by
  obtain ⟨k, hk⟩ := exists_eq_stripPads_append t
  conv_rhs => rw [hk]
  simp [hc]

/-- No initial part that does not end in a pad is longer than the stripped form. -/
theorem length_take_le_stripPads {t : List Byte} {n : Nat} (h : (t.take n).getLast? ≠ some padChar) :
    (t.take n).length ≤ (stripPads t).length := by
  have happ := stripPads_append (t.take n) (t.drop n)
  rw [List.take_append_drop, stripPads_eq_self_iff.mpr h] at happ
  rw [happ]
  split
  · exact le_rfl
  · rw [List.length_append]
    exact Nat.le_add_right ..

/-! ### The characters of a text (R71, R72, R74) -/

theorem foldCase_toNat (c : Byte) :
    (foldCase c).toNat = if 0x61 ≤ c.toNat ∧ c.toNat ≤ 0x7A then c.toNat - 0x20 else c.toNat := by
  unfold foldCase
  split
  · bv_omega
  · rfl

theorem foldCase_foldCase (c : Byte) : foldCase (foldCase c) = foldCase c := by
  have hup : ¬ (0x61 ≤ (foldCase c).toNat ∧ (foldCase c).toNat ≤ 0x7A) := by
    rw [foldCase_toNat]
    split <;> omega
  conv_lhs => rw [foldCase, if_neg hup]

@[simp] theorem symbolOf_foldCase (c : Byte) : symbolOf (foldCase c) = symbolOf c := by
  rw [symbolOf, foldCase_foldCase, symbolOf]

/-- Folding neither makes nor removes a pad. -/
theorem foldCase_eq_padChar_iff (c : Byte) : foldCase c = padChar ↔ c = padChar := by
  rw [← BitVec.toNat_inj, ← BitVec.toNat_inj, foldCase_toNat, show padChar.toNat = 0x3D from rfl]
  split <;> omega

theorem symbolValue_eq_none_iff (c : Byte) : symbolValue c = none ↔
    ¬ ((0x41 ≤ c.toNat ∧ c.toNat ≤ 0x5A) ∨ (0x32 ≤ c.toNat ∧ c.toNat ≤ 0x37)) := by
  simp only [symbolValue, ite_eq_iff, reduceCtorEq, and_false, false_or, and_true, not_or]

/-- The characters that are no symbol: those outside `A-Z`, `a-z` and `2-7`. -/
theorem symbolOf_eq_none_iff (c : Byte) : symbolOf c = none ↔
    ¬ ((0x41 ≤ c.toNat ∧ c.toNat ≤ 0x5A) ∨ (0x61 ≤ c.toNat ∧ c.toNat ≤ 0x7A) ∨
      (0x32 ≤ c.toNat ∧ c.toNat ≤ 0x37)) := by
  rw [symbolOf, symbolValue_eq_none_iff, foldCase_toNat]
  split <;> omega

theorem symbolOf_padChar : symbolOf padChar = none := by decide

theorem ne_padChar_of_isSome {c : Byte} (h : (symbolOf c).isSome = true) : c ≠ padChar := by
  rintro rfl
  simp [symbolOf_padChar] at h

/-! ### Decoding (R75 to R78) -/

/-- A decode depends on the stripped text alone. -/
theorem b32Decode_congr {t t' : List Byte} (h : stripPads t = stripPads t') : b32Decode t = b32Decode t' := by
  rw [b32Decode, validText, decodedLength, symbolsOf, h]
  rfl

theorem b32Decode_append_replicate (t : List Byte) (k : Nat) :
    b32Decode (t ++ List.replicate k padChar) = b32Decode t :=
  b32Decode_congr (stripPads_append_replicate t k)

theorem b32Decode_eq_some_iff {t out : List Byte} : b32Decode t = some out ↔
    validText t = true ∧ (List.range (decodedLength t)).map (byteOfBits (bitsOf (symbolsOf t))) = out := by
  simp [b32Decode]

theorem length_of_b32Decode {t out : List Byte} (h : b32Decode t = some out) : out.length = decodedLength t := by
  obtain ⟨-, rfl⟩ := b32Decode_eq_some_iff.mp h
  simp

/-- A stripped text with a character that is no symbol does not decode. -/
theorem b32Decode_eq_none {t : List Byte} {c : Byte} (hc : c ∈ stripPads t) (hs : symbolOf c = none) :
    b32Decode t = none := by
  have hv : validText t = false := List.all_eq_false.mpr ⟨c, hc, by simp [hs]⟩
  simp [b32Decode, hv]

/-- Every list of symbols decodes. -/
theorem exists_b32Decode_of_symbols {t : List Byte} (h : t.all (fun c => (symbolOf c).isSome) = true) :
    ∃ out, b32Decode t = some out ∧ out.length = 5 * t.length / 8 := by
  have hstrip : stripPads t = t :=
    stripPads_of_no_pad fun c hc => ne_padChar_of_isSome (List.all_eq_true.mp h c hc)
  have hv : validText t = true := by rwa [validText, hstrip]
  have hout := b32Decode_eq_some_iff.mpr ⟨hv, rfl⟩
  exact ⟨_, hout, by rw [length_of_b32Decode hout, decodedLength, hstrip]⟩

theorem stripPads_map_foldCase (t : List Byte) : stripPads (t.map foldCase) = (stripPads t).map foldCase := by
  simp [stripPads, ← List.map_reverse, List.dropWhile_map, Function.comp_def, foldCase_eq_padChar_iff]

/-- A text and its upper-case form decode to the same. -/
theorem b32Decode_map_foldCase (t : List Byte) : b32Decode (t.map foldCase) = b32Decode t := by
  simp [b32Decode, validText, decodedLength, symbolsOf, stripPads_map_foldCase, Function.comp_def, List.filterMap_map]

/-- Settles O44: by the library's facts about dropping from the end of a list. -/
theorem padRunContributesNothing : Obligations.PadRunContributesNothing :=
  ⟨exists_eq_stripPads_append, fun _ => stripPads_eq_self_iff.mp (List.rdropWhile_idempotent _ _),
    fun _ _ => length_take_le_stripPads, b32Decode_append_replicate⟩

/-- Settles O45: the pad stays in the stripped text, and it is no symbol. -/
theorem interiorPadIsAnError : Obligations.InteriorPadIsAnError := by
  intro p q c hc hne
  have hq : stripPads q ≠ [] := List.ne_nil_of_mem ((mem_stripPads hne).mpr hc)
  refine b32Decode_eq_none ?_ symbolOf_padChar
  rw [List.append_cons, stripPads_append, if_neg hq]
  simp

/-- Settles O46: pads leave a decode as it is, and every list of symbols decodes. -/
theorem nothingButTheCharactersIsChecked : Obligations.NothingButTheCharactersIsChecked := by
  refine ⟨fun k => b32Decode_append_replicate [] k, fun c hc => ?_, fun t k ht => ?_, by decide, by decide⟩
  · obtain ⟨out, hout, hlen⟩ := exists_b32Decode_of_symbols (t := [c]) (by simpa using hc)
    have hnil : out = [] := by simpa using hlen
    rw [hout, hnil]
  · rw [b32Decode_append_replicate]
    exact exists_b32Decode_of_symbols ht

/-- Settles O47: each property from the rule about its function. -/
theorem sourcePropertiesOfTheFunctions : Obligations.SourcePropertiesOfTheFunctions := by
  refine ⟨fun t out h hp => ?_, rfl, fun t => (b32Decode_map_foldCase t).symm, fun t c hc hout => ?_, fun v d => ?_⟩
  · rw [length_of_b32Decode h, decodedLength, stripPads_of_no_pad hp]
  · have hpad : c ≠ padChar := by
      rintro rfl
      exact hout (.inr (.inr (.inr rfl)))
    have hnone : symbolOf c = none :=
      (symbolOf_eq_none_iff c).mpr fun h => hout (h.imp_right (Or.imp_right .inl))
    exact b32Decode_eq_none ((mem_stripPads hpad).mpr hc) hnone
  · simp [formatDigits]

/-! ### Positional numbers -/

/-- The number whose digits in base `B`, most significant first, are the `n` lowest digits of `x`. -/
theorem foldl_digits (B : Nat) {f : Nat → Nat} {n x : Nat} (h : ∀ i < n, f i = x / B ^ (n - 1 - i) % B) :
    (List.range n).foldl (fun a i => a * B + f i) 0 = x % B ^ n := by
  induction n generalizing x with
  | zero => simp [Nat.mod_one]
  | succ n ih =>
    have hupper : ∀ i < n, f i = x / B / B ^ (n - 1 - i) % B := fun i hi => by
      rw [h i (by omega), Nat.div_div_eq_div_mul, ← pow_succ', show n + 1 - 1 - i = n - 1 - i + 1 by omega]
    have hlast : f n = x % B := by simpa using h n (by omega)
    rw [List.range_succ, List.foldl_append, ih hupper, List.foldl_cons, List.foldl_nil, hlast, pow_succ',
      Nat.mod_mul]
    ring

/-- Bytes that are the lowest base-256 digits of a number form it. -/
theorem bigEndian_map_range {f : Nat → Byte} {n x : Nat} (h : ∀ i < n, (f i).toNat = x / 256 ^ (n - 1 - i) % 256) :
    bigEndian ((List.range n).map f) = x % 256 ^ n := by
  rw [bigEndian, List.foldl_map, foldl_digits 256 h]

/-- The rendering of a value shows its `d` lowest decimal digits. -/
theorem decimalNumber_formatDigits (v d : Nat) : decimalNumber (formatDigits v d) = v % 10 ^ d := by
  rw [decimalNumber, formatDigits, List.foldl_map]
  exact foldl_digits 10 fun i _ => by rw [digitChar_toNat, Nat.add_sub_cancel_left]

/-! ### The symbols as one number (R75) -/

theorem base32Number_concat (vs : List SymVal) (v : SymVal) :
    base32Number (vs ++ [v]) = base32Number vs * 32 + v.toNat := by
  simp [base32Number]

theorem base32Number_lt (vs : List SymVal) : base32Number vs < 2 ^ (5 * vs.length) := by
  induction vs using List.reverseRecOn with
  | nil => decide
  | append_singleton vs v ih =>
    have hv := v.isLt
    rw [base32Number_concat, List.length_append, List.length_singleton, Nat.mul_add, pow_add]
    omega

/-- The bit stream of the symbols holds the bits of the number they form. -/
theorem bitsOf_eq_msbBits (vs : List SymVal) : bitsOf vs = msbBits (5 * vs.length) (base32Number vs) := by
  induction vs using List.reverseRecOn with
  | nil => rfl
  | append_singleton vs v ih =>
    have hv := v.isLt
    have hbits : bitsOf (vs ++ [v]) = bitsOf vs ++ groupBits v := by simp [bitsOf]
    rw [hbits, ih, groupBits_eq, List.length_append, List.length_singleton, Nat.mul_succ, msbBits_split,
      base32Number_concat]
    congr 2 <;> omega

theorem getD_msbBits {n k : Nat} (x : Nat) (h : k < n) : (msbBits n x).getD k false = x.testBit (n - 1 - k) := by
  simp [msbBits, h]

/-- The sum that makes up a byte, in the form of a base-2 number. -/
theorem sum_eq_foldl_bits (f : Nat → Nat) : ((List.range 8).map (fun k => f k * 2 ^ (7 - k))).sum =
    (List.range 8).foldl (fun a k => a * 2 + f k) 0 := by
  simp only [List.range_succ, List.range_zero, List.nil_append, List.cons_append, List.map_cons, List.map_nil,
    List.sum_cons, List.sum_nil, List.foldl_cons, List.foldl_nil]
  ring

/-- Byte `i` of the bits of a number is its base-256 digit at that place. -/
theorem byteOfBits_msbBits {n i : Nat} (x : Nat) (h : 8 * i + 8 ≤ n) :
    (byteOfBits (msbBits n x) i).toNat = x / 2 ^ (n - 8 * i - 8) % 256 := by
  have hbit : ∀ k < 8, ((msbBits n x).getD (8 * i + k) false).toNat =
      x / 2 ^ (n - 8 * i - 8) / 2 ^ (8 - 1 - k) % 2 := fun k hk => by
    rw [getD_msbBits x (by omega), Nat.toNat_testBit, Nat.div_div_eq_div_mul, ← pow_add,
      show n - 1 - (8 * i + k) = n - 8 * i - 8 + (8 - 1 - k) by omega]
  rw [byteOfBits, sum_eq_foldl_bits, foldl_digits 2 hbit, BitVec.toNat_ofNat, Nat.mod_mod,
    show 2 ^ 8 = 256 from rfl]

theorem length_symbolsOf {t : List Byte} (h : validText t = true) : (symbolsOf t).length = (stripPads t).length :=
  List.filterMap_length_eq_length.mpr (List.all_eq_true.mp h)

/-- The whole bytes of the bits of a number, read as a number: it without its last bits. -/
theorem bigEndian_bytes_msbBits {n x : Nat} (h : x < 2 ^ n) :
    bigEndian ((List.range (n / 8)).map (byteOfBits (msbBits n x))) = x / 2 ^ (n % 8) := by
  have hpow : ∀ k, 2 ^ (n % 8) * 256 ^ k = 2 ^ (n % 8 + 8 * k) := fun k => by
    rw [pow_add, pow_mul, show 2 ^ 8 = 256 from rfl]
  have hbyte : ∀ i < n / 8, (byteOfBits (msbBits n x) i).toNat =
      x / 2 ^ (n % 8) / 256 ^ (n / 8 - 1 - i) % 256 := fun i hi => by
    rw [byteOfBits_msbBits x (by omega), Nat.div_div_eq_div_mul, hpow,
      show n - 8 * i - 8 = n % 8 + 8 * (n / 8 - 1 - i) by omega]
  have hlt : x / 2 ^ (n % 8) < 256 ^ (n / 8) :=
    Nat.div_lt_of_lt_mul (by rwa [hpow, Nat.mod_add_div])
  rw [bigEndian_map_range hbyte, Nat.mod_eq_of_lt hlt]

/-- Settles O48: the decoded bytes are the whole bytes of the bits of the symbols' number. -/
theorem decodedBytesAreTheSymbolNumber : Obligations.DecodedBytesAreTheSymbolNumber := by
  intro t out h
  obtain ⟨hv, hout⟩ := b32Decode_eq_some_iff.mp h
  have hlen := length_symbolsOf hv
  refine ⟨hlen, length_of_b32Decode h, ?_⟩
  rw [← hout, decodedLength, ← hlen, bitsOf_eq_msbBits, bigEndian_bytes_msbBits (base32Number_lt _)]

/-! ### Truncation, reduction and rendering (R79 to R81) -/

/-- Settles O49: by the forms of the offset and of the code, and the bounds of a remainder. -/
theorem truncationAndReduction : Obligations.TruncationAndReduction := by
  refine ⟨fun d o ho _ _ => ?_, fun b n => ⟨rfl, Nat.mod_lt _ (by positivity), Nat.mod_le ..⟩, fun b n hb hn => ?_⟩
  · have hoff : digestOffset d = o := by rw [digestOffset, offsetOf_eq, ho]
    rw [dynTrunc, hoff]
    exact ⟨rfl, assembleCode_lt .., assembleCode_eq ..⟩
  · have hten : 10 ^ 10 ≤ 10 ^ n := Nat.pow_le_pow_right (by decide) hn
    exact Nat.mod_eq_of_lt (by omega)

/-- Settles O50: by the code of one character, and the number its digits form. -/
theorem renderingIsTheDecimalNumeral : Obligations.RenderingIsTheDecimalNumeral := by
  refine ⟨fun v d hv => ⟨by simp [formatDigits], fun c hc => ?_, ?_, fun i hi => ?_⟩, by decide⟩
  · obtain ⟨i, -, rfl⟩ := List.mem_map.mp hc
    rw [digitChar_toNat]
    omega
  · rw [decimalNumber_formatDigits, Nat.mod_eq_of_lt hv]
  · rw [← digitChar_toNat]
    simp [formatDigits, hi]

end Sys2Proof.Machine

/-! The family of the B32 commands (41_b32_commands.md): the classes of characters (R87), each command (R88 to R91), what
the storing commands leave, the capacity of the key buffer (R94), and the commands of a whole text (R92). -/

namespace Sys2Proof.Machine

/-! ### The classes of characters (R87, R71) -/

theorem charClass_eq_sym_iff {c : Byte} {v : SymVal} : charClass c = .sym v ↔ symbolOf c = some v := by
  rw [charClass, ← symbolOf]
  cases symbolOf c with
  | some w => simp
  | none => by_cases hp : c = padChar <;> simp [hp]

theorem charClass_eq_pad_iff {c : Byte} : charClass c = .pad ↔ c = padChar := by
  rw [charClass, ← symbolOf]
  cases hs : symbolOf c with
  | some w => simpa using ne_padChar_of_isSome (c := c) (by simp [hs])
  | none => simp

theorem charClass_eq_inv_iff {c : Byte} : charClass c = .inv ↔ symbolOf c = none ∧ c ≠ padChar := by
  rw [charClass, ← symbolOf]
  cases symbolOf c with
  | some w => simp
  | none => simp

theorem exists_charClass_eq_sym_iff {c : Byte} : (∃ v, charClass c = .sym v) ↔
    (0x32 ≤ c.toNat ∧ c.toNat ≤ 0x37) ∨ (0x41 ≤ c.toNat ∧ c.toNat ≤ 0x5A) ∨ (0x61 ≤ c.toNat ∧ c.toNat ≤ 0x7A) := by
  simp only [charClass_eq_sym_iff, ← Option.ne_none_iff_exists', ne_eq, symbolOf_eq_none_iff]
  omega

theorem charClass_eq_inv_iff_ranges {c : Byte} : charClass c = .inv ↔
    c.toNat ≤ 0x31 ∨ (0x38 ≤ c.toNat ∧ c.toNat ≤ 0x3C) ∨ (0x3E ≤ c.toNat ∧ c.toNat ≤ 0x40) ∨
      (0x5B ≤ c.toNat ∧ c.toNat ≤ 0x60) ∨ 0x7B ≤ c.toNat := by
  rw [charClass_eq_inv_iff, symbolOf_eq_none_iff, ne_eq, ← BitVec.toNat_inj, show padChar.toNat = 0x3D from rfl]
  omega

/-- R71: `Val` as a number. -/
theorem symbolValue_map_toNat (c : Byte) : (symbolValue c).map BitVec.toNat =
    if 0x41 ≤ c.toNat ∧ c.toNat ≤ 0x5A then some (c.toNat - 0x41)
    else if 0x32 ≤ c.toNat ∧ c.toNat ≤ 0x37 then some (c.toNat - 0x32 + 26) else none := by
  rw [symbolValue]
  split
  · rw [Option.map_some, toNat_ofNat_of_lt (by omega)]
  · split
    · rw [Option.map_some, toNat_ofNat_of_lt (by omega)]
    · rfl

/-- The value of a symbol by the range of its code, lower case as upper case. -/
theorem toNat_of_charClass_eq_sym {c : Byte} {v : SymVal} (h : charClass c = .sym v) :
    (0x41 ≤ c.toNat → c.toNat ≤ 0x5A → v.toNat = c.toNat - 0x41) ∧
    (0x61 ≤ c.toNat → c.toNat ≤ 0x7A → v.toNat = c.toNat - 0x61) ∧
    (0x32 ≤ c.toNat → c.toNat ≤ 0x37 → v.toNat = c.toNat - 0x32 + 26) := by
  have hv := symbolValue_map_toNat (foldCase c)
  rw [← symbolOf, charClass_eq_sym_iff.mp h, foldCase_toNat, Option.map_some] at hv
  grind

/-- The codes of the symbols. -/
def symbolCodes : Finset Nat := Finset.Icc 0x32 0x37 ∪ Finset.Icc 0x41 0x5A ∪ Finset.Icc 0x61 0x7A

/-- As many bytes have their code in a set as the set has members. -/
theorem card_byte_of_codes {p : Byte → Prop} {S : Finset Nat} (hlt : ∀ n ∈ S, n < 256)
    (hp : ∀ c : Byte, p c ↔ c.toNat ∈ S) : Nat.card { c // p c } = S.card := by
  have hbij : Function.Bijective (fun c : { c // p c } => (⟨c.1.toNat, (hp c).mp c.2⟩ : S)) :=
    ⟨fun c d h => Subtype.ext (BitVec.eq_of_toNat_eq (congrArg Subtype.val h)), fun ⟨n, hn⟩ =>
      have hc : (BitVec.ofNat 8 n).toNat = n := toNat_ofNat_of_lt (hlt n hn)
      ⟨⟨BitVec.ofNat 8 n, (hp _).mpr (hc.symm ▸ hn)⟩, Subtype.ext hc⟩⟩
  rw [Nat.card_eq_of_bijective _ hbij, Nat.card_eq_finsetCard]

theorem card_symbols : Nat.card { c : Byte // ∃ v, charClass c = .sym v } = 58 := by
  rw [card_byte_of_codes (S := symbolCodes)]
  · rfl
  · simp only [symbolCodes, Finset.mem_union, Finset.mem_Icc]
    omega
  · simp [exists_charClass_eq_sym_iff, symbolCodes]

/-- The invalid codes are those of no symbol and not the pad's. -/
theorem card_invalid : Nat.card { c : Byte // charClass c = .inv } = 197 := by
  rw [card_byte_of_codes (S := Finset.range 256 \ insert 0x3D symbolCodes)]
  · rfl
  · simp +contextual
  · intro c
    have hc := c.isLt
    simp only [charClass_eq_inv_iff_ranges, symbolCodes, Finset.mem_sdiff, Finset.mem_insert, Finset.mem_union,
      Finset.mem_Icc, Finset.mem_range]
    omega

/-- Settles O43: each class and each value by the ranges of the code, and the numbers by counting the codes. -/
theorem characterClassesByRange : Obligations.CharacterClassesByRange :=
  ⟨fun _ => ⟨exists_charClass_eq_sym_iff, charClass_eq_pad_iff, charClass_eq_inv_iff_ranges,
      fun _ => charClass_eq_sym_iff⟩,
    fun _ _ => toNat_of_charClass_eq_sym, symbolValue_map_toNat, card_symbols, card_invalid⟩

/-! ### How a command of unit B32 ends (60_exceptions.md R122) -/

theorem finishB32_success (s : State) (u : B32Unit) (data : Word32) :
    ∃ t, s.finishB32 (.success u data) = .next t ∧ Answered s t (okResponse data) ∧ t.dt = s.dt ∧ t.b32 = u :=
  ⟨_, rfl, ⟨rfl, rfl, rfl⟩, rfl, rfl⟩

theorem finishB32_rejected (s : State) (r : Rejection) :
    ∃ t, s.finishB32 (.rejected r) = .next t ∧ Answered s t (rejectResponse r) ∧ t.dt = s.dt ∧ t.b32 = s.b32 :=
  ⟨_, rfl, ⟨rfl, rfl, rfl⟩, rfl, rfl⟩

theorem finishB32_unitError (s : State) {e : UnitErr} (he : e.unit = .b32) :
    ∃ t, s.finishB32 (.unitError e) = .next t ∧ Answered s t (errorResponse e) ∧ t.dt = s.dt ∧
      t.b32 = b32InError e.code := by
  obtain ⟨hb, hd⟩ := s.raiseUnitError_b32 e he
  exact ⟨_, rfl, ⟨s.raiseUnitError_cfg e, s.raiseUnitError_inputs e, s.raiseUnitError_responses e⟩, hd, hb⟩

theorem exec_b32Push (c : Byte) (s : State) : exec (.b32Push c) s = s.finishB32 (b32Push s.cfg s.b32 c) := rfl

theorem exec_b32End (s : State) : exec .b32End s = s.finishB32 (b32End s.b32) := rfl

theorem exec_b32Rdkey (i : Byte) (s : State) : exec (.b32Rdkey i) s = s.finishB32 (b32Rdkey s.cfg s.b32 i) := rfl

/-! ### `B32.START` (R88) -/

/-- Settles O17: the unit is cleared, and a cleared unit shows 0. -/
theorem b32StartBeginsADecode : Obligations.B32StartBeginsADecode := by
  intro s
  have hstatus : b32StatusRegister B32Unit.reset = 0 := by decide
  exact ⟨_, rfl, ⟨rfl, rfl, rfl⟩, rfl, rfl, congrArg Except.ok hstatus, rfl⟩

/-! ### `B32.PUSH` (R89) -/

section Push
variable {c : Cfg} {u : B32Unit} {ch : Byte}

theorem b32Push_of_sym {v : SymVal} (hst : u.st = .data) (hc : charClass ch = .sym v) :
    b32Push c u ch = pushSymbol c u v := by
  rw [b32Push, hst, hc]

theorem b32Push_of_pad (hst : u.st = .data ∨ u.st = .pad) (hc : charClass ch = .pad) :
    b32Push c u ch = .success { u with st := .pad } 0 := by
  rcases hst with hst | hst
  · rw [b32Push, hst, hc]
  · have hu : { u with st := .pad } = u := by rw [← hst]
    rw [hu, b32Push, hst, hc]

theorem b32Push_of_decodeError (h : u.st = .data ∧ charClass ch = .inv ∨ u.st = .pad ∧ charClass ch ≠ .pad) :
    b32Push c u ch = .unitError .decodeError := by
  rcases h with ⟨hst, hc⟩ | ⟨hst, hne⟩
  · rw [b32Push, hst, hc]
  · cases hc : charClass ch with
    | pad => exact absurd hc hne
    | sym v => rw [b32Push, hst, hc]
    | inv => rw [b32Push, hst, hc]

theorem b32Push_of_ended (hst : u.st = .done ∨ u.st = .err) : b32Push c u ch = .rejected .badState := by
  rcases hst with hst | hst
  · rw [b32Push, hst]
  · rw [b32Push, hst]

/-- The accumulator and the symbol fit the accumulator when they complete no byte. -/
theorem toNat_acc_short (v : SymVal) (ha : u.acc.toNat < 2 ^ u.nb.toNat) (hn : u.nb.toNat < 3) :
    (BitVec.ofNat 7 (u.acc.toNat * 32 + v.toNat)).toNat = u.acc.toNat * 32 + v.toNat := by
  have hlt := acc_symbol_lt v ha
  have hpow : 2 ^ (u.nb.toNat + 5) ≤ 2 ^ 7 := Nat.pow_le_pow_right (by omega) (by omega)
  rw [toNat_ofNat_of_lt (by omega)]

/-- The bits after a completed byte fit the accumulator. -/
theorem toNat_acc_byte (u : B32Unit) (x : Nat) :
    (BitVec.ofNat 7 (x % 2 ^ (u.nb.toNat - 3))).toNat = x % 2 ^ (u.nb.toNat - 3) := by
  have hnb := u.nb.isLt
  have hpow : 2 ^ (u.nb.toNat - 3) ≤ 2 ^ 7 := Nat.pow_le_pow_right (by omega) (by omega)
  have hmod : x % 2 ^ (u.nb.toNat - 3) < 2 ^ (u.nb.toNat - 3) := Nat.mod_lt _ (by positivity)
  rw [toNat_ofNat_of_lt (by omega)]

/-- The oldest eight bits make a byte. -/
theorem toNat_completed_byte (v : SymVal) (ha : u.acc.toNat < 2 ^ u.nb.toNat) (hn : 3 ≤ u.nb.toNat) :
    (BitVec.ofNat 8 ((u.acc.toNat * 32 + v.toNat) / 2 ^ (u.nb.toNat - 3))).toNat =
      (u.acc.toNat * 32 + v.toNat) / 2 ^ (u.nb.toNat - 3) := by
  have hlt := acc_symbol_lt v ha
  rw [show u.nb.toNat + 5 = u.nb.toNat - 3 + 8 by omega, pow_add] at hlt
  exact toNat_ofNat_of_lt (Nat.div_lt_of_lt_mul hlt)

end Push

section PushStep
variable {s : State} {c : Byte} {v : SymVal}

/-- R89: a symbol that completes no byte extends the accumulator. -/
theorem exec_b32Push_short (hst : s.b32.st = .data) (hc : charClass c = .sym v)
    (ha : s.b32.acc.toNat < 2 ^ s.b32.nb.toNat) (hn : s.b32.nb.toNat < 3) :
    ∃ t, exec (.b32Push c) s = .next t ∧ Answered s t (okResponse 0) ∧ t.dt = s.dt ∧
      t.b32.acc.toNat = s.b32.acc.toNat * 32 + v.toNat ∧ t.b32.nb.toNat = s.b32.nb.toNat + 5 ∧
      t.b32.st = .data ∧ t.b32.cause = s.b32.cause ∧ t.b32.klen = s.b32.klen ∧ t.b32.kb = s.b32.kb := by
  rw [exec_b32Push, b32Push_of_sym hst hc, pushSymbol_short hn]
  obtain ⟨t, ht, hr, hd, hb⟩ := finishB32_success s _ _
  refine ⟨t, ht, hr, hd, ?_⟩
  rw [hb]
  exact ⟨toNat_acc_short v ha hn, toNat_ofNat_of_lt (by omega), hst, rfl, rfl, rfl⟩

/-- R89: a symbol that completes a byte stores it at `KLEN` and keeps the bits after it. -/
theorem exec_b32Push_byte (hst : s.b32.st = .data) (hc : charClass c = .sym v)
    (ha : s.b32.acc.toNat < 2 ^ s.b32.nb.toNat) (hn : 3 ≤ s.b32.nb.toNat)
    (hk : s.b32.klen.toNat < s.cfg.keyMax.toNat) (hwf : s.b32.kb.wf = true) :
    ∃ t, exec (.b32Push c) s = .next t ∧ Answered s t (okResponse 0) ∧ t.dt = s.dt ∧
      (∀ a, (t.b32.kb.readByte a).toNat =
        if a = s.b32.klen.toNat then (s.b32.acc.toNat * 32 + v.toNat) / 2 ^ (s.b32.nb.toNat - 3)
        else (s.b32.kb.readByte a).toNat) ∧
      t.b32.klen.toNat = s.b32.klen.toNat + 1 ∧
      t.b32.acc.toNat = (s.b32.acc.toNat * 32 + v.toNat) % 2 ^ (s.b32.nb.toNat - 3) ∧
      t.b32.nb.toNat = s.b32.nb.toNat - 3 ∧ t.b32.st = .data ∧ t.b32.cause = s.b32.cause := by
  have hnb := s.b32.nb.isLt
  rw [exec_b32Push, b32Push_of_sym hst hc, pushSymbol_byte hn hk]
  obtain ⟨t, ht, hr, hd, hb⟩ := finishB32_success s _ _
  refine ⟨t, ht, hr, hd, ?_⟩
  rw [hb]
  refine ⟨fun a => ?_, toNat_add_one_of_lt hk, toNat_acc_byte _ _, toNat_ofNat_of_lt (by omega), hst, rfl⟩
  rw [Memory.readByte_writeByte hwf, apply_ite BitVec.toNat, toNat_completed_byte v ha hn]

/-- R89: a symbol that would complete a byte beyond the buffer overflows. -/
theorem exec_b32Push_full (hst : s.b32.st = .data) (hc : charClass c = .sym v) (hn : 3 ≤ s.b32.nb.toNat)
    (hk : s.b32.klen = s.cfg.keyMax) :
    ∃ t, exec (.b32Push c) s = .next t ∧ Answered s t (errorResponse .keyOverflow) ∧ t.dt = s.dt ∧
      t.b32 = b32InError 9 := by
  rw [exec_b32Push, b32Push_of_sym hst hc, pushSymbol_full hn hk]
  exact finishB32_unitError s rfl

/-- R89: a pad in `DATA` or `PAD` leads to `PAD` and changes nothing else. -/
theorem exec_b32Push_pad (hst : s.b32.st = .data ∨ s.b32.st = .pad) (hc : charClass c = .pad) :
    ∃ t, exec (.b32Push c) s = .next t ∧ Answered s t (okResponse 0) ∧ t.dt = s.dt ∧
      t.b32 = { s.b32 with st := .pad } := by
  rw [exec_b32Push, b32Push_of_pad hst hc]
  exact finishB32_success s _ _

/-- R89: an invalid character in `DATA`, and anything but a pad in `PAD`, is a decode error. -/
theorem exec_b32Push_decodeError
    (h : (s.b32.st = .data ∧ charClass c = .inv) ∨ (s.b32.st = .pad ∧ charClass c ≠ .pad)) :
    ∃ t, exec (.b32Push c) s = .next t ∧ Answered s t (errorResponse .decodeError) ∧ t.dt = s.dt ∧
      t.b32 = b32InError 8 := by
  rw [exec_b32Push, b32Push_of_decodeError h]
  exact finishB32_unitError s rfl

/-- R89: in `DONE` and `ERR` a push is turned away. -/
theorem exec_b32Push_ended (hst : s.b32.st = .done ∨ s.b32.st = .err) :
    ∃ t, exec (.b32Push c) s = .next t ∧ Answered s t (rejectResponse .badState) ∧ t.dt = s.dt ∧
      t.b32 = s.b32 := by
  rw [exec_b32Push, b32Push_of_ended hst]
  exact finishB32_rejected s _

end PushStep

/-- Settles O18, case by case. -/
theorem b32PushTakesTheNextCharacter : Obligations.B32PushTakesTheNextCharacter :=
  ⟨fun _ _ _ => exec_b32Push_short, fun _ _ _ => exec_b32Push_byte, fun _ _ _ => exec_b32Push_full,
    fun _ _ => exec_b32Push_pad, fun _ _ => exec_b32Push_decodeError, fun _ _ => exec_b32Push_ended⟩

/-! ### `B32.END` (R90) -/

/-- R90: from `DATA` and `PAD` the text ends and the length is returned. -/
theorem exec_b32End_active {s : State} (hst : s.b32.st = .data ∨ s.b32.st = .pad) :
    ∃ t, exec .b32End s = .next t ∧ Answered s t (okResponse (zext32 s.b32.klen)) ∧ t.dt = s.dt ∧
      t.b32 = { s.b32 with st := .done, acc := 0, nb := 0 } := by
  rw [exec_b32End]
  rcases b32End_cases s.b32 with ⟨hend, -⟩ | ⟨-, h⟩
  · rcases hst with hst | hst <;> simp [hst] at hend
  · rw [h]
    exact finishB32_success s _ _

/-- R90: in `DONE` and `ERR` it is turned away. -/
theorem exec_b32End_ended {s : State} (hst : s.b32.st = .done ∨ s.b32.st = .err) :
    ∃ t, exec .b32End s = .next t ∧ Answered s t (rejectResponse .badState) ∧ t.dt = s.dt ∧ t.b32 = s.b32 := by
  rw [exec_b32End]
  rcases b32End_cases s.b32 with ⟨-, h⟩ | ⟨hact, -⟩
  · rw [h]
    exact finishB32_rejected s _
  · rcases hst with hst | hst <;> simp [hst] at hact

/-- Settles O19: the result of ending a text, field by field. -/
theorem b32EndEndsTheText : Obligations.B32EndEndsTheText := by
  refine ⟨fun s hst => ?_, fun s hst => ?_⟩
  · obtain ⟨t, ht, hr, hd, hb⟩ := exec_b32End_active hst
    refine ⟨t, _, ht, hr, zext32_toNat _, hd, ?_⟩
    rw [hb]
    exact ⟨rfl, rfl, rfl, rfl, rfl, rfl⟩
  · obtain ⟨t, ht, hr, hd, hb⟩ := exec_b32End_ended hst
    exact ⟨t, ht, hr, hb, hd⟩

/-! ### `B32.RDKEY` (R91) -/

/-- R91: outside `DONE` the read is turned away. -/
theorem exec_b32Rdkey_badState {s : State} (i : Byte) (hst : s.b32.st ≠ .done) :
    ∃ t, exec (.b32Rdkey i) s = .next t ∧ Answered s t (rejectResponse .badState) ∧ t.dt = s.dt ∧ t.b32 = s.b32 := by
  rw [exec_b32Rdkey, b32Rdkey, if_pos hst]
  exact finishB32_rejected s _

/-- Settles O20: by the cases of the command, of which the read beyond the buffer cannot occur. -/
theorem b32RdkeyReadsTheKey : Obligations.B32RdkeyReadsTheKey := by
  refine ⟨fun s i hst hi hk => ?_, fun s i hst => ?_, fun s i hst hi => ?_⟩
  · rcases b32Rdkey_cases s.cfg s.b32 i with ⟨hne, -⟩ | ⟨-, hle, -⟩ | ⟨-, -, -, h⟩ | ⟨-, -, hle, -⟩
    · exact absurd hst hne
    · omega
    · obtain ⟨t, ht, hr, hd, hb⟩ := finishB32_success s s.b32 (zext32 (s.b32.kb.readByte i.toNat))
      exact ⟨t, _, by rwa [exec_b32Rdkey, h], hr, hb, hd, zext32_toNat _⟩
    · omega
  · obtain ⟨t, ht, hr, hd, hb⟩ := exec_b32Rdkey_badState i hst
    exact ⟨t, ht, hr, hb, hd⟩
  · rcases b32Rdkey_cases s.cfg s.b32 i with ⟨hne, -⟩ | ⟨-, -, h⟩ | ⟨-, hlt, -, -⟩ | ⟨-, hlt, -, -⟩
    · exact absurd hst hne
    · obtain ⟨t, ht, hr, hd, hb⟩ := finishB32_rejected s .badIndex
      exact ⟨t, by rwa [exec_b32Rdkey, h], hr, hb, hd⟩
    · omega
    · omega

/-! ### What the storing commands leave (R89, R90, R97, R98) -/

/-- A command of unit B32 answered `OK` succeeded with the unit it leaves. -/
theorem finishB32_ok {s t : State} {r : CmdResult B32Unit} (h : s.finishB32 r = .next t) (hok : t.lastCode = some .ok) :
    ∃ data, r = .success t.b32 data := by
  rcases finishB32_next h with ⟨u, data, rfl, rfl⟩ | ⟨j, -, rfl⟩ | ⟨e, -, rfl⟩
  · exact ⟨data, rfl⟩
  · simp at hok
  · simp at hok

/-- A command of unit DT answered `OK` succeeded with the unit it leaves. -/
theorem finishDt_ok {s t : State} {r : CmdResult DtUnit} (h : s.finishDt r = .next t) (hok : t.lastCode = some .ok) :
    ∃ data, r = .success t.dt data := by
  rcases finishDt_next h with ⟨u, data, rfl, rfl⟩ | ⟨j, -, rfl⟩ | ⟨e, -, rfl⟩
  · exact ⟨data, rfl⟩
  · simp at hok
  · simp at hok

section Frames
variable {c : Cfg} {data : Word32}

/-- R89: a push that succeeds stores at `KLEN` when a symbol completes a byte, and stores nothing otherwise. -/
theorem b32Push_frame {u u' : B32Unit} {ch : Byte} (hwf : u.kb.wf = true) (h : b32Push c u ch = .success u' data) :
    u'.cause = u.cause ∧
    (((∃ v, charClass ch = .sym v) ∧ 3 ≤ u.nb.toNat →
        u'.st = u.st ∧ ∀ a, a ≠ u.klen.toNat → u'.kb.readByte a = u.kb.readByte a) ∧
     (¬ ((∃ v, charClass ch = .sym v) ∧ 3 ≤ u.nb.toNat) →
        u'.klen = u.klen ∧ ∀ a, u'.kb.readByte a = u.kb.readByte a) ∧
     (charClass ch = .pad → u'.acc = u.acc ∧ u'.nb = u.nb)) := by
  rcases b32Push_cases c u ch with ⟨_, h'⟩ | ⟨v, _, hc, h'⟩ | ⟨_, hc, h'⟩ | ⟨_, h'⟩ <;> rw [h'] at h
  · cases h
  · rcases pushSymbol_cases c u v with ⟨hn, h'⟩ | ⟨_, _, h'⟩ | ⟨hn, _, h'⟩ | ⟨_, _, h'⟩ <;> rw [h'] at h <;> cases h
    · exact ⟨rfl, fun ⟨_, h3⟩ => absurd h3 (by omega), fun _ => ⟨rfl, fun _ => rfl⟩, by simp [hc]⟩
    · refine ⟨rfl, fun _ => ⟨rfl, fun a ha => ?_⟩, fun hno => absurd ⟨⟨v, hc⟩, hn⟩ hno, by simp [hc]⟩
      rw [Memory.readByte_writeByte hwf, if_neg ha]
  · cases h
    exact ⟨rfl, by simp [hc], fun _ => ⟨rfl, fun _ => rfl⟩, fun _ => ⟨rfl, rfl⟩⟩
  · cases h

/-- R90: an end that succeeds leaves the cause, the length and the key. -/
theorem b32End_frame {u u' : B32Unit} (h : b32End u = .success u' data) :
    u'.cause = u.cause ∧ u'.klen = u.klen ∧ ∀ a, u'.kb.readByte a = u.kb.readByte a := by
  rcases b32End_cases u with ⟨_, h'⟩ | ⟨_, h'⟩ <;> rw [h'] at h <;> cases h
  exact ⟨rfl, rfl, fun _ => rfl⟩

/-- R97: a push that succeeds stores at `DLEN` and changes no register but `DLEN`. -/
theorem dtPush_frame {u u' : DtUnit} {b : Byte} (hwf : u.db.wf = true) (h : dtPush c u b = .success u' data) :
    u'.st = u.st ∧ u'.cause = u.cause ∧ u'.digits = u.digits ∧ u'.offset = u.offset ∧ u'.bincode = u.bincode ∧
    u'.otp = u.otp ∧ (∀ a, a ≠ u.dlen.toNat → u'.db.readByte a = u.db.readByte a) ∧
    ∀ a, u'.cb.readByte a = u.cb.readByte a := by
  rcases dtPush_cases c u b with ⟨_, h'⟩ | ⟨_, _, h'⟩ | ⟨_, _, h'⟩ | ⟨_, _, h'⟩ <;> rw [h'] at h <;> cases h
  refine ⟨rfl, rfl, rfl, rfl, rfl, rfl, fun a ha => ?_, fun _ => rfl⟩
  rw [Memory.readByte_writeByte hwf, if_neg ha]

/-- R98: a run that succeeds leaves the result of some offset and code, whatever the state. -/
theorem dtRun_success {u u' : DtUnit} {d : Byte} (h : dtRun c u d = .success u' data) :
    ∃ o b, u' = finishRun c u d o b := by
  rw [dtRun] at h
  split_ifs at h
  split at h
  next => cases h
  next last _ =>
    split_ifs at h
    split at h
    next => cases h
    next b _ =>
      cases h
      exact ⟨offsetOf last, b, rfl⟩

/-- R98: a run that succeeds leaves the cause, the digest and what lies beyond `CB`. -/
theorem dtRun_frame {u u' : DtUnit} {d : Byte} (hwf : u.cb.wf = true) (h : dtRun c u d = .success u' data) :
    u'.cause = u.cause ∧ u'.dlen = u.dlen ∧ (∀ a, u'.db.readByte a = u.db.readByte a) ∧
    ∀ a, c.digitsMax.toNat ≤ a → u'.cb.readByte a = u.cb.readByte a := by
  obtain ⟨o, b, rfl⟩ := dtRun_success h
  refine ⟨rfl, rfl, fun _ => rfl, fun a ha => ?_⟩
  exact (renderCode_readByte hwf _ _ _ a).trans (if_neg (Nat.not_lt.mpr ha))

end Frames

/-- Settles O31: a command answered `OK` succeeded, and each command that succeeds has its frame. -/
theorem storingCommandsChangeOnlyTheirBytes : Obligations.StoringCommandsChangeOnlyTheirBytes := by
  refine ⟨fun s t c hwf h hok => ?_, fun s t h hok => ?_, fun s t b hwf h hok => ?_, fun s t d hwf h hok => ?_⟩
  · obtain ⟨data, hr⟩ := finishB32_ok h hok
    exact b32Push_frame hwf hr
  · obtain ⟨data, hr⟩ := finishB32_ok h hok
    exact b32End_frame hr
  · obtain ⟨data, hr⟩ := finishDt_ok h hok
    exact dtPush_frame hwf hr
  · obtain ⟨data, hr⟩ := finishDt_ok h hok
    exact dtRun_frame hwf hr

/-! ### The capacity of the key buffer (R94) -/

/-- R94: with `n` symbols accepted, the next one is taken in when the bytes it completes fit, and overflows otherwise. -/
theorem pushSymbol_of_decodeStream {c : Cfg} {u : B32Unit} {vs : List SymVal} (v : SymVal) (hi : B32Inv c u)
    (hs : DecodeStream c u vs) (hst : u.st = .data) :
    (5 * (vs.length + 1) / 8 ≤ c.keyMax.toNat ∧
      ∃ u', pushSymbol c u v = .success u' 0 ∧ SymbolTaken c v u u') ∨
    (c.keyMax.toNat < 5 * (vs.length + 1) / 8 ∧ pushSymbol c u v = .unitError .keyOverflow) := by
  obtain ⟨hnb, hklen, -⟩ := hs.active (.inl hst)
  have hle := hi.klen_le
  rcases pushSymbol_cases c u v with ⟨hn, h⟩ | ⟨hn, hk, h⟩ | ⟨hn, hk, h⟩ | ⟨_, hk, _⟩
  · exact .inl ⟨by omega, _, h, symbolTaken_short v hi hn⟩
  · exact .inr ⟨by rw [← hk]; omega, h⟩
  · exact .inl ⟨by omega, _, h, symbolTaken_byte v hi hn hk⟩
  · omega

/-- R94: the symbol that fits is answered `OK`. -/
theorem exec_b32Push_fits {s : State} {vs : List SymVal} {c : Byte} {v : SymVal} (hi : B32Inv s.cfg s.b32)
    (hs : DecodeStream s.cfg s.b32 vs) (hst : s.b32.st = .data) (hc : charClass c = .sym v)
    (hfit : 5 * (vs.length + 1) / 8 ≤ s.cfg.keyMax.toNat) :
    ∃ t, exec (.b32Push c) s = .next t ∧ Answered s t (okResponse 0) ∧ t.b32.st = .data := by
  rw [exec_b32Push, b32Push_of_sym hst hc]
  rcases pushSymbol_of_decodeStream v hi hs hst with ⟨-, u, h, htaken⟩ | ⟨hover, -⟩
  · obtain ⟨t, ht, hr, -, hb⟩ := finishB32_success s u 0
    exact ⟨t, h ▸ ht, hr, hb ▸ htaken.st_eq.trans hst⟩
  · omega

/-- R94: the symbol that does not fit is answered `KEY_OVERFLOW`. -/
theorem exec_b32Push_overflow {s : State} {vs : List SymVal} {c : Byte} {v : SymVal} (hi : B32Inv s.cfg s.b32)
    (hs : DecodeStream s.cfg s.b32 vs) (hst : s.b32.st = .data) (hc : charClass c = .sym v)
    (hover : s.cfg.keyMax.toNat < 5 * (vs.length + 1) / 8) :
    ∃ t, exec (.b32Push c) s = .next t ∧ Answered s t (errorResponse .keyOverflow) ∧ t.dt = s.dt ∧
      t.b32 = b32InError 9 := by
  rw [exec_b32Push, b32Push_of_sym hst hc]
  rcases pushSymbol_of_decodeStream v hi hs hst with ⟨hfit, -⟩ | ⟨-, h⟩
  · omega
  · rw [h]
    exact finishB32_unitError s rfl

theorem Answered.lastCode {s t : State} {r : Response} (h : Answered s t r) : t.lastCode = some r.rc := by
  rw [State.lastCode, h.lastResponse, Option.map_some]

/-- The most symbols that complete at most `k` bytes. -/
theorem bytes_le_iff (n k : Nat) : 5 * n / 8 ≤ k ↔ n ≤ (8 * k + 7) / 5 := by
  omega

/-! ### Runs of commands (70_reset_and_hazards.md R149) -/

theorem feedCmds_nil (s : State) : feedCmds [] s = .next s := rfl

/-- A command handed to the block is executed. -/
theorem step_hand_command (i : Instr) (s : State) : step (s.hand (.command (encode i))) = exec i s := by
  rw [step, State.hand_inputs, State.takeInput_hand]
  simp only [runWord, decode_encode]

/-- A run answers when its first command does, and the run of the others does from there. -/
theorem feedCmds_cons_eq_next_iff {i : Instr} {is : List Instr} {s u : State} :
    feedCmds (i :: is) s = .next u ↔ ∃ t, exec i s = .next t ∧ feedCmds is t = .next u := by
  rw [feedCmds, List.map_cons, feed, step_hand_command]
  cases exec i s with
  | next t => simp [feedCmds]
  | fault f => simp
  | refused r => simp

/-- A run of two parts is a run of the first and then one of the second. -/
theorem feedCmds_append_eq_next_iff {is js : List Instr} {s u : State} :
    feedCmds (is ++ js) s = .next u ↔ ∃ t, feedCmds is s = .next t ∧ feedCmds js t = .next u := by
  induction is generalizing s with
  | nil => simp [feedCmds_nil]
  | cons i is ih =>
    simp only [List.cons_append, feedCmds_cons_eq_next_iff, ih]
    grind

/-- A run adds responses to those given before. -/
theorem feedCmds_responses {is : List Instr} {s u : State} (h : feedCmds is s = .next u) :
    ∃ rs, u.responses = s.responses ++ rs := by
  induction is generalizing s with
  | nil =>
    cases h
    exact ⟨[], (List.append_nil _).symm⟩
  | cons i is ih =>
    obtain ⟨t, ht, hu⟩ := feedCmds_cons_eq_next_iff.mp h
    obtain ⟨r, ⟨-, -, hr⟩, -⟩ := exec_answered ht
    obtain ⟨rs, hrs⟩ := ih hu
    exact ⟨r :: rs, by rw [hrs, hr, List.append_assoc, List.singleton_append]⟩

/-! ### The pushes of a text (R92) -/

/-- `B32.START` and the pushes of the text `cs` from `s` were all answered `OK` and left the state `u`, in which the
symbols of the text are accepted. -/
structure TextAccepted (s : State) (cs : List Byte) (u : State) : Prop where
  run : feedCmds (.b32Start :: b32Text cs) s = .next u
  responses : u.responses = s.responses ++ List.replicate (cs.length + 1) (okResponse 0)
  cfg_eq : u.cfg = s.cfg
  dt_eq : u.dt = s.dt
  inv : B32Inv u.cfg u.b32
  stream : DecodeStream u.cfg u.b32 (cs.filterMap symbolOf)

/-- An accepted character adds its value to the symbols, and a pad adds nothing. -/
theorem pushedSymbols_filterMap (cs : List Byte) (c : Byte) :
    pushedSymbols c .ok (cs.filterMap symbolOf) = (cs ++ [c]).filterMap symbolOf := by
  rw [pushedSymbols, List.filterMap_append]
  cases hc : charClass c with
  | sym v => simp [charClass_eq_sym_iff.mp hc]
  | pad => simp [charClass_eq_pad_iff.mp hc, symbolOf_padChar]
  | inv => simp [(charClass_eq_inv_iff.mp hc).1]

section Text
variable {s u : State} {cs : List Byte} {c : Byte}

/-- One push more in the run of a text. -/
theorem TextAccepted.run_push (h : TextAccepted s cs u) {t : State} (ht : exec (.b32Push c) u = .next t) :
    feedCmds (.b32Start :: b32Text (cs ++ [c])) s = .next t := by
  rw [b32Text, List.map_append, ← List.cons_append, feedCmds_append_eq_next_iff]
  exact ⟨u, h.run, feedCmds_cons_eq_next_iff.mpr ⟨t, ht, rfl⟩⟩

/-- A push answered `OK` accepts one character more. -/
theorem TextAccepted.push (h : TextAccepted s cs u) {t : State} (ht : exec (.b32Push c) u = .next t)
    (hr : Answered u t (okResponse 0)) : TextAccepted s (cs ++ [c]) t := by
  have hstream := exec_keeps_decodeStream h.inv h.stream (decode_encode (.b32Push c)) ht
  rw [acceptedAfter_push (decode_encode _) hr.lastCode, okResponse, pushedSymbols_filterMap] at hstream
  obtain ⟨hcfg, -, hresp⟩ := hr
  exact
    { run := h.run_push ht
      responses := by
        rw [hresp, h.responses, List.append_assoc, ← List.replicate_succ', List.length_append, List.length_singleton]
      cfg_eq := hcfg.trans h.cfg_eq
      dt_eq := (exec_dt_of_ne ht (by simp [unitOf])).trans h.dt_eq
      inv := exec_keeps_b32Inv h.inv ht
      stream := hstream }

/-- A push answered with a unit error ends the run of a text that goes on with its character. -/
theorem TextAccepted.push_error (h : TextAccepted s cs u) {t : State} {e : UnitErr}
    (ht : exec (.b32Push c) u = .next t) (hr : Answered u t (errorResponse e)) (q : List Byte) :
    feedCmds (.b32Start :: b32Text ((cs ++ c :: q).take (cs.length + 1))) s = .next t ∧
      t.responses = s.responses ++ List.replicate (cs.length + 1) (okResponse 0) ++ [errorResponse e] ∧
      t.dt = s.dt := by
  obtain ⟨-, -, hresp⟩ := hr
  refine ⟨?_, by rw [hresp, h.responses], (exec_dt_of_ne ht (by simp [unitOf])).trans h.dt_eq⟩
  rw [List.take_length_add_append]
  exact h.run_push ht

/-- The empty text. -/
theorem textAccepted_nil (s : State) : ∃ u, TextAccepted s [] u ∧ u.b32.st = .data := by
  obtain ⟨t, ht, ⟨hcfg, -, hresp⟩, hb, hd, -⟩ := b32StartBeginsADecode s
  exact ⟨t,
    { run := feedCmds_cons_eq_next_iff.mpr ⟨t, ht, feedCmds_nil t⟩
      responses := hresp
      cfg_eq := hcfg
      dt_eq := hd
      inv := hb ▸ b32Inv_reset t.cfg
      stream := hb ▸ decodeStream_reset t.cfg }, hb ▸ rfl⟩

theorem length_filterMap_symbolOf (h : cs.all (fun c => (symbolOf c).isSome) = true) :
    (cs.filterMap symbolOf).length = cs.length :=
  List.filterMap_length_eq_length.mpr (List.all_eq_true.mp h)

/-- R94: a run of symbols whose bytes fit is accepted. -/
theorem exists_textAccepted_symbols (s : State) (hcs : cs.all (fun c => (symbolOf c).isSome) = true)
    (hfit : 5 * cs.length / 8 ≤ s.cfg.keyMax.toNat) : ∃ u, TextAccepted s cs u ∧ u.b32.st = .data := by
  induction cs using List.reverseRecOn with
  | nil => exact textAccepted_nil s
  | append_singleton cs c ih =>
    rw [List.all_append, Bool.and_eq_true, List.all_cons, List.all_nil, Bool.and_true] at hcs
    obtain ⟨hall, hc⟩ := hcs
    rw [List.length_append, List.length_singleton] at hfit
    obtain ⟨u, hu, hst⟩ := ih hall (by omega)
    obtain ⟨v, hv⟩ := Option.isSome_iff_exists.mp hc
    obtain ⟨t, ht, hr, hst'⟩ := exec_b32Push_fits hu.inv hu.stream hst (charClass_eq_sym_iff.mpr hv)
      (by rwa [length_filterMap_symbolOf hall, hu.cfg_eq])
    exact ⟨t, hu.push ht hr, hst'⟩

/-- A pad is accepted in `DATA` and in `PAD`. -/
theorem TextAccepted.push_pad (h : TextAccepted s cs u) (hst : u.b32.st = .data ∨ u.b32.st = .pad) :
    ∃ t, TextAccepted s (cs ++ [padChar]) t ∧ t.b32.st = .pad := by
  obtain ⟨t, ht, hr, -, hb⟩ := exec_b32Push_pad hst (charClass_eq_pad_iff.mpr rfl)
  exact ⟨t, h.push ht hr, hb ▸ rfl⟩

/-- R92: a run of symbols that fits is accepted with any number of pads after it. -/
theorem exists_textAccepted_padded (s : State) (hcs : cs.all (fun c => (symbolOf c).isSome) = true)
    (hfit : 5 * cs.length / 8 ≤ s.cfg.keyMax.toNat) (k : Nat) :
    ∃ u, TextAccepted s (cs ++ List.replicate k padChar) u ∧ u.b32.st = if k = 0 then .data else .pad := by
  induction k with
  | zero => simpa using exists_textAccepted_symbols s hcs hfit
  | succ k ih =>
    obtain ⟨u, hu, hst⟩ := ih
    have hactive : u.b32.st = .data ∨ u.b32.st = .pad := by
      rw [hst]
      split <;> simp
    rw [List.replicate_succ', ← List.append_assoc]
    exact hu.push_pad hactive

end Text

theorem leadingSymbols_all (t : List Byte) : (leadingSymbols t).all (fun c => (symbolOf c).isSome) = true :=
  List.all_takeWhile

/-- The symbol at place `j` of the leading ones, and what stands before and after it. -/
theorem exists_eq_append_of_lt_leadingSymbols {t : List Byte} {j : Nat} (hj : j < (leadingSymbols t).length) :
    ∃ p c q v, t = p ++ c :: q ∧ p.length = j ∧ p.all (fun c => (symbolOf c).isSome) = true ∧ symbolOf c = some v := by
  have hall := List.all_eq_true.mp (leadingSymbols_all t)
  obtain ⟨v, hv⟩ := Option.isSome_iff_exists.mp (hall _ (List.getElem_mem hj))
  refine ⟨(leadingSymbols t).take j, (leadingSymbols t)[j],
    (leadingSymbols t).drop (j + 1) ++ t.dropWhile (fun c => (symbolOf c).isSome), v, ?_, ?_, ?_, hv⟩
  · rw [← List.cons_append, List.getElem_cons_drop, ← List.append_assoc, List.take_append_drop]
    exact List.takeWhile_append_dropWhile.symm
  · exact List.length_take_of_le hj.le
  · exact List.all_eq_true.mpr fun c hc => hall c (List.mem_of_mem_take hc)

/-- R92 case 3, R94: the leading symbol that completes byte `KEY_MAX + 1` overflows. -/
theorem exists_push_overflow (s : State) (t : List Byte)
    (hover : s.cfg.keyMax.toNat < 5 * (leadingSymbols t).length / 8) :
    ∃ (j : Nat) (u : State), j < (leadingSymbols t).length ∧
      5 * j / 8 = s.cfg.keyMax.toNat ∧ 5 * (j + 1) / 8 = s.cfg.keyMax.toNat + 1 ∧
      feedCmds (.b32Start :: b32Text (t.take (j + 1))) s = .next u ∧
      u.responses = s.responses ++ List.replicate (j + 1) (okResponse 0) ++ [errorResponse .keyOverflow] ∧
      u.b32.st = .err ∧ u.b32.cause = 9 ∧ u.dt = s.dt := by
  obtain ⟨j, hj⟩ : ∃ j, j = (8 * s.cfg.keyMax.toNat + 7) / 5 := ⟨_, rfl⟩
  have hlt : j < (leadingSymbols t).length := by omega
  obtain ⟨p, c, q, v, rfl, hp, hall, hv⟩ := exists_eq_append_of_lt_leadingSymbols hlt
  obtain ⟨u, hu, hst⟩ := exists_textAccepted_symbols s hall (by omega)
  obtain ⟨w, hw, hr, -, hb⟩ := exec_b32Push_overflow hu.inv hu.stream hst (charClass_eq_sym_iff.mpr hv)
    (by rw [length_filterMap_symbolOf hall, hu.cfg_eq]; omega)
  obtain ⟨hrun, hresp, hd⟩ := hu.push_error hw hr q
  rw [hp] at hrun hresp
  exact ⟨j, w, hlt, by omega, by omega, hrun, hresp, hb ▸ rfl, hb ▸ rfl, hd⟩

/-- R94: a run of symbols that were all answered `OK` completes no more bytes than the buffer holds. -/
theorem bytes_le_of_all_ok {s u : State} {t : List Byte} (ht : t.all (fun c => (symbolOf c).isSome) = true)
    (hrun : feedCmds (.b32Start :: b32Text t) s = .next u)
    (hresp : u.responses = s.responses ++ List.replicate (t.length + 1) (okResponse 0)) :
    5 * t.length / 8 ≤ s.cfg.keyMax.toNat := by
  by_contra hover
  have hlead : leadingSymbols t = t := List.takeWhile_eq_self_iff.mpr (List.all_eq_true.mp ht)
  obtain ⟨j, w, -, -, -, hw, hrw, -⟩ := exists_push_overflow s t (by rw [hlead]; omega)
  rw [← List.take_append_drop (j + 1) t, b32Text, List.map_append, ← List.cons_append,
    feedCmds_append_eq_next_iff] at hrun
  obtain ⟨w', hw', hu⟩ := hrun
  cases hw.symm.trans hw'
  obtain ⟨rs, hrs⟩ := feedCmds_responses hu
  rw [hresp, hrw, List.append_assoc, List.append_assoc, List.append_cancel_left_eq] at hrs
  have hmem : errorResponse .keyOverflow ∈ List.replicate (t.length + 1) (okResponse 0) := by
    rw [hrs]
    simp
  cases List.eq_of_mem_replicate hmem

/-- Settles O38: for one symbol by the bytes it completes, for a run of symbols by the run that fits and the one that
overflows. -/
theorem keyOverflowExactlyAtCapacity : Obligations.KeyOverflowExactlyAtCapacity := by
  refine ⟨fun s vs c v hi hs hst hc => ?_, fun s t ht => ⟨fun ⟨u, hu, hr⟩ => bytes_le_of_all_ok ht hu hr, fun hfit => ?_⟩,
    bytes_le_iff⟩
  · by_cases hover : s.cfg.keyMax.toNat < 5 * (vs.length + 1) / 8
    · obtain ⟨t, ht, hr, -⟩ := exec_b32Push_overflow hi hs hst hc hover
      exact ⟨t, ht, iff_of_true hr.lastCode hover⟩
    · obtain ⟨t, ht, hr, -⟩ := exec_b32Push_fits hi hs hst hc (by omega)
      exact ⟨t, ht, iff_of_false (by simp [hr.lastCode, okResponse]) hover⟩
  · obtain ⟨u, hu, -⟩ := exists_textAccepted_symbols s ht hfit
    exact ⟨u, hu.run, hu.responses⟩

/-! ### A whole text (R92) -/

/-- A text of symbols followed by pads is valid. -/
theorem validText_of_eq_append {t p : List Byte} {k : Nat} (ht : t = p ++ List.replicate k padChar)
    (hp : p.all (fun c => (symbolOf c).isSome) = true) : validText t = true := by
  have hstrip : stripPads t = p := by
    rw [ht, stripPads_append_replicate]
    exact stripPads_of_no_pad fun c hc => ne_padChar_of_isSome (List.all_eq_true.mp hp c hc)
  rwa [validText, hstrip]

/-- A list is its leading elements with a property and, if it goes on, an element without it. -/
theorem eq_takeWhile_or_exists {α : Type} (p : α → Bool) (l : List α) :
    l = l.takeWhile p ∨ ∃ x q, l = l.takeWhile p ++ x :: q ∧ p x = false := by
  have hsplit := (List.takeWhile_append_dropWhile (p := p) (l := l)).symm
  have hhead := List.head?_dropWhile_not p l
  cases hd : l.dropWhile p with
  | nil => exact .inl (by rwa [hd, List.append_nil] at hsplit)
  | cons x q =>
    rw [hd] at hsplit hhead
    exact .inr ⟨x, q, hsplit, by simpa using hhead⟩

/-- The pads at the head of a list. -/
theorem takeWhile_pad_eq_replicate (l : List Byte) : ∃ k, l.takeWhile (· = padChar) = List.replicate k padChar :=
  ⟨_, List.eq_replicate_of_mem fun _ hc => by simpa using List.mem_takeWhile_imp hc⟩

/-- A text that is not valid has, after its leading symbols and some pads, a character that is not accepted there. -/
theorem exists_unaccepted_of_not_valid {t : List Byte} (h : validText t = false) :
    ∃ k c q, t = leadingSymbols t ++ List.replicate k padChar ++ c :: q ∧ c ≠ padChar ∧
      (k = 0 → symbolOf c = none) := by
  have hne : ∀ k, t ≠ leadingSymbols t ++ List.replicate k padChar := fun k ht => by
    simp [validText_of_eq_append ht (leadingSymbols_all t)] at h
  rcases eq_takeWhile_or_exists (fun c => (symbolOf c).isSome) t with ht | ⟨c, q, ht, hc⟩
  · exact absurd (ht.trans (List.append_nil _).symm) (hne 0)
  change t = leadingSymbols t ++ c :: q at ht
  by_cases hpad : c = padChar
  · subst hpad
    obtain ⟨k, hk⟩ := takeWhile_pad_eq_replicate q
    rcases eq_takeWhile_or_exists (· = padChar) q with hq | ⟨d, q', hq, hd⟩
    · rw [hq, hk] at ht
      exact absurd ht (hne (k + 1))
    · rw [hq, hk] at ht
      exact ⟨k + 1, d, q', by simpa [List.replicate_succ] using ht, of_decide_eq_false hd, by simp⟩
  · exact ⟨0, c, q, by simpa using ht, hpad, fun _ => by simpa using hc⟩

/-- Byte `i` of a bit stream is made of the eight bits that follow the bytes before it. -/
theorem byteOfBits_append {pre bits rest : List Bool} {i : Nat} (hpre : pre.length = 8 * i) (hbits : bits.length = 8) :
    byteOfBits (pre ++ (bits ++ rest)) i = byteOfBits bits 0 := by
  have hget : ∀ k ∈ List.range 8, ((pre ++ (bits ++ rest)).getD (8 * i + k) false).toNat * 2 ^ (7 - k) =
      (bits.getD (8 * 0 + k) false).toNat * 2 ^ (7 - k) := fun k hk => by
    have hk8 := List.mem_range.mp hk
    rw [List.getD_append_right _ _ _ _ (by omega), hpre, List.getD_append _ _ _ _ (by omega)]
    congr 3
    omega
  rw [byteOfBits, byteOfBits, List.map_congr_left hget]

theorem byteOfBits_byteBits (b : Byte) : byteOfBits (byteBits b) 0 = b := by
  have hb := b.isLt
  apply BitVec.eq_of_toNat_eq
  rw [byteBits_eq, byteOfBits_msbBits _ (by omega)]
  omega

theorem length_flatMap_byteBits (f : Nat → Byte) (n : Nat) :
    ((List.range n).flatMap (fun i => byteBits (f i))).length = 8 * n := by
  rw [List.length_flatMap]
  simp [byteBits, Nat.mul_comm]

/-- The bytes below `KLEN` are those of the unit's bit stream. -/
theorem byteOfBits_streamBits {u : B32Unit} {i : Nat} (hi : i < u.klen.toNat) :
    byteOfBits (streamBits u) i = u.kb.readByte i := by
  obtain ⟨m, hm⟩ := Nat.exists_eq_add_of_le (show i + 1 ≤ u.klen.toNat from hi)
  rw [streamBits, hm, List.range_add, List.range_succ, List.flatMap_append, List.flatMap_append, List.flatMap_singleton,
    List.append_assoc, List.append_assoc, byteOfBits_append (length_flatMap_byteBits _ i) rfl, byteOfBits_byteBits]

/-- The values of a text's symbols, pads left out. -/
theorem filterMap_symbolOf (t : List Byte) : t.filterMap symbolOf = symbolsOf t := by
  obtain ⟨k, hk⟩ := exists_eq_stripPads_append t
  conv_lhs => rw [hk]
  simp [symbolsOf, List.filterMap_replicate_of_none symbolOf_padChar]

/-- R92 case 1: a valid text that fits is accepted. -/
theorem exists_textAccepted_valid (s : State) {t : List Byte} (hv : validText t = true)
    (hfit : decodedLength t ≤ s.cfg.keyMax.toNat) :
    ∃ u, TextAccepted s t u ∧ (u.b32.st = .data ∨ u.b32.st = .pad) := by
  obtain ⟨k, hk⟩ := exists_eq_stripPads_append t
  obtain ⟨u, hu, hst⟩ := exists_textAccepted_padded s hv hfit k
  rw [← hk] at hu
  refine ⟨u, hu, ?_⟩
  rw [hst]
  split <;> simp

/-- R92 case 1: on a valid text that fits, the key is the decoded text. -/
theorem decode_of_valid (s : State) {t : List Byte} (hv : validText t = true)
    (hfit : decodedLength t ≤ s.cfg.keyMax.toNat) :
    ∃ (u : State) (key : List Byte), feedCmds (b32DecodeCmds t) s = .next u ∧
      u.responses = s.responses ++ List.replicate (t.length + 1) (okResponse 0) ++
        [okResponse (BitVec.ofNat 32 (decodedLength t))] ∧
      b32Decode t = some key ∧ key.length = decodedLength t ∧
      u.b32.st = .done ∧ u.b32.klen.toNat = decodedLength t ∧
      (∀ i, i < decodedLength t → u.b32.kb.readByte i = key.getD i 0) ∧ u.dt = s.dt := by
  obtain ⟨w, hw, hst⟩ := exists_textAccepted_valid s hv hfit
  obtain ⟨u, hu, ⟨-, -, hresp⟩, hd, hb⟩ := exec_b32End_active hst
  obtain ⟨-, hklen, -, -, hstream⟩ := hw.stream.active hst
  rw [filterMap_symbolOf] at hklen hstream
  rw [length_symbolsOf hv, ← decodedLength] at hklen
  have hdata : zext32 w.b32.klen = BitVec.ofNat 32 (decodedLength t) := by
    rw [← hklen, BitVec.ofNat_toNat, zext32]
  have hkey := b32Decode_eq_some_iff.mpr ⟨hv, rfl⟩
  refine ⟨u, _, ?_, by rw [hresp, hw.responses, hdata], hkey, length_of_b32Decode hkey, hb ▸ rfl, hb ▸ hklen,
    fun i hi => ?_, hd.trans hw.dt_eq⟩
  · rw [b32DecodeCmds, ← List.cons_append, feedCmds_append_eq_next_iff]
    exact ⟨w, hw.run, feedCmds_cons_eq_next_iff.mpr ⟨u, hu, feedCmds_nil u⟩⟩
  · have hbyte := byteOfBits_streamBits (hklen.symm ▸ hi : i < w.b32.klen.toNat)
    rw [hstream] at hbyte
    rw [hb]
    simp [hi, hbyte]

/-- R92 case 2: on an invalid text whose leading symbols fit, the first character not accepted is a decode error, after
which no byte can be read. -/
theorem decodeError_of_invalid (s : State) {t : List Byte} (hv : validText t = false)
    (hfit : 5 * (leadingSymbols t).length / 8 ≤ s.cfg.keyMax.toNat) :
    ∃ (j : Nat) (u : State), j < t.length ∧
      feedCmds (.b32Start :: b32Text (t.take (j + 1))) s = .next u ∧
      u.responses = s.responses ++ List.replicate (j + 1) (okResponse 0) ++ [errorResponse .decodeError] ∧
      u.b32.st = .err ∧ u.b32.cause = 8 ∧ u.dt = s.dt ∧
      ∀ i, ∃ u', exec (.b32Rdkey i) u = .next u' ∧ u'.lastCode = some (.rejection .badState) := by
  obtain ⟨k, c, q, ht, hpad, hnone⟩ := exists_unaccepted_of_not_valid hv
  obtain ⟨w, hw, hst⟩ := exists_textAccepted_padded s (leadingSymbols_all t) hfit k
  have hoff : (w.b32.st = .data ∧ charClass c = .inv) ∨ (w.b32.st = .pad ∧ charClass c ≠ .pad) := by
    rw [hst]
    split
    next hk => exact .inl ⟨rfl, charClass_eq_inv_iff.mpr ⟨hnone hk, hpad⟩⟩
    next => exact .inr ⟨rfl, charClass_eq_pad_iff.not.mpr hpad⟩
  obtain ⟨u, hu, hr, -, hb⟩ := exec_b32Push_decodeError hoff
  obtain ⟨hrun, hresp, hd⟩ := hw.push_error hu hr q
  rw [← ht] at hrun
  have herr : u.b32.st = .err := hb ▸ rfl
  refine ⟨_, u, ?_, hrun, hresp, herr, hb ▸ rfl, hd, fun i => ?_⟩
  · conv_rhs => rw [ht, List.length_append, List.length_cons]
    omega
  · obtain ⟨u', hu', hr', -⟩ := exec_b32Rdkey_badState i (s := u) (by simp [herr])
    exact ⟨u', hu', hr'.lastCode⟩

/-- Settles O41: the three cases of R92. -/
theorem decodeCommandsComputeTheReference : Obligations.DecodeCommandsComputeTheReference :=
  fun s t => ⟨decode_of_valid s, decodeError_of_invalid s, exists_push_overflow s t⟩

end Sys2Proof.Machine

/-! The family of the DT commands (42_dt_commands.md): each command (R96 to R99), short digests (R100), one run per
start (R102), what a result depends on (R103), and the commands of a whole digest (R101). -/

namespace Sys2Proof.Machine

/-! ### How a command of unit DT ends (60_exceptions.md R122) -/

theorem finishDt_success (s : State) (u : DtUnit) (data : Word32) :
    ∃ t, s.finishDt (.success u data) = .next t ∧ Answered s t (okResponse data) ∧ t.b32 = s.b32 ∧ t.dt = u :=
  ⟨_, rfl, ⟨rfl, rfl, rfl⟩, rfl, rfl⟩

theorem finishDt_rejected (s : State) (r : Rejection) :
    ∃ t, s.finishDt (.rejected r) = .next t ∧ Answered s t (rejectResponse r) ∧ t.b32 = s.b32 ∧ t.dt = s.dt :=
  ⟨_, rfl, ⟨rfl, rfl, rfl⟩, rfl, rfl⟩

theorem finishDt_unitError (s : State) {e : UnitErr} (he : e.unit = .dt) :
    ∃ t, s.finishDt (.unitError e) = .next t ∧ Answered s t (errorResponse e) ∧ t.b32 = s.b32 ∧
      t.dt = dtInError e.code := by
  obtain ⟨hd, hb⟩ := s.raiseUnitError_dt e he
  exact ⟨_, rfl, ⟨s.raiseUnitError_cfg e, s.raiseUnitError_inputs e, s.raiseUnitError_responses e⟩, hb, hd⟩

theorem exec_dtPush (b : Byte) (s : State) : exec (.dtPush b) s = s.finishDt (dtPush s.cfg s.dt b) := rfl

theorem exec_dtRun (d : Byte) (s : State) : exec (.dtRun d) s = s.finishDt (dtRun s.cfg s.dt d) := rfl

theorem exec_dtRdcode (i : Byte) (s : State) : exec (.dtRdcode i) s = s.finishDt (dtRdcode s.cfg s.dt i) := rfl

/-! ### `DT.START` (R96) -/

/-- Settles O21: the unit is cleared, and a cleared unit shows 0. -/
theorem dtStartBeginsATruncation : Obligations.DtStartBeginsATruncation := by
  intro s
  have hstatus : dtStatusRegister DtUnit.reset = 0 := by decide
  exact ⟨_, rfl, ⟨rfl, rfl, rfl⟩, rfl, rfl, congrArg Except.ok hstatus, rfl⟩

/-! ### `DT.PUSH` (R97) -/

section Push
variable {c : Cfg} {u : DtUnit} {b : Byte}

theorem dtPush_of_room (hst : u.st = .load) (hl : u.dlen.toNat < c.digestMax.toNat) :
    dtPush c u b = .success { u with db := u.db.writeByte u.dlen.toNat b, dlen := u.dlen + 1 } 0 := by
  rcases dtPush_cases c u b with ⟨hne, -⟩ | ⟨-, hfull, -⟩ | ⟨-, -, h⟩ | ⟨-, hover, -⟩
  · exact absurd hst hne
  · exact absurd (congrArg BitVec.toNat hfull) hl.ne
  · exact h
  · omega

theorem dtPush_of_full (hst : u.st = .load) (hl : u.dlen = c.digestMax) :
    dtPush c u b = .unitError .digestOverflow := by
  rw [dtPush, if_neg (not_not.mpr hst), if_pos hl]

theorem dtPush_of_ended (hst : u.st ≠ .load) : dtPush c u b = .rejected .badState := by
  rw [dtPush, if_pos hst]

end Push

section PushStep
variable {s : State} {b : Byte}

/-- R97: with room in the buffer the byte is stored at `DLEN` and counted. -/
theorem exec_dtPush_room (hst : s.dt.st = .load) (hl : s.dt.dlen.toNat < s.cfg.digestMax.toNat) :
    ∃ t, exec (.dtPush b) s = .next t ∧ Answered s t (okResponse 0) ∧ t.b32 = s.b32 ∧
      t.dt = { s.dt with db := s.dt.db.writeByte s.dt.dlen.toNat b, dlen := s.dt.dlen + 1 } := by
  rw [exec_dtPush, dtPush_of_room hst hl]
  exact finishDt_success s _ _

/-- R97: with the buffer full it is a unit error. -/
theorem exec_dtPush_full (hst : s.dt.st = .load) (hl : s.dt.dlen = s.cfg.digestMax) :
    ∃ t, exec (.dtPush b) s = .next t ∧ Answered s t (errorResponse .digestOverflow) ∧ t.b32 = s.b32 ∧
      t.dt = dtInError 10 := by
  rw [exec_dtPush, dtPush_of_full hst hl]
  exact finishDt_unitError s rfl

/-- R97: outside `LOAD` the push is turned away. -/
theorem exec_dtPush_ended (hst : s.dt.st ≠ .load) :
    exec (.dtPush b) s = .next (s.reject .badState) := by
  rw [exec_dtPush, dtPush_of_ended hst]
  rfl

end PushStep

/-- Settles O22: the write at `DLEN` is read back there and leaves every other byte. -/
theorem dtPushAppendsOneByte : Obligations.DtPushAppendsOneByte := by
  refine ⟨fun s b hst hl hwf => ?_, fun _ _ => exec_dtPush_full,
    fun s b hst => ⟨_, exec_dtPush_ended hst, ⟨rfl, rfl, rfl⟩, rfl, rfl⟩⟩
  obtain ⟨t, ht, hr, hb, hd⟩ := exec_dtPush_room (b := b) hst hl
  refine ⟨t, ht, hr, hb, ?_⟩
  rw [hd]
  exact ⟨fun a => Memory.readByte_writeByte hwf _ a b, toNat_add_one_of_lt hl, rfl⟩

/-! ### `DT.RUN` (R98) -/

/-- The offset that `DT.RUN` takes from the digest in the buffer: the low nibble of its last byte (R79). -/
def runOffset (u : DtUnit) : Nat := offsetOf (u.db.readByte (u.dlen.toNat - 1))

/-- The binary code of the four bytes at that offset (R79). -/
def runCode (u : DtUnit) : Nat :=
  assembleCode (u.db.readByte (runOffset u)) (u.db.readByte (runOffset u + 1)) (u.db.readByte (runOffset u + 2))
    (u.db.readByte (runOffset u + 3))

theorem runOffset_eq (u : DtUnit) : runOffset u = (u.db.readByte (u.dlen.toNat - 1)).toNat % 16 := offsetOf_eq _

theorem runOffset_lt (u : DtUnit) : runOffset u < 16 := by
  rw [runOffset_eq]
  omega

theorem runCode_lt (u : DtUnit) : runCode u < 2 ^ 31 := assembleCode_lt ..

theorem digestTooShortFor_iff (u : DtUnit) :
    digestTooShortFor u ↔ u.dlen.toNat = 0 ∨ u.dlen.toNat < runOffset u + 4 := by
  rw [digestTooShortFor, runOffset_eq]

/-- The reduction of the code fits its register. -/
theorem toNat_otpReduce_runCode (u : DtUnit) (n : Nat) :
    (BitVec.ofNat 32 (otpReduce (runCode u) n)).toNat = otpReduce (runCode u) n := by
  have hcode := runCode_lt u
  have hle : otpReduce (runCode u) n ≤ runCode u := Nat.mod_le ..
  exact toNat_ofNat_of_lt (by omega)

section Run
variable {c : Cfg} {u : DtUnit} {d : Byte}

theorem dtRun_of_ended (hst : u.st ≠ .load) : dtRun c u d = .rejected .badState := by
  rw [dtRun, if_pos hst]

theorem dtRun_of_bad_count (hst : u.st = .load) (hd : d.toNat = 0 ∨ c.digitsMax.toNat < d.toNat) :
    dtRun c u d = .unitError .invalidConfig := by
  simp [dtRun, hst, digitCount, Buffer.size, hd]

/-- A digest that exceeds its buffer, which no run leads to, has its last byte outside it. -/
theorem dtRun_of_outside (hst : u.st = .load) (hd : ¬ (d.toNat = 0 ∨ c.digitsMax.toNat < d.toNat))
    (hl : c.digestMax.toNat < u.dlen.toNat) : dtRun c u d = .badAccess .db := by
  have hne : u.dlen ≠ 0 := by
    intro h
    simp [h] at hl
  have hlast := memRead_of_le u.db (show c.digestMax.toNat ≤ u.dlen.toNat - 1 by omega)
  simp only [dtRun, hst, ne_eq, not_true_eq_false, if_false, digitCount, Buffer.size, if_neg hd, if_neg hne, hlast]

theorem dtRun_of_short (hst : u.st = .load) (hd : ¬ (d.toNat = 0 ∨ c.digitsMax.toNat < d.toNat))
    (hl : u.dlen.toNat ≤ c.digestMax.toNat) (hs : digestTooShortFor u) :
    dtRun c u d = .unitError .digestTooShort := by
  rcases dtRun_cases d hl with ⟨hne, -⟩ | ⟨-, hbad, -⟩ | ⟨-, -, -, -, h⟩ | ⟨o, b, -, -, -, h1, rfl, ho, -⟩
  · exact absurd hst hne
  · exact absurd hbad hd
  · exact h
  · rw [digestTooShortFor] at hs
    omega

theorem dtRun_of_long (hst : u.st = .load) (hd : ¬ (d.toNat = 0 ∨ c.digitsMax.toNat < d.toNat))
    (hl : u.dlen.toNat ≤ c.digestMax.toNat) (hs : ¬ digestTooShortFor u) :
    dtRun c u d = .success (finishRun c u d (runOffset u) (runCode u))
      (BitVec.ofNat 32 (otpReduce (runCode u) d.toNat)) := by
  rcases dtRun_cases d hl with ⟨hne, -⟩ | ⟨-, hbad, -⟩ | ⟨-, -, -, hshort, -⟩ | ⟨o, b, -, -, -, -, ho, -, hb, h⟩
  · exact absurd hst hne
  · exact absurd hbad hd
  · exact absurd hshort hs
  · obtain rfl : o = runOffset u := ho.trans (runOffset_eq u).symm
    obtain rfl : b = runCode u := hb
    exact h

end Run

section RunStep
variable {s : State} {d : Byte}

/-- R98: outside `LOAD` the run is turned away. -/
theorem exec_dtRun_ended (hst : s.dt.st ≠ .load) : exec (.dtRun d) s = .next (s.reject .badState) := by
  rw [exec_dtRun, dtRun_of_ended hst]
  rfl

/-- R98: a bad digit count is a unit error whatever the digest. -/
theorem exec_dtRun_bad_count (hst : s.dt.st = .load) (hd : d.toNat = 0 ∨ s.cfg.digitsMax.toNat < d.toNat) :
    ∃ t, exec (.dtRun d) s = .next t ∧ Answered s t (errorResponse .invalidConfig) ∧ t.b32 = s.b32 ∧
      t.dt = dtInError 11 := by
  rw [exec_dtRun, dtRun_of_bad_count hst hd]
  exact finishDt_unitError s rfl

/-- R98: a digest too short for its offset is a unit error. -/
theorem exec_dtRun_short (hst : s.dt.st = .load) (h1 : 1 ≤ d.toNat) (hd : d.toNat ≤ s.cfg.digitsMax.toNat)
    (hl : s.dt.dlen.toNat ≤ s.cfg.digestMax.toNat) (hs : digestTooShortFor s.dt) :
    ∃ t, exec (.dtRun d) s = .next t ∧ Answered s t (errorResponse .digestTooShort) ∧ t.b32 = s.b32 ∧
      t.dt = dtInError 12 := by
  rw [exec_dtRun, dtRun_of_short hst (by omega) hl hs]
  exact finishDt_unitError s rfl

/-- R98: a digest that is long enough gives the result of its offset and code. -/
theorem exec_dtRun_long (hst : s.dt.st = .load) (h1 : 1 ≤ d.toNat) (hd : d.toNat ≤ s.cfg.digitsMax.toNat)
    (hl : s.dt.dlen.toNat ≤ s.cfg.digestMax.toNat) (hs : ¬ digestTooShortFor s.dt) :
    ∃ t, exec (.dtRun d) s = .next t ∧
      Answered s t (okResponse (BitVec.ofNat 32 (otpReduce (runCode s.dt) d.toNat))) ∧ t.b32 = s.b32 ∧
      t.dt = finishRun s.cfg s.dt d (runOffset s.dt) (runCode s.dt) := by
  rw [exec_dtRun, dtRun_of_long hst (by omega) hl hs]
  exact finishDt_success s _ _

end RunStep

/-! ### The result of a run (R98) -/

section Result
variable (c : Cfg) (u : DtUnit) (d : Byte)

theorem finishRun_offset_toNat (b : Nat) : (finishRun c u d (runOffset u) b).offset.toNat = runOffset u :=
  toNat_ofNat_of_lt (runOffset_lt u)

theorem finishRun_bincode_toNat (o : Nat) : (finishRun c u d o (runCode u)).bincode.toNat = runCode u :=
  toNat_ofNat_of_lt ((runCode_lt u).trans (by decide))

theorem finishRun_otp_toNat (o : Nat) :
    (finishRun c u d o (runCode u)).otp.toNat = otpReduce (runCode u) d.toNat :=
  toNat_otpReduce_runCode u d.toNat

/-- The characters of the code, zeros after them, and what lies beyond the buffer as before. -/
theorem finishRun_cb_readByte (hwf : u.cb.wf = true) (o b i : Nat) :
    (finishRun c u d o b).cb.readByte i =
      if i < c.digitsMax.toNat then codeByte (otpReduce b d.toNat) d.toNat i else u.cb.readByte i :=
  renderCode_readByte hwf ..

end Result

/-- Settles O23: the case of a result field by field, and the error and rejection cases. -/
theorem dtRunTruncatesAndRenders : Obligations.DtRunTruncatesAndRenders := by
  refine ⟨fun s d o b v hst h1 hd hd1 hl hwf ho hod hb hv => ?_, fun _ _ => exec_dtRun_bad_count,
    fun _ _ => exec_dtRun_short, fun s d hst => ⟨_, exec_dtRun_ended hst, ⟨rfl, rfl, rfl⟩, rfl, rfl⟩⟩
  obtain rfl : o = runOffset s.dt := ho.trans (runOffset_eq _).symm
  obtain rfl : b = runCode s.dt := hb.trans (assembleCode_eq ..).symm
  obtain rfl : v = otpReduce (runCode s.dt) d.toNat := hv
  have hlong : ¬ digestTooShortFor s.dt := by
    rw [digestTooShortFor_iff]
    omega
  obtain ⟨t, ht, hr, hb, hdt⟩ := exec_dtRun_long hst h1 hd hl hlong
  refine ⟨t, _, ht, hr, toNat_otpReduce_runCode s.dt d.toNat, hb, ?_⟩
  rw [hdt]
  refine ⟨rfl, rfl, finishRun_offset_toNat .., finishRun_bincode_toNat .., finishRun_otp_toNat .., rfl, rfl, rfl,
    fun i => ?_⟩
  rw [finishRun_cb_readByte _ _ _ hwf, codeByte]
  by_cases hi : i < d.toNat
  · rw [if_pos (hi.trans_le hd), if_pos hi, if_pos hi, digitChar_toNat]
  · rw [if_neg hi, if_neg hi, apply_ite BitVec.toNat]
    rfl

/-! ### One run per start (R102) -/

/-- Settles O25: a run that succeeds leads to `DONE`, which is not `LOAD`. -/
theorem oneRunPerStart : Obligations.OneRunPerStart := by
  intro s t d h hok
  obtain ⟨data, hr⟩ := finishDt_ok h hok
  obtain ⟨o, b, hdt⟩ := dtRun_success hr
  have hst : t.dt.st = .done := by rw [hdt]; rfl
  have hne : t.dt.st ≠ .load := by simp [hst]
  exact ⟨hst, fun b => exec_dtPush_ended hne, fun d' => exec_dtRun_ended hne⟩

/-! ### Short digests (R100) -/

/-- With a legal digit count a run answers, and answers `OK` exactly when the digest is long enough for its offset. -/
theorem exec_dtRun_ok_iff {s : State} {d : Byte} (hst : s.dt.st = .load) (h1 : 1 ≤ d.toNat)
    (hd : d.toNat ≤ s.cfg.digitsMax.toNat) (hl : s.dt.dlen.toNat ≤ s.cfg.digestMax.toNat) :
    ∃ t, exec (.dtRun d) s = .next t ∧ (t.lastCode = some .ok ↔ ¬ digestTooShortFor s.dt) ∧
      (digestTooShortFor s.dt → t.lastCode = some (.unitError .digestTooShort)) := by
  by_cases hs : digestTooShortFor s.dt
  · obtain ⟨t, ht, hr, -⟩ := exec_dtRun_short hst h1 hd hl hs
    exact ⟨t, ht, iff_of_false (by simp [hr.lastCode, errorResponse]) (not_not.mpr hs), fun _ => hr.lastCode⟩
  · obtain ⟨t, ht, hr, -⟩ := exec_dtRun_long hst h1 hd hl hs
    exact ⟨t, ht, iff_of_true hr.lastCode hs, fun h => absurd h hs⟩

/-- Settles O26: the offset is at most 15, so the length decides from 19 bytes on and below 4, the nibble between. -/
theorem shortDigestsDependOnTheNibble : Obligations.ShortDigestsDependOnTheNibble := by
  refine ⟨fun s d hst h1 hd hd1 hl => ?_, fun s hi hmax => hi.dt.dlen_le.trans_lt hmax⟩
  obtain ⟨t, ht, hok, hshort⟩ := exec_dtRun_ok_iff hst h1 hd hl
  have hoff := runOffset_lt s.dt
  rw [digestTooShortFor_iff] at hok hshort
  refine ⟨t, ht, fun h19 => hok.mpr (by omega), fun h4 => ?_, fun h4 h18 => ?_, fun h3 => hshort (by omega)⟩
  · have hlast : runOffset s.dt = (s.dt.db.readByte 3).toNat % 16 := by rw [runOffset_eq, h4]
    rw [hok, ← hlast]
    omega
  · rw [hok, ← runOffset_eq]
    omega

/-! ### What the result depends on (R103) -/

/-- Binary codes of bytes that agree, apart from bit 7 of the first one, are the same. -/
theorem assembleCode_congr {b0 b0' b1 b1' b2 b2' b3 b3' : Byte} (h0 : b0'.toNat % 128 = b0.toNat % 128)
    (h1 : b1' = b1) (h2 : b2' = b2) (h3 : b3' = b3) : assembleCode b0' b1' b2' b3' = assembleCode b0 b1 b2 b3 := by
  rw [assembleCode_eq, assembleCode_eq, h0, h1, h2, h3]

/-- Runs on units with the same length, offset and code end alike: with the same stop, the same unit error or the same
result. -/
theorem dtRun_agree {c : Cfg} {u u' : DtUnit} (hst : u.st = .load) (hst' : u'.st = .load) (hdlen : u'.dlen = u.dlen)
    (hoff : runOffset u' = runOffset u) (hcode : runCode u' = runCode u) (d : Byte) :
    dtRun c u d = .badAccess .db ∨
    (∃ e, e.unit = .dt ∧ dtRun c u d = .unitError e ∧ dtRun c u' d = .unitError e) ∨
    ∃ o b v, dtRun c u d = .success (finishRun c u d o b) v ∧ dtRun c u' d = .success (finishRun c u' d o b) v := by
  have hshort : digestTooShortFor u' ↔ digestTooShortFor u := by
    rw [digestTooShortFor_iff, digestTooShortFor_iff, hdlen, hoff]
  by_cases hd : d.toNat = 0 ∨ c.digitsMax.toNat < d.toNat
  · exact .inr (.inl ⟨_, rfl, dtRun_of_bad_count hst hd, dtRun_of_bad_count hst' hd⟩)
  by_cases hl : u.dlen.toNat ≤ c.digestMax.toNat
  · have hl' : u'.dlen.toNat ≤ c.digestMax.toNat := by rwa [hdlen]
    by_cases hs : digestTooShortFor u
    · exact .inr (.inl ⟨_, rfl, dtRun_of_short hst hd hl hs, dtRun_of_short hst' hd hl' (hshort.mpr hs)⟩)
    · have h' := dtRun_of_long hst' hd hl' (hshort.not.mpr hs)
      rw [hoff, hcode] at h'
      exact .inr (.inr ⟨_, _, _, dtRun_of_long hst hd hl hs, h'⟩)
  · exact .inl (dtRun_of_outside hst hd (Nat.lt_of_not_le hl))

/-- Settles O27: the five bytes determine the offset and the code, and these determine how the run ends. -/
theorem onlyFiveBytesMatter : Obligations.OnlyFiveBytesMatter := by
  intro s s' t t' d o hst hst' hcfg hdlen hcb hcb' ho ho' h0 hk h h'
  have hoff : runOffset s.dt = o := by rw [runOffset_eq, ho]
  have hoff' : runOffset s'.dt = o := by rw [runOffset_eq, hdlen, ho']
  have hcode : runCode s'.dt = runCode s.dt := by
    rw [runCode, runCode, hoff, hoff']
    exact assembleCode_congr h0 (hk 1 (by omega) (by omega)) (hk 2 (by omega) (by omega)) (hk 3 (by omega) (by omega))
  rw [exec_dtRun] at h h'
  rw [hcfg] at h'
  rcases dtRun_agree (c := s.cfg) hst hst' hdlen (hoff'.trans hoff.symm) hcode d with
    hr | ⟨e, he, hr, hr'⟩ | ⟨o, b, v, hr, hr'⟩
  · rw [hr] at h
    cases h
  · rw [hr] at h
    rw [hr'] at h'
    obtain ⟨w, hw, ha, -, hdt⟩ := finishDt_unitError s he
    obtain ⟨w', hw', ha', -, hdt'⟩ := finishDt_unitError s' he
    cases hw.symm.trans h
    cases hw'.symm.trans h'
    rw [ha.lastResponse, ha'.lastResponse, hdt, hdt']
    exact ⟨rfl, rfl, rfl, rfl, rfl, rfl, rfl⟩
  · rw [hr] at h
    rw [hr'] at h'
    cases h
    cases h'
    refine ⟨?_, rfl, rfl, rfl, rfl, rfl, ?_⟩
    · rw [State.respond_lastResponse, State.respond_lastResponse]
    · simp only [State.respond_dt, finishRun, hcb, hcb']

/-! ### `DT.RDCODE` (R99) -/

/-- A character of the code is a decimal digit. -/
theorem DtInv.digit_range {c : Cfg} {u : DtUnit} (hi : DtInv c u) (hst : u.st = .done) {i : Nat}
    (hid : i < u.digits.toNat) : 0x30 ≤ (u.cb.readByte i).toNat ∧ (u.cb.readByte i).toNat ≤ 0x39 := by
  obtain ⟨-, -, -, -, -, -, hcb⟩ := hi.done_result hst
  rw [hcb i hid]
  omega

/-- Settles O24: by the cases of the command, of which the read beyond the buffer cannot occur. -/
theorem dtRdcodeReadsTheCode : Obligations.DtRdcodeReadsTheCode := by
  refine ⟨fun s i hst hi hd => ?_, fun s i hst => ?_, fun s i hst hi => ?_⟩
  · rcases dtRdcode_cases s.cfg s.dt i with ⟨hne, -⟩ | ⟨-, hle, -⟩ | ⟨-, -, -, h⟩ | ⟨-, -, hle, -⟩
    · exact absurd hst hne
    · omega
    · obtain ⟨t, ht, hr, hb, hdt⟩ := finishDt_success s s.dt (zext32 (s.dt.cb.readByte i.toNat))
      refine ⟨t, _, by rwa [exec_dtRdcode, h], hr, hb, hdt, zext32_toNat _, fun hinv => ?_⟩
      rw [zext32_toNat]
      exact hinv.dt.digit_range hst hi
    · omega
  · rw [exec_dtRdcode, dtRdcode, if_pos hst]
    exact finishDt_rejected s _
  · rw [exec_dtRdcode, dtRdcode, if_neg (not_not.mpr hst), if_pos (show s.dt.digits.toNat ≤ indexOperand i from hi)]
    exact finishDt_rejected s _

/-! ### The commands of a digest (R101) -/

/-- `DT.START` and the pushes of the digest `d` from `s` were all answered `OK` and left the state `u`, in which the
buffer holds the digest. -/
structure DigestLoaded (s : State) (d : List Byte) (u : State) : Prop where
  run : feedCmds (.dtStart :: dtDigest d) s = .next u
  responses : u.responses = s.responses ++ List.replicate (d.length + 1) (okResponse 0)
  cfg_eq : u.cfg = s.cfg
  b32_eq : u.b32 = s.b32
  inv : DtInv u.cfg u.dt
  st_eq : u.dt.st = .load
  dlen_eq : u.dt.dlen.toNat = d.length
  db_eq : ∀ i, u.dt.db.readByte i = d.getD i 0

/-- The element added at the end of a list stands at its length. -/
theorem getD_concat (d : List Byte) (b : Byte) (i : Nat) :
    (d ++ [b]).getD i 0 = if i = d.length then b else d.getD i 0 := by
  rcases lt_trichotomy i d.length with hi | rfl | hi
  · rw [if_neg hi.ne, List.getD_append _ _ _ _ hi]
  · simp
  · rw [if_neg hi.ne', List.getD_eq_default _ _ hi.le, List.getD_eq_default _ _ (by simpa using hi)]

section Digest
variable {s u : State} {d : List Byte} {b : Byte}

/-- The empty digest. -/
theorem digestLoaded_nil (s : State) : ∃ u, DigestLoaded s [] u := by
  obtain ⟨t, ht, ⟨hcfg, -, hresp⟩, hd, hb, -⟩ := dtStartBeginsATruncation s
  exact ⟨t,
    { run := feedCmds_cons_eq_next_iff.mpr ⟨t, ht, feedCmds_nil t⟩
      responses := hresp
      cfg_eq := hcfg
      b32_eq := hb
      inv := hd ▸ dtInv_reset t.cfg
      st_eq := hd ▸ rfl
      dlen_eq := hd ▸ rfl
      db_eq := fun i => hd ▸ rfl }⟩

/-- One push more in the run of a digest. -/
theorem DigestLoaded.run_push (h : DigestLoaded s d u) {t : State} (ht : exec (.dtPush b) u = .next t) :
    feedCmds (.dtStart :: dtDigest (d ++ [b])) s = .next t := by
  rw [dtDigest, List.map_append, ← List.cons_append, feedCmds_append_eq_next_iff]
  exact ⟨u, h.run, feedCmds_cons_eq_next_iff.mpr ⟨t, ht, feedCmds_nil t⟩⟩

/-- With room in the buffer one byte more is loaded. -/
theorem DigestLoaded.push (h : DigestLoaded s d u) (b : Byte) (hroom : d.length < s.cfg.digestMax.toNat) :
    ∃ t, DigestLoaded s (d ++ [b]) t := by
  have hl : u.dt.dlen.toNat < u.cfg.digestMax.toNat := by rwa [h.dlen_eq, h.cfg_eq]
  obtain ⟨t, ht, ⟨hcfg, -, hresp⟩, hb, hd⟩ := exec_dtPush_room (b := b) h.st_eq hl
  exact ⟨t,
    { run := h.run_push ht
      responses := by
        rw [hresp, h.responses, List.append_assoc, ← List.replicate_succ', List.length_append, List.length_singleton]
      cfg_eq := hcfg.trans h.cfg_eq
      b32_eq := hb.trans h.b32_eq
      inv := exec_keeps_dtInv h.inv ht
      st_eq := by rw [hd]; exact h.st_eq
      dlen_eq := by
        rw [hd, List.length_append, List.length_singleton, ← h.dlen_eq]
        exact toNat_add_one_of_lt hl
      db_eq := fun i => by
        rw [hd, getD_concat, ← h.db_eq, ← h.dlen_eq]
        exact Memory.readByte_writeByte h.inv.db_wf _ i b }⟩

/-- R101: a digest that fits is loaded. -/
theorem exists_digestLoaded (s : State) (hfit : d.length ≤ s.cfg.digestMax.toNat) : ∃ u, DigestLoaded s d u := by
  induction d using List.reverseRecOn with
  | nil => exact digestLoaded_nil s
  | append_singleton d b ih =>
    rw [List.length_append, List.length_singleton] at hfit
    obtain ⟨u, hu⟩ := ih (by omega)
    exact hu.push b (by omega)

/-- The unit's offset is the digest's. -/
theorem DigestLoaded.runOffset_eq (h : DigestLoaded s d u) : runOffset u.dt = digestOffset d := by
  rw [runOffset, digestOffset, h.dlen_eq, h.db_eq]

/-- The unit's code is the digest's. -/
theorem DigestLoaded.runCode_eq (h : DigestLoaded s d u) : runCode u.dt = dynTrunc d := by
  simp only [runCode, dynTrunc, h.runOffset_eq, h.db_eq]

theorem DigestLoaded.tooShort_iff (h : DigestLoaded s d u) :
    digestTooShortFor u.dt ↔ d.length = 0 ∨ d.length < digestOffset d + 4 := by
  rw [digestTooShortFor_iff, h.dlen_eq, h.runOffset_eq]

/-- The run after the pushes ends the commands of a digest with its response. -/
theorem DigestLoaded.run_trunc (h : DigestLoaded s d u) {t : State} {g : Byte} {r : Response}
    (ht : exec (.dtRun g) u = .next t) (hr : Answered u t r) :
    feedCmds (dtTrunc d g) s = .next t ∧
      t.responses = s.responses ++ List.replicate (d.length + 1) (okResponse 0) ++ [r] ∧ t.b32 = s.b32 := by
  obtain ⟨-, -, hresp⟩ := hr
  refine ⟨?_, by rw [hresp, h.responses], (exec_b32_of_ne ht (by simp [unitOf])).trans h.b32_eq⟩
  rw [dtTrunc, ← List.cons_append, feedCmds_append_eq_next_iff]
  exact ⟨u, h.run, feedCmds_cons_eq_next_iff.mpr ⟨t, ht, feedCmds_nil t⟩⟩

end Digest

theorem otpCode_eq_some_iff {d : List Byte} {g : Nat} {r : OtpResult} : otpCode d g = some r ↔
    (1 ≤ g ∧ 1 ≤ d.length ∧ digestOffset d + 4 ≤ d.length) ∧
      { offset := digestOffset d, binCode := dynTrunc d, otp := otpReduce (dynTrunc d) g,
        text := formatDigits (otpReduce (dynTrunc d) g) g } = r := by
  simp [otpCode]

theorem length_formatDigits (v n : Nat) : (formatDigits v n).length = n := by
  simp [formatDigits]

theorem getD_formatDigits (v : Nat) {n i : Nat} (hi : i < n) : (formatDigits v n).getD i 0 = digitChar v n i := by
  simp [formatDigits, hi]

section Truncate
variable (s : State) {d : List Byte} {g : Byte}

/-- R101 case 1: where the reference function is defined and the digit count fits, the unit holds its result. -/
theorem trunc_of_otpCode (hfit : d.length ≤ s.cfg.digestMax.toNat) (r : OtpResult)
    (hg : g.toNat ≤ s.cfg.digitsMax.toNat) (hr : otpCode d g.toNat = some r) :
    ∃ u : State, feedCmds (dtTrunc d g) s = .next u ∧
      u.responses = s.responses ++ List.replicate (d.length + 1) (okResponse 0) ++
        [okResponse (BitVec.ofNat 32 r.otp)] ∧
      u.dt.st = .done ∧ u.dt.offset.toNat = r.offset ∧ u.dt.bincode.toNat = r.binCode ∧
      u.dt.otp.toNat = r.otp ∧ u.dt.digits = g ∧ r.text.length = g.toNat ∧
      (∀ i, i < g.toNat → u.dt.cb.readByte i = r.text.getD i 0) ∧ u.b32 = s.b32 := by
  obtain ⟨⟨h1, hd1, ho⟩, rfl⟩ := otpCode_eq_some_iff.mp hr
  obtain ⟨w, hw⟩ := exists_digestLoaded s hfit
  have hg' : g.toNat ≤ w.cfg.digitsMax.toNat := by rwa [hw.cfg_eq]
  have hlong : ¬ digestTooShortFor w.dt := by
    rw [hw.tooShort_iff]
    omega
  obtain ⟨u, hu, hresp, -, hdt⟩ := exec_dtRun_long hw.st_eq h1 hg' hw.inv.dlen_le hlong
  obtain ⟨hrun, hresp, hb⟩ := hw.run_trunc hu hresp
  rw [hw.runCode_eq] at hresp
  refine ⟨u, hrun, hresp, ?_⟩
  rw [hdt, finishRun_offset_toNat, finishRun_bincode_toNat, finishRun_otp_toNat, hw.runOffset_eq, hw.runCode_eq]
  refine ⟨rfl, rfl, rfl, rfl, rfl, length_formatDigits _ _, fun i hi => ?_, hb⟩
  rw [finishRun_cb_readByte _ _ _ hw.inv.cb_wf, if_pos (hi.trans_le hg'), codeByte, if_pos hi, getD_formatDigits _ hi]

/-- R101 case 2: a bad digit count is reported whatever the digest. -/
theorem trunc_of_bad_count (hfit : d.length ≤ s.cfg.digestMax.toNat)
    (hg : g.toNat = 0 ∨ s.cfg.digitsMax.toNat < g.toNat) :
    ∃ u : State, feedCmds (dtTrunc d g) s = .next u ∧
      u.responses = s.responses ++ List.replicate (d.length + 1) (okResponse 0) ++
        [errorResponse .invalidConfig] ∧ u.b32 = s.b32 := by
  obtain ⟨w, hw⟩ := exists_digestLoaded s hfit
  obtain ⟨u, hu, hr, -⟩ := exec_dtRun_bad_count hw.st_eq (by rwa [hw.cfg_eq])
  exact ⟨u, hw.run_trunc hu hr⟩

/-- R101 case 3: with a legal digit count a digest too short for its offset is reported. -/
theorem trunc_of_short (hfit : d.length ≤ s.cfg.digestMax.toNat) (h1 : 1 ≤ g.toNat)
    (hg : g.toNat ≤ s.cfg.digitsMax.toNat) (hs : d.length = 0 ∨ d.length < digestOffset d + 4) :
    ∃ u : State, feedCmds (dtTrunc d g) s = .next u ∧
      u.responses = s.responses ++ List.replicate (d.length + 1) (okResponse 0) ++
        [errorResponse .digestTooShort] ∧ u.b32 = s.b32 := by
  obtain ⟨w, hw⟩ := exists_digestLoaded s hfit
  obtain ⟨u, hu, hr, -⟩ :=
    exec_dtRun_short hw.st_eq h1 (by rwa [hw.cfg_eq]) hw.inv.dlen_le (hw.tooShort_iff.mpr hs)
  exact ⟨u, hw.run_trunc hu hr⟩

/-- R101: the push after `DIGEST_MAX` bytes overflows. -/
theorem push_overflow_of_long (hlong : s.cfg.digestMax.toNat < d.length) :
    ∃ u : State, feedCmds (.dtStart :: dtDigest (d.take (s.cfg.digestMax.toNat + 1))) s = .next u ∧
      u.responses = s.responses ++ List.replicate (s.cfg.digestMax.toNat + 1) (okResponse 0) ++
        [errorResponse .digestOverflow] ∧ u.b32 = s.b32 := by
  have hlen : (d.take s.cfg.digestMax.toNat).length = s.cfg.digestMax.toNat := List.length_take_of_le hlong.le
  obtain ⟨w, hw⟩ := exists_digestLoaded s hlen.le
  have hfull : w.dt.dlen = w.cfg.digestMax := BitVec.eq_of_toNat_eq (by rw [hw.dlen_eq, hlen, hw.cfg_eq])
  obtain ⟨u, hu, ⟨-, -, hresp⟩, hb, -⟩ := exec_dtPush_full (b := d[s.cfg.digestMax.toNat]) hw.st_eq hfull
  have hrun := hw.run_push hu
  rw [List.take_append_getElem hlong] at hrun
  exact ⟨u, hrun, by rw [hresp, hw.responses, hlen], hb.trans hw.b32_eq⟩

end Truncate

/-- Settles O42: the three cases of R101 and the overflow. -/
theorem truncateCommandsComputeTheReference : Obligations.TruncateCommandsComputeTheReference :=
  fun s _ _ => ⟨fun hfit => ⟨trunc_of_otpCode s hfit, trunc_of_bad_count s hfit, trunc_of_short s hfit⟩,
    push_overflow_of_long s⟩

end Sys2Proof.Machine

/-! The family of the system commands (43_system_commands.md): `RDREG` (R104) and the answer to an illegal word
(R105). -/

namespace Sys2Proof.Machine

/-! ### The fields of a register (10_state.md R27 to R31) -/

/-- A field placed above the bits in use adds its value at its place. -/
theorem toNat_or_field {r : Word32} {w n : Nat} (v : BitVec w) (hr : r.toNat < 2 ^ n) (hn : w + n ≤ 32) :
    (r ||| zext32 v <<< n).toNat = r.toNat + v.toNat * 2 ^ n := by
  have hfit : v.toNat * 2 ^ n < 2 ^ 32 :=
    calc v.toNat * 2 ^ n < 2 ^ w * 2 ^ n := by gcongr; exact v.isLt
      _ = 2 ^ (w + n) := (pow_add ..).symm
      _ ≤ 2 ^ 32 := Nat.pow_le_pow_right (by decide) hn
  have hv : v.toNat < 2 ^ 32 := (Nat.le_mul_of_pos_right _ (by positivity)).trans_lt hfit
  have hfield : (zext32 v <<< n).toNat = v.toNat <<< n := by
    rw [BitVec.toNat_shiftLeft, zext32, BitVec.toNat_setWidth, Nat.mod_eq_of_lt hv, Nat.shiftLeft_eq,
      Nat.mod_eq_of_lt hfit]
  rw [BitVec.toNat_or, hfield, Nat.or_comm, ← Nat.shiftLeft_add_eq_or_of_lt hr, Nat.shiftLeft_eq, Nat.add_comm]

/-- The layout of both status registers: a state of 2 bits, a cause of 4, and two fields of up to 8 bits. -/
theorem toNat_status_fields {m n : Nat} (st : BitVec 2) (cause : BitVec 4) (x : BitVec m) (y : BitVec n) (hm : m ≤ 8)
    (hn : n ≤ 8) : (zext32 st ||| zext32 cause <<< 4 ||| zext32 x <<< 8 ||| zext32 y <<< 16).toNat =
      st.toNat + cause.toNat * 2 ^ 4 + x.toNat * 2 ^ 8 + y.toNat * 2 ^ 16 := by
  have hst := st.isLt
  have hcause := cause.isLt
  have hx : x.toNat < 2 ^ 8 := x.isLt.trans_le (Nat.pow_le_pow_right (by decide) hm)
  have h0 : (zext32 st).toNat = st.toNat := by
    rw [zext32, BitVec.toNat_setWidth, Nat.mod_eq_of_lt (by omega)]
  have h4 := toNat_or_field (r := zext32 st) cause (n := 4) (by omega) (by omega)
  have h8 := toNat_or_field (r := zext32 st ||| zext32 cause <<< 4) x (n := 8) (by omega) (by omega)
  rw [toNat_or_field y (by omega) (by omega), h8, h4, h0]

/-- R28: the fields of `B32_STATUS`. -/
theorem b32StatusRegister_toNat (u : B32Unit) : (b32StatusRegister u).toNat =
    u.st.code.toNat + u.cause.toNat * 2 ^ 4 + u.nb.toNat * 2 ^ 8 + u.acc.toNat * 2 ^ 16 :=
  toNat_status_fields _ _ _ _ (by decide) (by decide)

/-- R30: the fields of `DT_STATUS`. -/
theorem dtStatusRegister_toNat (u : DtUnit) : (dtStatusRegister u).toNat =
    u.st.code.toNat + u.cause.toNat * 2 ^ 4 + u.offset.toNat * 2 ^ 8 + u.digits.toNat * 2 ^ 16 :=
  toNat_status_fields _ _ _ _ (by decide) (by decide)

/-! ### `RDREG` (R104) -/

/-- R27: the numbers from 7 on are unassigned. -/
theorem regOfNumber_eq_none {r : Byte} (hr : 7 ≤ r.toNat) : regOfNumber r = none := by
  obtain ⟨k, hk⟩ := Nat.exists_eq_add_of_le' hr
  rw [regOfNumber, hk]
  rfl

theorem resultRegister_of_done {u : DtUnit} (hst : u.st = .done) (v : Word32) : resultRegister u v = .ok v := if_pos hst

theorem resultRegister_of_ne_done {u : DtUnit} (hst : u.st ≠ .done) (v : Word32) :
    resultRegister u v = .error .badState := if_neg hst

theorem finishRead_ok (s : State) (x : Word32) :
    ∃ t, s.finishRead (.ok x) = .next t ∧ Answered s t (okResponse x) ∧ t.b32 = s.b32 ∧ t.dt = s.dt :=
  ⟨_, rfl, ⟨rfl, rfl, rfl⟩, rfl, rfl⟩

theorem finishRead_error (s : State) (j : Rejection) :
    ∃ t, s.finishRead (.error j) = .next t ∧ Answered s t (rejectResponse j) ∧ t.b32 = s.b32 ∧ t.dt = s.dt :=
  ⟨_, rfl, ⟨rfl, rfl, rfl⟩, rfl, rfl⟩

section ReadRegister
variable {s : State} {r : Byte} {name : RegName}

/-- Reading an assigned number reads its register. -/
theorem exec_rdreg_assigned (s : State) (hr : regOfNumber r = some name) :
    exec (.rdreg r) s = s.finishRead (readRegister s name) := by
  simp only [exec, execRdreg, hr]

theorem exec_rdreg_unassigned (s : State) (hr : regOfNumber r = none) :
    exec (.rdreg r) s = s.finishRead (.error .badIndex) := by
  simp only [exec, execRdreg, hr]

theorem exec_rdreg_of_ok {x : Word32} (hr : regOfNumber r = some name) (hx : readRegister s name = .ok x) :
    ∃ t, exec (.rdreg r) s = .next t ∧ Answered s t (okResponse x) ∧ t.b32 = s.b32 ∧ t.dt = s.dt := by
  rw [exec_rdreg_assigned s hr, hx]
  exact finishRead_ok s x

theorem exec_rdreg_badState (hr : regOfNumber r = some name) (hx : readRegister s name = .error .badState) :
    ∃ t, exec (.rdreg r) s = .next t ∧ Answered s t (rejectResponse .badState) ∧ t.b32 = s.b32 ∧ t.dt = s.dt := by
  rw [exec_rdreg_assigned s hr, hx]
  exact finishRead_error s .badState

theorem exec_rdreg_badIndex (s : State) (hr : 7 ≤ r.toNat) :
    ∃ t, exec (.rdreg r) s = .next t ∧ Answered s t (rejectResponse .badIndex) ∧ t.b32 = s.b32 ∧ t.dt = s.dt := by
  rw [exec_rdreg_unassigned s (regOfNumber_eq_none hr)]
  exact finishRead_error s .badIndex

/-- The read of a register whose contents are the number `n` answers that number. -/
theorem exec_rdreg_contents {x : Word32} {n : Nat} (hr : regOfNumber r = some name) (hx : readRegister s name = .ok x)
    (hn : x.toNat = n) :
    ∃ t y, exec (.rdreg r) s = .next t ∧ Answered s t (okResponse y) ∧ t.b32 = s.b32 ∧ t.dt = s.dt ∧ y.toNat = n := by
  obtain ⟨t, ht, ha, hb, hd⟩ := exec_rdreg_of_ok hr hx
  exact ⟨t, x, ht, ha, hb, hd, hn⟩

end ReadRegister

/-- Settles O28: the register of each number by its fields, the result registers by the state of unit DT. -/
theorem rdregReadsTheRegisters : Obligations.RdregReadsTheRegisters := by
  intro s
  refine ⟨exec_rdreg_contents rfl rfl (cfgRegister_toNat s.cfg),
    exec_rdreg_contents rfl rfl (b32StatusRegister_toNat s.b32),
    exec_rdreg_contents rfl rfl (zext32_toNat s.b32.klen),
    exec_rdreg_contents rfl rfl (dtStatusRegister_toNat s.dt),
    exec_rdreg_contents rfl rfl (zext32_toNat s.dt.dlen),
    fun hst => exec_rdreg_of_ok (name := .dtBincode) rfl (resultRegister_of_done hst _),
    fun hst => exec_rdreg_of_ok (name := .dtOtp) rfl (resultRegister_of_done hst _),
    fun hst r hr => ?_, fun r => exec_rdreg_badIndex s⟩
  rcases hr with rfl | rfl
  · exact exec_rdreg_badState (name := .dtBincode) rfl (resultRegister_of_ne_done hst _)
  · exact exec_rdreg_badState (name := .dtOtp) rfl (resultRegister_of_ne_done hst _)

/-! ### An illegal word (R105) -/

/-- On states that agree in the parameters and in both units, a command gives the same response and leaves the same
units. -/
theorem exec_congr_units {i : Instr} {s s' t : State} (hc : s'.cfg = s.cfg) (hb : s'.b32 = s.b32) (hd : s'.dt = s.dt)
    (h : exec i s = .next t) :
    ∃ t', exec i s' = .next t' ∧ t'.b32 = t.b32 ∧ t'.dt = t.dt ∧ t'.lastResponse = t.lastResponse := by
  obtain ⟨t', h', hr⟩ := exec_next_of_answerOf_eq (answerOf_exec_congr i hc hb hd) h
  have hsame : ∀ k, SameUnit k s s' → SameUnit k t t' := fun k hk => by
    by_cases hu : unitOf i = some k
    · obtain ⟨t'', h'', -, hk'⟩ := exec_congr_sameUnit hu hc hk h
      cases h'.symm.trans h''
      exact hk'
    · exact (exec_sameUnit_of_ne h hu).symm.trans (hk.trans (exec_sameUnit_of_ne h' hu))
  exact ⟨t', h', hsame .b32 hb, hsame .dt hd, hr⟩

/-- Settles O2: the rejection leaves the parameters and both units, on which alone a later command depends. -/
theorem illegalWordOnlyAnswered : Obligations.IllegalWordOnlyAnswered := by
  refine ⟨fun s w rest e hin hd => ⟨_, step_illegal hin hd, rfl, rfl, rfl, rfl, rfl, rfl,
    fun i u hu => exec_congr_units (s := { s with inputs := rest }) rfl rfl rfl hu⟩, fun w hw => ?_⟩
  simp only [List.mem_cons, List.not_mem_nil, or_false] at hw
  rcases hw with rfl | rfl | rfl
  · exact ⟨.reservedOpcode, by decide⟩
  · exact ⟨.reservedField, by decide⟩
  · exact ⟨.operandNotZero, by decide⟩

end Sys2Proof.Machine

/-! The family of the host's pipeline (44_host_composition.md): the counter (R110) and its encoding (R111), the
commands the host sends (R121), the whole computation (R116) and its window (R117). -/

namespace Sys2Proof.Machine

/-! ### The counter (R110, R111) -/

theorem totpCounter_eq (ms period : Nat) : totpCounter ms period = ms / 1000 / period :=
  (Nat.div_div_eq_div_mul ..).symm

/-- Settles O51: the counter is the quotient by the window's length, so the window is the numbers with one quotient. -/
theorem counterForms : Obligations.CounterForms :=
  ⟨fun ms period _ => totpCounter_eq ms period, fun _ _ _ _ hle => Nat.div_le_div_right hle,
    fun _ _ _ _ hlo hhi => Nat.div_eq_of_lt_le hlo hhi⟩

/-- R111: byte `i` of the encoding is a base-256 digit of the counter. -/
theorem encodeCounter_byte_toNat (c i : Nat) :
    (BitVec.ofNat 8 (c >>> (8 * (7 - i)) &&& 0xFF)).toNat = c / 2 ^ (8 * (7 - i)) % 256 := by
  rw [Nat.shiftRight_eq_div_pow, show (0xFF : Nat) = 2 ^ 8 - 1 from rfl, Nat.and_two_pow_sub_one_eq_mod]
  exact toNat_ofNat_of_lt (Nat.mod_lt _ (by decide))

theorem length_encodeCounter (c : Nat) : (encodeCounter c).length = 8 := by
  simp [encodeCounter]

/-- R111: the encoding represents the counter's low 64 bits. -/
theorem bigEndian_encodeCounter (c : Nat) : bigEndian (encodeCounter c) = c % 2 ^ 64 :=
  bigEndian_map_range fun i _ => by
    rw [encodeCounter_byte_toNat, pow_mul]
    rfl

theorem getD_encodeCounter {c i : Nat} (hi : i < 8) :
    ((encodeCounter c).getD i 0).toNat = c / 2 ^ (8 * (7 - i)) % 256 := by
  rw [← encodeCounter_byte_toNat]
  simp [encodeCounter, hi]

/-- Settles O52: the bytes are the counter's base-256 digits. -/
theorem counterEncodingIsBigEndian : Obligations.CounterEncodingIsBigEndian :=
  ⟨fun c hc => ⟨length_encodeCounter c, (bigEndian_encodeCounter c).trans (Nat.mod_eq_of_lt hc),
    fun _ => getD_encodeCounter⟩, by decide, by decide⟩

/-! ### The period window (R117) -/

/-- The host's check depends on a timestamp that is not negative only through the counter. -/
theorem hostCheck_congr_timestamp (c : Cfg) (now : Int) (o : TotpOptions) {t1 t2 : Nat}
    (h : totpCounter t1 o.period.toNat = totpCounter t2 o.period.toNat) :
    hostCheck c now { o with timestamp := some (t1 : Int) } = hostCheck c now { o with timestamp := some (t2 : Int) } := by
  have hpos : ∀ t : Nat, ¬ (t : Int) < 0 := fun t => (Int.natCast_nonneg t).not_gt
  simp only [hostCheck, totpMoment, Option.getD_some, Int.toNat_natCast, h, hpos, if_false]
  -- the two sides differ only in how the tests of `o.period` and `o.digits` are decided
  rfl

/-- Settles O53: the timestamp enters only through the counter. -/
theorem codeIsConstantInAWindow : Obligations.CodeIsConstantInAWindow := by
  intro hmac now text o s t1 t2 _ hwindow
  rw [← totpCounter_eq, ← totpCounter_eq] at hwindow
  simp only [generateTotp, hostCheck_congr_timestamp s.cfg now o hwindow, totpMoment, Option.getD_some,
    Int.toNat_natCast, hwindow]

/-! ### Commands sent and their responses (R121) -/

theorem feedCmds_cfg {is : List Instr} {s u : State} (h : feedCmds is s = .next u) : u.cfg = s.cfg := by
  induction is generalizing s with
  | nil => cases h; rfl
  | cons i is ih =>
    obtain ⟨t, ht, hu⟩ := feedCmds_cons_eq_next_iff.mp h
    exact (ih hu).trans (exec_cfg ht)

/-- The first response of a run is that of its first command. -/
theorem feedCmds_cons_responses {i : Instr} {is : List Instr} {s u : State} {rs : List Response}
    (h : feedCmds (i :: is) s = .next u) (hrs : u.responses = s.responses ++ rs) :
    ∃ t r rs', exec i s = .next t ∧ Answered s t r ∧ feedCmds is t = .next u ∧ rs = r :: rs' ∧
      u.responses = t.responses ++ rs' := by
  obtain ⟨t, ht, hu⟩ := feedCmds_cons_eq_next_iff.mp h
  obtain ⟨r, hr, -⟩ := exec_answered ht
  obtain ⟨rs', hrs'⟩ := feedCmds_responses hu
  have ⟨_, _, hresp⟩ := hr
  refine ⟨t, r, rs', ht, hr, hu, ?_, hrs'⟩
  rwa [hrs', hresp, List.append_assoc, List.append_cancel_left_eq, eq_comm] at hrs

section Send
variable {i : Instr} {is : List Instr} {s t u : State} {r : Response} {x : Word32} {xs : List Word32}
  {rs : List Response} {e : TotpFailure}

/-- A command sent is executed, and its response is what the host sees. -/
theorem sendOne_of_answered (ht : exec i s = .next t) (hr : Answered s t r) :
    sendOne i s = if r.rc = .ok then .ok (t, r.rdata) else .error (.block r.rc) := by
  have hlast : t.responses.getLast? = some r := hr.lastResponse
  simp only [sendOne, step_hand_command, ht, hlast]

theorem sendAll_cons_of_ok (h : sendOne i s = .ok (t, x)) (hs : sendAll is t = .ok (u, xs)) :
    sendAll (i :: is) s = .ok (u, x :: xs) := by
  simp only [sendAll, h, hs]

theorem sendAll_cons_of_error (h : sendOne i s = .ok (t, x)) (hs : sendAll is t = .error e) :
    sendAll (i :: is) s = .error e := by
  simp only [sendAll, h, hs]

/-- Commands all answered `OK` give the host their read data. -/
theorem sendAll_of_all_ok (h : feedCmds is s = .next u) (hrs : u.responses = s.responses ++ rs)
    (hok : ∀ r ∈ rs, r.rc = .ok) : sendAll is s = .ok (u, rs.map Response.rdata) := by
  induction is generalizing s rs with
  | nil =>
    cases h
    rw [List.self_eq_append_right.mp hrs]
    rfl
  | cons i is ih =>
    obtain ⟨t, r, rs, ht, hr, hu, rfl, hrest⟩ := feedCmds_cons_responses h hrs
    obtain ⟨hr0, hok⟩ := List.forall_mem_cons.mp hok
    have hone := sendOne_of_answered ht hr
    rw [if_pos hr0] at hone
    exact sendAll_cons_of_ok hone (ih hu hrest hok)

/-- R121: the first command not answered `OK` ends the computation with its return code, whatever was to follow. -/
theorem sendAll_of_failure (h : feedCmds is s = .next u) (hrs : u.responses = s.responses ++ (rs ++ [r]))
    (hok : ∀ r ∈ rs, r.rc = .ok) (hr : r.rc ≠ .ok) (js : List Instr) :
    sendAll (is ++ js) s = .error (.block r.rc) := by
  induction is generalizing s rs with
  | nil =>
    cases h
    simp at hrs
  | cons i is ih =>
    obtain ⟨t, r0, rs', ht, hr0, hu, heq, hrest⟩ := feedCmds_cons_responses h hrs
    have hone := sendOne_of_answered ht hr0
    cases rs with
    | nil =>
      cases heq
      rw [if_neg hr] at hone
      simp only [List.cons_append, sendAll, hone]
    | cons r1 rs =>
      cases heq
      obtain ⟨hr1, hok⟩ := List.forall_mem_cons.mp hok
      rw [if_pos hr1] at hone
      exact sendAll_cons_of_error hone (ih hu hrest hok)

end Send

/-! ### Reading a buffer out (R116 steps 5 and 11) -/

theorem dataByte_eq {x : Word32} {b : Byte} (h : x.toNat = b.toNat) : dataByte x = b := by
  apply BitVec.eq_of_toNat_eq
  rw [dataByte, BitVec.extractLsb'_toNat, Nat.shiftRight_zero, h, Nat.mod_eq_of_lt b.isLt]

/-- A read of index `i` in a state with `P` answers byte `i` of `bs`, and `P` still holds. -/
def ReadsBytes (P : State → Prop) (cmd : Byte → Instr) (bs : List Byte) : Prop :=
  ∀ (t : State) (i : Byte), P t → i.toNat < bs.length →
    ∃ u x, exec (cmd i) t = .next u ∧ Answered t u (okResponse x) ∧ P u ∧ x.toNat = (bs.getD i.toNat 0).toNat

section Reads
variable {P : State → Prop} {cmd : Byte → Instr} {bs : List Byte}

/-- Reads of some indices give the bytes there. Stated for any indices, so that the induction is over the list of them. -/
theorem ReadsBytes.sendAll_indices (h : ReadsBytes P cmd bs) (hlen : bs.length ≤ 256) {l : List Nat}
    (hl : ∀ i ∈ l, i < bs.length) {s : State} (hs : P s) :
    ∃ u xs, sendAll (l.map fun i => cmd (BitVec.ofNat 8 i)) s = .ok (u, xs) ∧ P u ∧
      xs.map dataByte = l.map (bs.getD · 0) := by
  induction l generalizing s with
  | nil => exact ⟨s, [], rfl, hs, rfl⟩
  | cons i l ih =>
    obtain ⟨hi, hl⟩ := List.forall_mem_cons.mp hl
    have hindex : (BitVec.ofNat 8 i).toNat = i := toNat_ofNat_of_lt (hi.trans_le hlen)
    obtain ⟨t, x, ht, hr, hPt, hx⟩ := h s (BitVec.ofNat 8 i) hs (hindex.symm ▸ hi)
    rw [hindex] at hx
    obtain ⟨u, xs, hu, hPu, hxs⟩ := ih hl hPt
    exact ⟨u, x :: xs, sendAll_cons_of_ok (sendOne_of_answered ht hr) hu, hPu,
      by rw [List.map_cons, List.map_cons, hxs, dataByte_eq hx]⟩

/-- Reads of all indices in order give the bytes. -/
theorem ReadsBytes.sendAll_range (h : ReadsBytes P cmd bs) (hlen : bs.length ≤ 256) {s : State} (hs : P s) :
    ∃ u xs, sendAll ((List.range bs.length).map fun i => cmd (BitVec.ofNat 8 i)) s = .ok (u, xs) ∧ P u ∧
      xs.map dataByte = bs := by
  obtain ⟨u, xs, hu, hPu, hxs⟩ := h.sendAll_indices hlen (l := List.range bs.length) (by simp) hs
  refine ⟨u, xs, hu, hPu, hxs.trans (List.ext_getElem (by simp) fun i _ hi => ?_)⟩
  simp [hi]

end Reads

/-- The block with the parameters `c` holds the decoded key `key`. -/
structure KeyHeld (c : Cfg) (key : List Byte) (s : State) : Prop where
  cfg_eq : s.cfg = c
  st_eq : s.b32.st = .done
  klen_eq : s.b32.klen.toNat = key.length
  fits : key.length ≤ c.keyMax.toNat
  kb_eq : ∀ i, i < key.length → s.b32.kb.readByte i = key.getD i 0

/-- The block with the parameters `c` holds the code `code`. -/
structure CodeHeld (c : Cfg) (code : List Byte) (s : State) : Prop where
  cfg_eq : s.cfg = c
  st_eq : s.dt.st = .done
  digits_eq : s.dt.digits.toNat = code.length
  fits : code.length ≤ c.digitsMax.toNat
  cb_eq : ∀ i, i < code.length → s.dt.cb.readByte i = code.getD i 0

/-- R116 step 5: `B32.RDKEY` reads a byte of the key and keeps the key. -/
theorem readsBytes_keyHeld (c : Cfg) (key : List Byte) : ReadsBytes (KeyHeld c key) .b32Rdkey key := by
  intro s i h hi
  obtain ⟨hread, -⟩ := b32RdkeyReadsTheKey
  obtain ⟨t, x, ht, hr, hb, -, hx⟩ := hread s i h.st_eq (by rwa [h.klen_eq]) (by rw [h.klen_eq, h.cfg_eq]; exact h.fits)
  rw [h.kb_eq _ hi] at hx
  exact ⟨t, x, ht, hr, ⟨(exec_cfg ht).trans h.cfg_eq, hb ▸ h.st_eq, hb ▸ h.klen_eq, h.fits, hb ▸ h.kb_eq⟩, hx⟩

/-- R116 step 11: `DT.RDCODE` reads a character of the code and keeps the code. -/
theorem readsBytes_codeHeld (c : Cfg) (code : List Byte) : ReadsBytes (CodeHeld c code) .dtRdcode code := by
  intro s i h hi
  obtain ⟨hread, -⟩ := dtRdcodeReadsTheCode
  obtain ⟨t, x, ht, hr, -, hd, hx, -⟩ :=
    hread s i h.st_eq (by rwa [h.digits_eq]) (by rw [h.digits_eq, h.cfg_eq]; exact h.fits)
  rw [h.cb_eq _ hi] at hx
  exact ⟨t, x, ht, hr, ⟨(exec_cfg ht).trans h.cfg_eq, hd ▸ h.st_eq, hd ▸ h.digits_eq, h.fits, hd ▸ h.cb_eq⟩, hx⟩

/-! ### The key (R116 steps 2 to 5) -/

theorem all_ok_replicate (n : Nat) : ∀ r ∈ List.replicate n (okResponse 0), r.rc = .ok := fun r hr => by
  rw [List.eq_of_mem_replicate hr, okResponse]

section Fetch
variable (s : State) {text key digest : List Byte} {n : Nat}

/-- The commands of a secret that decodes end in its length, with the key held. -/
theorem sendAll_decode (hkey : b32Decode text = some key) (hfit : key.length ≤ s.cfg.keyMax.toNat) :
    ∃ u xs, sendAll (b32DecodeCmds text) s = .ok (u, xs) ∧ (xs.getLastD 0).toNat = key.length ∧
      KeyHeld s.cfg key u := by
  obtain ⟨hv, -⟩ := b32Decode_eq_some_iff.mp hkey
  rw [length_of_b32Decode hkey] at hfit
  obtain ⟨u, key', hu, hrs, hkey', hlen, hst, hklen, hkb, -⟩ := decode_of_valid s hv hfit
  cases hkey.symm.trans hkey'
  rw [List.append_assoc] at hrs
  rw [← hlen] at hfit hklen hkb hrs
  have hsend := sendAll_of_all_ok hu hrs
    (List.forall_mem_append.mpr ⟨all_ok_replicate _, by simp [okResponse]⟩)
  have hmax := s.cfg.keyMax.isLt
  refine ⟨u, _, hsend, ?_, feedCmds_cfg hu, hst, hklen, hfit, hkb⟩
  simp only [okResponse, List.map_append, List.map_cons, List.map_nil, List.getLastD_concat]
  exact toNat_ofNat_of_lt (by omega)

/-- A secret that decodes to a key that fits yields the key. -/
theorem fetchKey_of_b32Decode (hkey : b32Decode text = some key) (hfit : key.length ≤ s.cfg.keyMax.toNat) :
    ∃ u, fetchKey text s = .ok (u, key) ∧ u.cfg = s.cfg := by
  obtain ⟨t, xs, ht, hlast, hheld⟩ := sendAll_decode s hkey hfit
  have hmax := s.cfg.keyMax.isLt
  obtain ⟨u, ys, hu, hheld', hys⟩ := (readsBytes_keyHeld s.cfg key).sendAll_range (by omega) hheld
  refine ⟨u, ?_, hheld'.cfg_eq⟩
  simp only [fetchKey, ht, hlast, b32Readkey, hu, hys]

/-- R116 step 3: an invalid secret fails with `DECODE_ERROR`. -/
theorem fetchKey_of_invalid (hkey : b32Decode text = none)
    (hfit : 5 * (leadingSymbols text).length / 8 ≤ s.cfg.keyMax.toNat) :
    fetchKey text s = .error (.block (.unitError .decodeError)) := by
  have hv : validText text = false := by simpa [b32Decode] using hkey
  obtain ⟨j, u, -, hu, hrs, -⟩ := decodeError_of_invalid s hv hfit
  have hsplit : b32DecodeCmds text =
      (.b32Start :: b32Text (text.take (j + 1))) ++ (b32Text (text.drop (j + 1)) ++ [.b32End]) := by
    rw [b32DecodeCmds, List.cons_append, ← List.append_assoc, b32Text, b32Text, b32Text, ← List.map_append,
      List.take_append_drop]
  rw [List.append_assoc] at hrs
  have hsend := sendAll_of_failure hu hrs (all_ok_replicate _) (by simp [errorResponse])
    (b32Text (text.drop (j + 1)) ++ [.b32End])
  simp only [fetchKey, hsplit, hsend, errorResponse]

/-! ### The code (R116 steps 8 to 11) -/

/-- Where the reference function is defined the code is its rendering. -/
theorem fetchCode_of_otpCode (hfit : digest.length ≤ s.cfg.digestMax.toNat) (hn : n ≤ s.cfg.digitsMax.toNat)
    {r : OtpResult} (hr : otpCode digest n = some r) :
    ∃ u, fetchCode digest n s = .ok (u, r.text) ∧ r.text.length = n := by
  have hmax := s.cfg.digitsMax.isLt
  have hd : (BitVec.ofNat 8 n).toNat = n := toNat_ofNat_of_lt (by omega)
  obtain ⟨t, ht, hrs, hst, -, -, -, hdigits, hlen, hcb, -⟩ :=
    trunc_of_otpCode s (g := BitVec.ofNat 8 n) hfit r (by rwa [hd]) (by rwa [hd])
  rw [List.append_assoc] at hrs
  rw [hd] at hlen hcb
  rw [← hlen] at hcb hn
  have hsend := sendAll_of_all_ok ht hrs (List.forall_mem_append.mpr ⟨all_ok_replicate _, by simp [okResponse]⟩)
  have hheld : CodeHeld s.cfg r.text t := ⟨feedCmds_cfg ht, hst, by rw [hdigits, hd, hlen], hn, hcb⟩
  obtain ⟨u, ys, hu, -, hys⟩ := (readsBytes_codeHeld s.cfg r.text).sendAll_range (by omega) hheld
  rw [hlen] at hu
  refine ⟨u, ?_, hlen⟩
  simp only [fetchCode, hsend, dtReadcode, hu, hys]

/-- R114: a digit count of 0 is the block's to reject. -/
theorem fetchCode_zero (hfit : digest.length ≤ s.cfg.digestMax.toNat) :
    fetchCode digest 0 s = .error (.block (.unitError .invalidConfig)) := by
  obtain ⟨u, hu, hrs, -⟩ := trunc_of_bad_count s (g := BitVec.ofNat 8 0) hfit (.inl rfl)
  rw [List.append_assoc] at hrs
  have hsend := sendAll_of_failure hu hrs (all_ok_replicate _) (by simp [errorResponse]) []
  rw [List.append_nil] at hsend
  simp only [fetchCode, hsend, errorResponse]

end Fetch

/-! ### The whole computation (R116) -/

/-- R115: a digit count that passes the host's check is within the block's. -/
theorem digits_le_of_hostCheck {c : Cfg} {now : Int} {o : TotpOptions} (h : hostCheck c now o = .ok ()) :
    o.digits.toNat ≤ c.digitsMax.toNat := by
  rw [hostCheck] at h
  split_ifs at h with _ _ hrange
  exact not_lt.mp (not_or.mp hrange).1

section Pipeline
variable {hmac : Hmac} {now : Int} {text key digest : List Byte} {o : TotpOptions} {s : State}

/-- A failure of the secret ends the computation. -/
theorem generateTotp_of_fetchKey_error {e : TotpFailure} (hcheck : hostCheck s.cfg now o = .ok ())
    (hfetch : fetchKey text s = .error e) : generateTotp hmac now text o s = .error e := by
  simp only [generateTotp, hcheck, hfetch]

/-- R113: an algorithm the HMAC does not know ends the computation. -/
theorem generateTotp_of_unsupported {t : State} (hcheck : hostCheck s.cfg now o = .ok ())
    (hfetch : fetchKey text s = .ok (t, key))
    (hnone : hmac o.algorithm key (encodeCounter (totpCounter (totpMoment now o).toNat o.period.toNat)) = none) :
    generateTotp hmac now text o s = .error .unsupportedAlgorithm := by
  simp only [generateTotp, hcheck, hfetch, hnone]

/-- With a digest the computation ends as its truncation does. -/
theorem generateTotp_of_digest {t : State} (hcheck : hostCheck s.cfg now o = .ok ())
    (hfetch : fetchKey text s = .ok (t, key))
    (hdigest : hmac o.algorithm key (encodeCounter (totpCounter (totpMoment now o).toNat o.period.toNat)) =
      some digest) :
    generateTotp hmac now text o s = (fetchCode digest o.digits.toNat t).map Prod.snd := by
  simp only [generateTotp, hcheck, hfetch, hdigest]
  cases fetchCode digest o.digits.toNat t <;> rfl

end Pipeline

/-- Settles O54: the key the block decodes goes into the HMAC, and the digest into the block. -/
theorem pipelineComputesTheCode : Obligations.PipelineComputesTheCode := by
  intro hmac now text o s hcheck
  refine ⟨fun key digest r hkey hfit hdigest hdfit hr => ?_,
    fun hkey hfit => generateTotp_of_fetchKey_error hcheck (fetchKey_of_invalid s hkey hfit),
    fun key hkey hfit hnone => ?_, fun key digest hkey hfit hdigest hdfit hzero => ?_⟩
  · obtain ⟨t, ht, hcfg⟩ := fetchKey_of_b32Decode s hkey hfit
    obtain ⟨u, hu, hlen⟩ := fetchCode_of_otpCode t (hcfg ▸ hdfit) (hcfg ▸ digits_le_of_hostCheck hcheck) hr
    refine ⟨?_, hlen⟩
    rw [generateTotp_of_digest hcheck ht hdigest, hu]
    rfl
  · obtain ⟨t, ht, -⟩ := fetchKey_of_b32Decode s hkey hfit
    exact generateTotp_of_unsupported hcheck ht hnone
  · obtain ⟨t, ht, hcfg⟩ := fetchKey_of_b32Decode s hkey hfit
    rw [generateTotp_of_digest hcheck ht hdigest, hzero, Int.toNat_zero, fetchCode_zero t (hcfg ▸ hdfit)]
    rfl

end Sys2Proof.Machine

/-! The family of the outcomes (60_exceptions.md): the three ways a command ends (R122), when a command is turned away
(R127) or raises a unit error (R123), and how a unit leaves its error state (R129, R130). -/

namespace Sys2Proof.Machine

/-! ### The three ways a command ends (R122, R126, R128) -/

/-- A command that answers was answered `OK`, was rejected, or entered the error state of a unit. -/
theorem exec_next_cases {i : Instr} {s t : State} (h : exec i s = .next t) :
    (∃ data, Answered s t (okResponse data)) ∨ (∃ j, t = s.reject j) ∨ ∃ e, t = s.raiseUnitError e := by
  rcases hu : unitOf i with _ | _ | _
  · obtain ⟨r, rfl⟩ := eq_rdreg_of_unitOf hu
    obtain ⟨f, hf⟩ := exec_rdreg r
    rcases finishRead_next ((hf s).symm.trans h) with ⟨data, -, rfl⟩ | ⟨j, -, rfl⟩
    · exact .inl ⟨data, rfl, rfl, rfl⟩
    · exact .inr (.inl ⟨j, rfl⟩)
  · obtain ⟨f, hf, -⟩ := exec_of_b32 hu
    rcases finishB32_next ((hf s).symm.trans h) with ⟨u, data, -, rfl⟩ | ⟨j, -, rfl⟩ | ⟨e, -, rfl⟩
    · exact .inl ⟨data, rfl, rfl, rfl⟩
    · exact .inr (.inl ⟨j, rfl⟩)
    · exact .inr (.inr ⟨e, rfl⟩)
  · obtain ⟨f, hf, -⟩ := exec_of_dt hu
    rcases finishDt_next ((hf s).symm.trans h) with ⟨u, data, -, rfl⟩ | ⟨j, -, rfl⟩ | ⟨e, -, rfl⟩
    · exact .inl ⟨data, rfl, rfl, rfl⟩
    · exact .inr (.inl ⟨j, rfl⟩)
    · exact .inr (.inr ⟨e, rfl⟩)

theorem answered_reject (j : Rejection) (s : State) : Answered s (s.reject j) (rejectResponse j) := ⟨rfl, rfl, rfl⟩

theorem answered_raiseUnitError (e : UnitErr) (s : State) : Answered s (s.raiseUnitError e) (errorResponse e) :=
  ⟨s.raiseUnitError_cfg e, s.raiseUnitError_inputs e, s.raiseUnitError_responses e⟩

theorem Rejection.code_cases (j : Rejection) : j.code = 1 ∨ j.code = 2 ∨ j.code = 3 := by
  cases j <;> decide

theorem UnitErr.code_of_b32 {e : UnitErr} (h : e.unit = .b32) : e.code = 8 ∨ e.code = 9 := by
  cases e with
  | decodeError | keyOverflow => decide
  | digestOverflow | invalidConfig | digestTooShort => cases h

theorem UnitErr.code_of_dt {e : UnitErr} (h : e.unit = .dt) : e.code = 10 ∨ e.code = 11 ∨ e.code = 12 := by
  cases e with
  | decodeError | keyOverflow => cases h
  | digestOverflow | invalidConfig | digestTooShort => decide

/-- R56, R122: bit 3 of the return code tells the unit errors. -/
theorem RetCode.code_bit_three (rc : RetCode) : rc.code.getLsbD 3 = true ↔ ∃ e, rc = .unitError e := by
  cases rc with
  | ok => exact iff_of_false (by decide) (by simp)
  | rejection j =>
    refine iff_of_false ?_ (by simp)
    cases j <;> decide
  | unitError e =>
    refine iff_of_true ?_ ⟨e, rfl⟩
    cases e <;> decide

/-- Settles O12: a success by its code, a rejection by its frame, a unit error by the unit it clears. -/
theorem threeWaysACommandEnds : Obligations.ThreeWaysACommandEnds := by
  intro i s t h
  rcases exec_next_cases h with ⟨data, hr⟩ | ⟨j, rfl⟩ | ⟨e, rfl⟩
  · exact ⟨_, hr.lastResponse, hr, .inl ⟨rfl, rfl⟩, RetCode.code_bit_three _⟩
  · have hr := answered_reject j s
    exact ⟨_, hr.lastResponse, hr, .inr (.inl ⟨j.code_cases, rfl, rfl, rfl⟩), RetCode.code_bit_three _⟩
  · have hr := answered_raiseUnitError e s
    refine ⟨_, hr.lastResponse, hr, .inr (.inr ?_), RetCode.code_bit_three _⟩
    cases hu : e.unit with
    | b32 =>
      obtain ⟨hb, hd⟩ := s.raiseUnitError_b32 e hu
      exact .inl ⟨UnitErr.code_of_b32 hu, rfl, hb, hd⟩
    | dt =>
      obtain ⟨hd, hb⟩ := s.raiseUnitError_dt e hu
      exact .inr ⟨UnitErr.code_of_dt hu, rfl, hd, hb⟩

/-! ### What answers under each condition (R123, R127) -/

/-- R127: under its condition `BAD_STATE` is the answer. -/
theorem exec_of_badStateWhen {i : Instr} {s : State} (h : badStateWhen i s) :
    exec i s = .next (s.reject .badState) := by
  cases i with
  | b32Start | dtStart => exact h.elim
  | b32Push c => rw [exec_b32Push, b32Push_of_ended h]; rfl
  | b32End => rw [exec_b32End]; rcases h with hst | hst <;> rw [b32End, hst] <;> rfl
  | b32Rdkey j => rw [exec_b32Rdkey, b32Rdkey, if_pos (show s.b32.st ≠ .done from h)]; rfl
  | dtPush b => exact exec_dtPush_ended h
  | dtRun d => exact exec_dtRun_ended h
  | dtRdcode j => rw [exec_dtRdcode, dtRdcode, if_pos (show s.dt.st ≠ .done from h)]; rfl
  | rdreg r =>
    obtain ⟨rfl | rfl, hst⟩ := h
    · rw [exec_rdreg_assigned (name := .dtBincode) s rfl, readRegister, resultRegister_of_ne_done hst]; rfl
    · rw [exec_rdreg_assigned (name := .dtOtp) s rfl, readRegister, resultRegister_of_ne_done hst]; rfl

/-- R127: under its condition `BAD_INDEX` is the answer. -/
theorem exec_of_badIndexWhen {i : Instr} {s : State} (h : badIndexWhen i s) :
    exec i s = .next (s.reject .badIndex) := by
  cases i with
  | b32Start | b32Push | b32End | dtStart | dtPush | dtRun => exact h.elim
  | b32Rdkey j =>
    obtain ⟨hst, hj⟩ := h
    rw [exec_b32Rdkey, b32Rdkey, if_neg (not_not.mpr hst), if_pos (show _ ≤ indexOperand j from hj)]; rfl
  | dtRdcode j =>
    obtain ⟨hst, hj⟩ := h
    rw [exec_dtRdcode, dtRdcode, if_neg (not_not.mpr hst), if_pos (show _ ≤ indexOperand j from hj)]; rfl
  | rdreg r => rw [exec_rdreg_unassigned s (regOfNumber_eq_none h)]; rfl

/-- A command that answers with the response `r` in one description of its end has the code of `r`. -/
theorem lastCode_of_exec {i : Instr} {s t : State} {r : Response} {p : State → Prop} (h : exec i s = .next t)
    (hr : ∃ t', exec i s = .next t' ∧ Answered s t' r ∧ p t') : t.lastCode = some r.rc := by
  obtain ⟨t', ht', ha, -⟩ := hr
  cases h.symm.trans ht'
  exact ha.lastCode

/-- A run that answers for a legal digit count found the digest in its buffer. -/
theorem dlen_le_of_exec_dtRun {d : Byte} {s t : State} (h : exec (.dtRun d) s = .next t) (hst : s.dt.st = .load)
    (hd : ¬ (d.toNat = 0 ∨ s.cfg.digitsMax.toNat < d.toNat)) : s.dt.dlen.toNat ≤ s.cfg.digestMax.toNat := by
  by_contra hl
  rw [exec_dtRun, dtRun_of_outside hst hd (not_le.mp hl)] at h
  cases h

/-- R123: under its condition a unit error is the answer of a command that answers. -/
theorem lastCode_of_unitErrorWhen {e : UnitErr} {i : Instr} {s t : State} (he : unitErrorWhen e i s)
    (h : exec i s = .next t) : t.lastCode = some (.unitError e) := by
  unfold unitErrorWhen at he
  split at he
  case h_1 => exact lastCode_of_exec h (exec_b32Push_decodeError he)
  case h_2 =>
    obtain ⟨hst, ⟨v, hc⟩, hn, hk⟩ := he
    exact lastCode_of_exec h (exec_b32Push_full hst hc hn hk)
  case h_3 =>
    obtain ⟨hst, hl⟩ := he
    exact lastCode_of_exec h (exec_dtPush_full hst hl)
  case h_4 =>
    obtain ⟨hst, hd⟩ := he
    exact lastCode_of_exec h (exec_dtRun_bad_count hst hd)
  case h_5 =>
    obtain ⟨hst, h1, hd, hs⟩ := he
    exact lastCode_of_exec h (exec_dtRun_short hst h1 hd (dlen_le_of_exec_dtRun h hst (by omega)) hs)
  case h_6 => exact he.elim

/-! ### The condition under which each code answers (R123, R127) -/

/-- The condition the spec states for a return code of the command `i` in the state `s`; none for `OK`, and no command
is answered `ILLEGAL_CMD`. -/
def codeWhen (i : Instr) (s : State) : RetCode → Prop
  | .ok => True
  | .rejection .illegalCmd => False
  | .rejection .badState => badStateWhen i s
  | .rejection .badIndex => badIndexWhen i s
  | .unitError e => unitErrorWhen e i s

section CodeWhen
variable (s : State)

theorem b32Push_codeWhen (ch : Byte) :
    (b32Push s.cfg s.b32 ch).Ends .b32 b32InError s.b32 fun rc _ => codeWhen (.b32Push ch) s rc := by
  rcases b32Push_cases s.cfg s.b32 ch with ⟨hst, h⟩ | ⟨v, hst, hc, h⟩ | ⟨_, _, h⟩ | ⟨hbad, h⟩ <;> rw [h]
  · exact hst
  · rcases pushSymbol_cases s.cfg s.b32 v with ⟨_, h'⟩ | ⟨hn, hk, h'⟩ | ⟨_, _, h'⟩ | ⟨_, _, h'⟩ <;> rw [h']
    · trivial
    · exact ⟨rfl, hst, ⟨v, hc⟩, hn, hk⟩
    · trivial
    · trivial
  · trivial
  · exact ⟨rfl, hbad⟩

theorem b32End_codeWhen : (b32End s.b32).Ends .b32 b32InError s.b32 fun rc _ => codeWhen .b32End s rc := by
  rcases b32End_cases s.b32 with ⟨hst, h⟩ | ⟨_, h⟩ <;> rw [h]
  · exact hst
  · trivial

theorem b32Rdkey_codeWhen (j : Byte) :
    (b32Rdkey s.cfg s.b32 j).Ends .b32 b32InError s.b32 fun rc _ => codeWhen (.b32Rdkey j) s rc := by
  rcases b32Rdkey_cases s.cfg s.b32 j with ⟨hst, h⟩ | ⟨hst, hj, h⟩ | ⟨_, _, _, h⟩ | ⟨_, _, _, h⟩ <;> rw [h]
  · exact hst
  · exact ⟨hst, hj⟩
  · trivial
  · trivial

theorem dtPush_codeWhen (b : Byte) :
    (dtPush s.cfg s.dt b).Ends .dt dtInError s.dt fun rc _ => codeWhen (.dtPush b) s rc := by
  rcases dtPush_cases s.cfg s.dt b with ⟨hst, h⟩ | ⟨hst, hl, h⟩ | ⟨_, _, h⟩ | ⟨_, _, h⟩ <;> rw [h]
  · exact hst
  · exact ⟨rfl, hst, hl⟩
  · trivial
  · trivial

/-- The run's checks in the order of R132. -/
theorem dtRun_codeWhen (d : Byte) :
    (dtRun s.cfg s.dt d).Ends .dt dtInError s.dt fun rc _ => codeWhen (.dtRun d) s rc := by
  by_cases hst : s.dt.st = .load
  · by_cases hd : d.toNat = 0 ∨ s.cfg.digitsMax.toNat < d.toNat
    · rw [dtRun_of_bad_count hst hd]
      exact ⟨rfl, hst, hd⟩
    · by_cases hl : s.dt.dlen.toNat ≤ s.cfg.digestMax.toNat
      · by_cases hs : digestTooShortFor s.dt
        · rw [dtRun_of_short hst hd hl hs]
          exact ⟨rfl, hst, by omega, by omega, hs⟩
        · rw [dtRun_of_long hst hd hl hs]
          trivial
      · rw [dtRun_of_outside hst hd (not_le.mp hl)]
        trivial
  · rw [dtRun_of_ended hst]
    exact hst

theorem dtRdcode_codeWhen (j : Byte) :
    (dtRdcode s.cfg s.dt j).Ends .dt dtInError s.dt fun rc _ => codeWhen (.dtRdcode j) s rc := by
  rcases dtRdcode_cases s.cfg s.dt j with ⟨hst, h⟩ | ⟨hst, hj, h⟩ | ⟨_, _, _, h⟩ | ⟨_, _, _, h⟩ <;> rw [h]
  · exact hst
  · exact ⟨hst, hj⟩
  · trivial
  · trivial

end CodeWhen

/-- R27: the registers are assigned the numbers 0 to 6. -/
theorem regOfNumber_eq_some {r : Byte} {name : RegName} (h : regOfNumber r = some name) : r = regNumber name := by
  unfold regOfNumber at h
  split at h <;> cases h <;> exact BitVec.eq_of_toNat_eq ‹_›

theorem seven_le_of_regOfNumber_eq_none {r : Byte} (h : regOfNumber r = none) : 7 ≤ r.toNat := by
  unfold regOfNumber at h
  split at h
  case h_8 =>
    simp only [imp_false] at *
    omega
  all_goals cases h

/-- R31: a register is refused for the state of unit DT, and only a result register is. -/
theorem badStateWhen_of_readRegister_error {s : State} {name : RegName} {j : Rejection}
    (h : readRegister s name = .error j) : badStateWhen (.rdreg (regNumber name)) s := by
  cases name with
  | cfg | b32Status | b32Klen | dtStatus | dtDlen => cases h
  | dtBincode => exact ⟨.inl rfl, fun hst => by cases (resultRegister_of_done hst _).symm.trans h⟩
  | dtOtp => exact ⟨.inr rfl, fun hst => by cases (resultRegister_of_done hst _).symm.trans h⟩

theorem rdreg_codeWhen {r : Byte} {s t : State} (h : exec (.rdreg r) s = .next t) :
    ∃ rc, t.lastCode = some rc ∧ codeWhen (.rdreg r) s rc := by
  cases hr : regOfNumber r with
  | none =>
    rw [exec_rdreg_unassigned s hr] at h
    cases h
    exact ⟨_, State.reject_lastCode .., seven_le_of_regOfNumber_eq_none hr⟩
  | some name =>
    obtain rfl := regOfNumber_eq_some hr
    rw [exec_rdreg_assigned s hr] at h
    rcases finishRead_next h with ⟨data, -, rfl⟩ | ⟨j, hj, rfl⟩
    · exact ⟨_, State.respond_lastCode .., trivial⟩
    · obtain rfl := readRegister_error hj
      exact ⟨_, State.reject_lastCode .., badStateWhen_of_readRegister_error hj⟩

/-- The code that answers a command answers under its condition. -/
theorem exec_codeWhen {i : Instr} {s t : State} (h : exec i s = .next t) :
    ∃ rc, t.lastCode = some rc ∧ codeWhen i s rc := by
  cases i with
  | b32Start => exact finishB32_ends (P := fun rc _ => codeWhen _ s rc) (b32Start_ends trivial) h
  | b32Push ch => exact finishB32_ends (b32Push_codeWhen s ch) h
  | b32End => exact finishB32_ends (b32End_codeWhen s) h
  | b32Rdkey j => exact finishB32_ends (b32Rdkey_codeWhen s j) h
  | dtStart => exact finishDt_ends (P := fun rc _ => codeWhen _ s rc) (dtStart_ends trivial) h
  | dtPush b => exact finishDt_ends (dtPush_codeWhen s b) h
  | dtRun d => exact finishDt_ends (dtRun_codeWhen s d) h
  | dtRdcode j => exact finishDt_ends (dtRdcode_codeWhen s j) h
  | rdreg r => exact rdreg_codeWhen h

/-- A code other than `OK` answers a command exactly under its condition. -/
theorem exec_lastCode_iff {i : Instr} {s t : State} {rc : RetCode} (h : exec i s = .next t) (hrc : rc ≠ .ok) :
    t.lastCode = some rc ↔ codeWhen i s rc := by
  refine ⟨fun hcode => ?_, fun hw => ?_⟩
  · obtain ⟨rc', hcode', hw⟩ := exec_codeWhen h
    cases hcode.symm.trans hcode'
    exact hw
  · cases rc with
    | ok => exact absurd rfl hrc
    | rejection j =>
      cases j with
      | illegalCmd => exact hw.elim
      | badState => cases h.symm.trans (exec_of_badStateWhen hw); exact State.reject_lastCode ..
      | badIndex => cases h.symm.trans (exec_of_badIndexWhen hw); exact State.reject_lastCode ..
    | unitError e => exact lastCode_of_unitErrorWhen hw h

/-- Settles O13: each code has its condition, and `ILLEGAL_CMD` answers the illegal words. -/
theorem rejectionsHappenExactlyWhen : Obligations.RejectionsHappenExactlyWhen :=
  ⟨fun _ _ _ h => ⟨exec_lastCode_iff h (by simp), exec_lastCode_iff h (by simp)⟩,
    fun _ _ _ _ hin h => step_illegalCmd_iff hin h⟩

/-- R128: the unit named by the code of a unit error is left in its error state with that cause. -/
theorem unit_inError_of_lastCode {e : UnitErr} {i : Instr} {s t : State} (h : exec i s = .next t)
    (hcode : t.lastCode = some (.unitError e)) :
    (e.unit = .b32 → t.b32 = b32InError e.code) ∧ (e.unit = .dt → t.dt = dtInError e.code) := by
  rcases exec_next_cases h with ⟨data, hr⟩ | ⟨j, rfl⟩ | ⟨e', rfl⟩
  · cases hr.lastCode.symm.trans hcode
  · cases (State.reject_lastCode ..).symm.trans hcode
  · cases (State.raiseUnitError_lastCode ..).symm.trans hcode
    exact ⟨fun hu => (s.raiseUnitError_b32 e hu).1, fun hu => (s.raiseUnitError_dt e hu).1⟩

/-- Settles O14: each code has its condition, and an illegal word is rejected. -/
theorem unitErrorsHappenExactlyWhen : Obligations.UnitErrorsHappenExactlyWhen := by
  refine ⟨fun e i s t h => ⟨exec_lastCode_iff h (by simp), unit_inError_of_lastCode h⟩,
    fun e s t w rest x hin hd h => ?_⟩
  rw [(step_illegalCmd_iff hin h).mpr ⟨x, hd⟩]
  simp

/-! ### A unit in its error state (R129) -/

section InError
variable {i : Instr} {s t : State} {x : Input}

theorem badStateWhen_of_b32_err (hst : s.b32.st = .err) (hu : unitOf i = some .b32) (hi : i ≠ .b32Start) :
    badStateWhen i s := by
  cases i with
  | b32Start => exact absurd rfl hi
  | b32Push | b32End => exact .inr hst
  | b32Rdkey => simp [badStateWhen, hst]
  | dtStart | dtPush | dtRun | dtRdcode | rdreg => simp [unitOf] at hu

theorem badStateWhen_of_dt_err (hst : s.dt.st = .err) (hu : unitOf i = some .dt) (hi : i ≠ .dtStart) :
    badStateWhen i s := by
  cases i with
  | dtStart => exact absurd rfl hi
  | dtPush | dtRun | dtRdcode => simp [badStateWhen, hst]
  | b32Start | b32Push | b32End | b32Rdkey | rdreg => simp [unitOf] at hu

/-- In `ERR` no command but `B32.START` changes unit B32. -/
theorem exec_b32_of_err (h : exec i s = .next t) (hst : s.b32.st = .err) (hi : i ≠ .b32Start) : t.b32 = s.b32 := by
  by_cases hu : unitOf i = some .b32
  · cases h.symm.trans (exec_of_badStateWhen (badStateWhen_of_b32_err hst hu hi))
    rfl
  · exact exec_b32_of_ne h hu

/-- In `ERR` no command but `DT.START` changes unit DT. -/
theorem exec_dt_of_err (h : exec i s = .next t) (hst : s.dt.st = .err) (hi : i ≠ .dtStart) : t.dt = s.dt := by
  by_cases hu : unitOf i = some .dt
  · cases h.symm.trans (exec_of_badStateWhen (badStateWhen_of_dt_err hst hu hi))
    rfl
  · exact exec_dt_of_ne h hu

/-- A step that is no reset executed the command whose word was handed, or left both units. -/
theorem step_executes_or_leaves_units {rest : List Input} (hin : s.inputs = x :: rest) (h : step s = .next t)
    (hx : x ≠ .reset) :
    (∃ i, x = .command (encode i) ∧ exec i s.takeInput = .next t) ∨ (t.b32 = s.b32 ∧ t.dt = s.dt) := by
  rcases step_next h with ⟨_, hin', _⟩ | ⟨w, _, hin', hw⟩ <;> obtain ⟨rfl, -⟩ := List.cons.inj (hin.symm.trans hin')
  · exact absurd rfl hx
  · rcases hw with ⟨i, hd, hex⟩ | ⟨e, -, rfl⟩
    · exact .inl ⟨i, by rw [encode_of_decode hd], hex⟩
    · exact .inr ⟨rfl, rfl⟩

/-- R129: in `ERR` unit B32 changes with `B32.START` and reset only. -/
theorem step_b32_of_err {rest : List Input} (hin : s.inputs = x :: rest) (h : step s = .next t) (hx : x ≠ .reset)
    (hst : s.b32.st = .err) (hstart : x ≠ .command (encode .b32Start)) : t.b32 = s.b32 := by
  rcases step_executes_or_leaves_units hin h hx with ⟨i, rfl, hex⟩ | ⟨hb, -⟩
  · exact exec_b32_of_err (s := s.takeInput) hex hst fun hi => hstart (hi ▸ rfl)
  · exact hb

/-- R129: in `ERR` unit DT changes with `DT.START` and reset only. -/
theorem step_dt_of_err {rest : List Input} (hin : s.inputs = x :: rest) (h : step s = .next t) (hx : x ≠ .reset)
    (hst : s.dt.st = .err) (hstart : x ≠ .command (encode .dtStart)) : t.dt = s.dt := by
  rcases step_executes_or_leaves_units hin h hx with ⟨i, rfl, hex⟩ | ⟨-, hd⟩
  · exact exec_dt_of_err (s := s.takeInput) hex hst fun hi => hstart (hi ▸ rfl)
  · exact hd

/-- R129: the status register of unit B32 in each of its error states. -/
theorem b32Status_of_err (hi : B32Inv s.cfg s.b32) (hst : s.b32.st = .err) :
    readRegister s .b32Status = .ok 0x83 ∧ s.b32.cause = UnitErr.decodeError.code ∨
    readRegister s .b32Status = .ok 0x93 ∧ s.b32.cause = UnitErr.keyOverflow.code := by
  rw [readRegister]
  rcases hi.err_cleared hst with h | h <;> rw [h]
  · exact .inl ⟨rfl, rfl⟩
  · exact .inr ⟨rfl, rfl⟩

/-- R129: the status register of unit DT in each of its error states. -/
theorem dtStatus_of_err (hi : DtInv s.cfg s.dt) (hst : s.dt.st = .err) :
    readRegister s .dtStatus = .ok 0xA3 ∧ s.dt.cause = UnitErr.digestOverflow.code ∨
    readRegister s .dtStatus = .ok 0xB3 ∧ s.dt.cause = UnitErr.invalidConfig.code ∨
    readRegister s .dtStatus = .ok 0xC3 ∧ s.dt.cause = UnitErr.digestTooShort.code := by
  rw [readRegister]
  rcases hi.err_cleared hst with h | h | h <;> rw [h]
  · exact .inl ⟨rfl, rfl⟩
  · exact .inr (.inl ⟨rfl, rfl⟩)
  · exact .inr (.inr ⟨rfl, rfl⟩)

end InError

/-- Settles O15: in `ERR` the condition of `BAD_STATE` holds, and a rejection changes no unit. -/
theorem errorIsStickyUntilStart : Obligations.ErrorIsStickyUntilStart :=
  ⟨fun _ _ hst hu hi => exec_of_badStateWhen (badStateWhen_of_b32_err hst hu hi),
    fun _ _ hst hu hi => exec_of_badStateWhen (badStateWhen_of_dt_err hst hu hi),
    fun _ _ _ _ hin h hx => ⟨step_b32_of_err hin h hx, step_dt_of_err hin h hx⟩,
    fun _ hi => ⟨b32Status_of_err hi.b32, dtStatus_of_err hi.dt⟩⟩

/-! ### The returns from an error state (R130) -/

/-- R141: a step that takes the reset event leaves the reset units. -/
theorem step_reset_units {s t : State} {rest : List Input} (hin : s.inputs = .reset :: rest) (h : step s = .next t) :
    t.b32 = B32Unit.reset ∧ t.dt = DtUnit.reset := by
  rw [step, hin] at h
  cases h
  exact ⟨rfl, rfl⟩

/-- R130: errors do not nest. -/
theorem st_ne_err_of_unitErrorWhen {e : UnitErr} {i : Instr} {s : State} (h : unitErrorWhen e i s) :
    (e.unit = .b32 → s.b32.st ≠ .err) ∧ (e.unit = .dt → s.dt.st ≠ .err) := by
  unfold unitErrorWhen at h
  split at h
  case h_1 => rcases h with ⟨hst, -⟩ | ⟨hst, -⟩ <;> simp [UnitErr.unit, hst]
  case h_2 | h_3 | h_4 | h_5 =>
    obtain ⟨hst, -⟩ := h
    simp [UnitErr.unit, hst]
  case h_6 => exact h.elim

/-- Settles O16: the starts and reset by what they make of a unit, the other inputs by what an error state keeps, and
the two errors by a run. -/
theorem startReturnsFromError : Obligations.StartReturnsFromError := by
  refine ⟨fun s _ => ⟨_, rfl, rfl, rfl⟩, fun s _ => ⟨_, rfl, rfl, rfl⟩, fun s t x rest hin h => ⟨?_, ?_, ?_⟩,
    fun s t i e h hcode => st_ne_err_of_unitErrorWhen ((exec_lastCode_iff h (by simp)).mp hcode), _, rfl, rfl, rfl⟩
  · rintro rfl
    exact step_reset_units hin h
  · intro hst hne
    by_contra! hx
    obtain ⟨hreset, hstart⟩ := hx
    exact hne (step_b32_of_err hin h hreset hst hstart ▸ hst)
  · intro hst hne
    by_contra! hx
    obtain ⟨hreset, hstart⟩ := hx
    exact hne (step_dt_of_err hin h hreset hst hstart ▸ hst)

end Sys2Proof.Machine

/-! The family of reset and hazards (70_reset_and_hazards.md): the reset event (R141 to R143), the interleaving of the
two units (R148), and that every input is answered (R152). -/

namespace Sys2Proof.Machine

/-! ### The reset event and the parameters (R141, R143) -/

/-- R141: the step that takes the reset event. -/
theorem step_reset {s : State} {rest : List Input} (hin : s.inputs = .reset :: rest) :
    step s = .next (State.resetEvent { s with inputs := rest }) := by
  simp [step, hin, State.takeInput]

/-- Settles O7: the step is the reset event on the rest of the inputs. -/
theorem resetEventClearsBothUnits : Obligations.ResetEventClearsBothUnits :=
  fun _ _ hin => ⟨_, step_reset hin, rfl, rfl, rfl, rfl, rfl⟩

/-- R143: a step changes no parameter. -/
theorem step_cfg {s t : State} (h : step s = .next t) : t.cfg = s.cfg := by
  rcases step_next h with ⟨_, _, rfl⟩ | ⟨_, _, _, ⟨_, _, hx⟩ | ⟨_, _, rfl⟩⟩
  · rfl
  · exact exec_cfg (s := s.takeInput) hx
  · rfl

/-- Settles O10: `CFG` shows the parameters and nothing else. -/
theorem parametersNeverChange : Obligations.ParametersNeverChange := by
  intro s t h
  have hc := step_cfg h
  exact ⟨hc, by rw [readRegister, readRegister, hc]⟩

/-! ### A command word from states that agree (R148) -/

section Word
variable {w : CmdWord} {s s' t : State} {r : Response} {k : UnitId}

theorem runWord_of_decode_ok {i : Instr} (hd : decode w = .ok i) (s : State) : runWord w s = exec i s := by
  simp [runWord, hd]

theorem runWord_of_decode_error {e : Illegal} (hd : decode w = .error e) (s : State) :
    runWord w s = .next (s.reject .illegalCmd) := by
  simp [runWord, hd, answerIllegal]

theorem unitOfWord_eq_some_iff : unitOfWord w = some k ↔ ∃ i, decode w = .ok i ∧ unitOf i = some k := by
  unfold unitOfWord
  cases decode w <;> simp

/-- The response a command gives is the last one after it. -/
theorem answered_of_exec {i : Instr} (h : exec i s = .next t) (hr : t.lastResponse = some r) : Answered s t r := by
  obtain ⟨r', ha, -⟩ := exec_answered h
  cases ha.lastResponse.symm.trans hr
  exact ha

/-- R149: a word that is carried out, legal or not, gets one response. -/
theorem runWord_answered (h : runWord w s = .next t) : ∃ r, Answered s t r := by
  cases hd : decode w with
  | ok i =>
    obtain ⟨r, ha, -⟩ := exec_answered ((runWord_of_decode_ok hd s).symm.trans h)
    exact ⟨r, ha⟩
  | error e =>
    cases (runWord_of_decode_error hd s).symm.trans h
    exact ⟨_, answered_reject .illegalCmd s⟩

/-- A word of the other unit or of none leaves the unit `k`. -/
theorem runWord_sameUnit_of_ne (h : runWord w s = .next t) (hu : unitOfWord w ≠ some k) : SameUnit k s t := by
  cases hd : decode w with
  | ok i =>
    exact exec_sameUnit_of_ne ((runWord_of_decode_ok hd s).symm.trans h)
      fun hi => hu (unitOfWord_eq_some_iff.mpr ⟨i, hd, hi⟩)
  | error e =>
    cases (runWord_of_decode_error hd s).symm.trans h
    cases k <;> rfl

/-- R148: a word of the unit `k` sees the parameters and that unit alone. -/
theorem runWord_congr_sameUnit (hu : unitOfWord w = some k) (hc : s'.cfg = s.cfg) (hk : SameUnit k s s')
    (h : runWord w s = .next t) (ha : Answered s t r) :
    ∃ t', runWord w s' = .next t' ∧ Answered s' t' r ∧ SameUnit k t t' := by
  obtain ⟨i, hd, hi⟩ := unitOfWord_eq_some_iff.mp hu
  rw [runWord_of_decode_ok hd] at h ⊢
  obtain ⟨t', h', hr, hk'⟩ := exec_congr_sameUnit hi hc hk h
  exact ⟨t', h', answered_of_exec h' (hr.trans ha.lastResponse), hk'⟩

end Word

/-! ### Runs of inputs (R149) -/

theorem step_hand_word (w : CmdWord) (s : State) : step (s.hand (.command w)) = runWord w s := rfl

theorem step_hand_reset (s : State) : step (s.hand .reset) = .next s.resetEvent := rfl

/-- A run carries out its first input, and the others from there. -/
theorem feed_cons_eq_next_iff {x : Input} {xs : List Input} {s u : State} :
    feed (x :: xs) s = .next u ↔ ∃ t, step (s.hand x) = .next t ∧ feed xs t = .next u := by
  rw [feed]
  cases step (s.hand x) <;> simp

/-! ### The words of one unit in a run (R148) -/

section Interleaved
variable {k : UnitId} {w : CmdWord} {ws : List CmdWord} {r : Response} {rs : List Response}

theorem responsesOf_cons_of_eq (hu : unitOfWord w = some k) :
    responsesOf k (w :: ws) (r :: rs) = r :: responsesOf k ws rs := by
  simp [responsesOf, hu]

theorem responsesOf_cons_of_ne (hu : unitOfWord w ≠ some k) :
    responsesOf k (w :: ws) (r :: rs) = responsesOf k ws rs := by
  simp [responsesOf, hu]

/-- R148: from states that agree in the parameters and in the unit `k`, a run of words and the run of that unit's words
alone give its words the same responses and leave that unit the same. -/
theorem feed_words_of_unit {s s' t : State} (hc : s'.cfg = s.cfg) (hk : SameUnit k s s')
    (h : feed (ws.map Input.command) s = .next t) :
    ∃ rs t', t.responses = s.responses ++ rs ∧
      feed ((ws.filter (fun w => unitOfWord w = some k)).map Input.command) s' = .next t' ∧
      t'.responses = s'.responses ++ responsesOf k ws rs ∧ SameUnit k t t' := by
  induction ws generalizing s s' with
  | nil =>
    cases h
    exact ⟨[], s', (List.append_nil _).symm, rfl, (List.append_nil _).symm, hk⟩
  | cons w ws ih =>
    obtain ⟨m, hm, ht⟩ := feed_cons_eq_next_iff.mp h
    rw [step_hand_word] at hm
    obtain ⟨r, ha⟩ := runWord_answered hm
    have ⟨hcm, _, hrm⟩ := ha
    by_cases hu : unitOfWord w = some k
    · obtain ⟨m', hm', ⟨hcm', -, hrm'⟩, hkm⟩ := runWord_congr_sameUnit hu hc hk hm ha
      obtain ⟨rs, t', hrs, ht', hrs', hkt⟩ := ih (hcm'.trans (hc.trans hcm.symm)) hkm ht
      refine ⟨r :: rs, t', by simp [hrs, hrm], ?_, by simp [hrs', hrm', responsesOf_cons_of_eq hu], hkt⟩
      rw [List.filter_cons_of_pos (by simpa using hu)]
      exact feed_cons_eq_next_iff.mpr ⟨m', hm', ht'⟩
    · have hkm : SameUnit k m s' := (runWord_sameUnit_of_ne hm hu).symm.trans hk
      obtain ⟨rs, t', hrs, ht', hrs', hkt⟩ := ih (hc.trans hcm.symm) hkm ht
      refine ⟨r :: rs, t', by simp [hrs, hrm], ?_, by rw [hrs', responsesOf_cons_of_ne hu], hkt⟩
      rwa [List.filter_cons_of_neg (by simpa using hu)]

end Interleaved

/-- Settles O40: both runs start from the same state, which agrees with itself. -/
theorem interleavedStreamsAreIndependent : Obligations.InterleavedStreamsAreIndependent := by
  intro s t ws k h
  have hk : SameUnit k s s := by cases k <;> rfl
  obtain ⟨rs, t', hrs, ht', hrs', hkt⟩ := feed_words_of_unit rfl hk h
  exact ⟨rs, _, t', hrs, ht', hrs', rfl, by rintro rfl; exact hkt, by rintro rfl; exact hkt⟩

/-! ### Reset and the two starts (R142) -/

/-- The two states hold the same block: parameters and units. What is left out, the inputs still to come and the
responses so far, is the host's (10_state.md R15, R16). -/
structure SameBlock (s s' : State) : Prop where
  cfg : s'.cfg = s.cfg
  b32 : s'.b32 = s.b32
  dt : s'.dt = s.dt

section SameBlock
variable {s s' t : State}

theorem runWord_congr_sameBlock {w : CmdWord} {r : Response} (hb : SameBlock s s') (h : runWord w s = .next t)
    (ha : Answered s t r) : ∃ t', runWord w s' = .next t' ∧ Answered s' t' r ∧ SameBlock t t' := by
  cases hd : decode w with
  | ok i =>
    rw [runWord_of_decode_ok hd] at h ⊢
    obtain ⟨t', h', hb32, hdt, hr⟩ := exec_congr_units hb.cfg hb.b32 hb.dt h
    have hcfg : t'.cfg = t.cfg := (exec_cfg h').trans (hb.cfg.trans (exec_cfg h).symm)
    exact ⟨t', h', answered_of_exec h' (hr.trans ha.lastResponse), hcfg, hb32, hdt⟩
  | error e =>
    rw [runWord_of_decode_error hd] at h ⊢
    cases h
    cases ha.lastResponse.symm.trans (answered_reject .illegalCmd s).lastResponse
    exact ⟨_, rfl, answered_reject .illegalCmd s', hb.cfg, hb.b32, hb.dt⟩

/-- An input adds the same responses, one to a word and none to the reset event, to both states of the same block. -/
theorem step_congr_sameBlock (hb : SameBlock s s') (x : Input) (h : step (s.hand x) = .next t) :
    ∃ t' rs, step (s'.hand x) = .next t' ∧ SameBlock t t' ∧
      t.responses = s.responses ++ rs ∧ t'.responses = s'.responses ++ rs := by
  cases x with
  | command w =>
    obtain ⟨r, ha⟩ := runWord_answered h
    obtain ⟨t', h', ⟨-, -, hr'⟩, hb'⟩ := runWord_congr_sameBlock hb h ha
    obtain ⟨-, -, hr⟩ := ha
    exact ⟨t', [r], h', hb', hr, hr'⟩
  | reset =>
    cases h
    exact ⟨_, [], step_hand_reset s', ⟨hb.cfg, rfl, rfl⟩, (List.append_nil _).symm, (List.append_nil _).symm⟩

/-- From states of the same block a run of inputs gives the same responses and leaves the same block. -/
theorem feed_congr_sameBlock {xs : List Input} (hb : SameBlock s s') (h : feed xs s = .next t) :
    ∃ t' rs, feed xs s' = .next t' ∧ SameBlock t t' ∧
      t.responses = s.responses ++ rs ∧ t'.responses = s'.responses ++ rs := by
  induction xs generalizing s s' with
  | nil =>
    cases h
    exact ⟨s', [], rfl, hb, (List.append_nil _).symm, (List.append_nil _).symm⟩
  | cons x xs ih =>
    obtain ⟨m, hm, ht⟩ := feed_cons_eq_next_iff.mp h
    obtain ⟨m', rs₁, hm', hbm, hr, hr'⟩ := step_congr_sameBlock hb x hm
    obtain ⟨t', rs₂, ht', hbt, hrt, hrt'⟩ := ih hbm ht
    exact ⟨t', rs₁ ++ rs₂, feed_cons_eq_next_iff.mpr ⟨m', hm', ht'⟩, hbt, by simp [hrt, hr], by simp [hrt', hr']⟩

end SameBlock

/-- `B32.START; DT.START` make the block that the reset event makes, with two responses more. -/
theorem feed_two_starts (s : State) (xs : List Input) :
    ∃ u, feed (.command (encode .b32Start) :: .command (encode .dtStart) :: xs) s = feed xs u ∧
      SameBlock s.resetEvent u ∧ u.responses = s.responses ++ [okResponse 0, okResponse 0] := by
  obtain ⟨m, hm, ⟨hcm, -, hrm⟩, hbm, -⟩ := b32StartBeginsADecode s
  obtain ⟨u, hu, ⟨hcu, -, hru⟩, hdu, hbu, -⟩ := dtStartBeginsATruncation m
  exact ⟨u, by simp only [feed, step_hand_command, hm, hu], ⟨hcu.trans hcm, hbu.trans hbm, hdu⟩, by simp [hru, hrm]⟩

/-- Settles O8: the reset event, the two starts and power-on leave the same block, from which the same run follows. -/
theorem resetEqualsTheTwoStarts : Obligations.ResetEqualsTheTwoStarts := by
  intro s t xs h
  obtain ⟨_, hm, ht⟩ := feed_cons_eq_next_iff.mp h
  cases hm
  constructor
  · obtain ⟨m, hstarts, hb, hrm⟩ := feed_two_starts s xs
    obtain ⟨u, rs, hu, hbu, hrt, hru⟩ := feed_congr_sameBlock hb ht
    exact ⟨u, rs, hstarts.trans hu, hbu.cfg, hbu.b32, hbu.dt, hrt, by rw [hru, hrm]⟩
  · have hb : SameBlock s.resetEvent (State.resetOf s.cfg) := ⟨rfl, rfl, rfl⟩
    obtain ⟨v, rs, hv, hbv, hrt, hrv⟩ := feed_congr_sameBlock hb ht
    exact ⟨v, rs, hv, hbv.cfg, hbv.b32, hbv.dt, hrv, hrt⟩

/-! ### Every input is answered (R152) -/

/-- R152: where the invariant holds, every input is carried out. -/
theorem step_answers {s : State} (hi : Inv s) (hin : s.inputs ≠ []) : ∃ t, step s = .next t := by
  obtain ⟨x, rest, hin⟩ := List.exists_cons_of_ne_nil hin
  cases x with
  | command w =>
    obtain ⟨t, -, h, -⟩ := oneResponsePerCommandWord s w rest hi hin
    exact ⟨t, h⟩
  | reset => exact ⟨_, step_reset hin⟩

/-- A command to which neither condition of R127 applies is not rejected. -/
theorem not_rejected_of_exec {i : Instr} {s t : State} (h : exec i s = .next t) (hst : ¬ badStateWhen i s)
    (hx : ¬ badIndexWhen i s) (r : Rejection) : t.lastCode ≠ some (.rejection r) := by
  rw [ne_eq, exec_lastCode_iff h (by simp)]
  cases r with
  | illegalCmd => exact id
  | badState => exact hst
  | badIndex => exact hx

/-- Settles O36: where each unit is loading, the table of R127 has no condition that applies. -/
theorem everyCommandWordIsAnswered : Obligations.EveryCommandWordIsAnswered := by
  refine ⟨fun s => step_answers, fun s => ⟨?_, ?_⟩, fun s t i hst hi h => ?_, fun s t i hst hi h => ?_⟩
  · obtain ⟨t, h, ha, -⟩ := b32StartBeginsADecode s
    exact ⟨t, h, ha.lastCode⟩
  · obtain ⟨t, h, ha, -⟩ := dtStartBeginsATruncation s
    exact ⟨t, h, ha.lastCode⟩
  · have hopen : ¬ (s.b32.st = .done ∨ s.b32.st = .err) := by rcases hst with hst | hst <;> simp [hst]
    rcases hi with ⟨c, rfl⟩ | rfl <;> exact not_rejected_of_exec h hopen id
  · have hload : ¬ s.dt.st ≠ .load := not_not.mpr hst
    rcases hi with ⟨b, rfl⟩ | ⟨d, rfl⟩ <;> exact not_rejected_of_exec h hload id

end Sys2Proof.Machine
